-- ==== Sys2Proof/Word.lean ====
section
/-! DEFINITION. The word types of the core: bytes, command words and 64-bit addresses (spec 00 R5, R6). -/

namespace Sys2Proof

/-- A byte (R6): the width of every host access and of `CRC8`. -/
abbrev Byte := BitVec 8

/-- A command word (R72). -/
abbrev Word := BitVec 32

/-- The value of the `CRC16` register (R27). -/
abbrev Half := BitVec 16

/-- A 64-bit 1-Wire address (R12). Byte k is bits 8k+7 .. 8k, so that `abit(X, i)` of R6 is bit i. -/
abbrev Address := BitVec 64

end Sys2Proof
end

