-- ==== Sys2Proof/Syntax.lean ====
section
/-! DEFINITION. The commands: one constructor per row of spec/opcode_table.json (spec 30 R71, R75), with the operands
of R73 and R74. -/

namespace Sys2Proof

/-- The fifteen commands of R75. A byte operand is `imm[7:0]`, a seed of `CRC16.RESET` is `imm[15:0]`, the length
of `EXCHANGE` is a natural and must fit 16 bits (`Instr.wf`), the index of `ADDRWR` is 0 to 7, and the flags are
booleans: `r` is doReset, `a` is alarmOnly (R74). -/
inductive Instr where
  /-- `CRC8.RESET seed` (R94) -/
  | crc8Reset (seed : Byte)
  /-- `CRC8.UPDATE byte` (R95) -/
  | crc8Update (byte : Byte)
  /-- `CRC8.CHECK` (R96) -/
  | crc8Check
  /-- `CRC16.RESET seed` (R100) -/
  | crc16Reset (seed : Half)
  /-- `CRC16.UPDATE byte` (R101) -/
  | crc16Update (byte : Byte)
  /-- `CRC16.CHECK` (R102) -/
  | crc16Check
  /-- `FIRST r, a` (R111) -/
  | first (r a : Bool)
  /-- `NEXT r, a` (R112) -/
  | next (r a : Bool)
  /-- `FAMSETUP code` (R123) -/
  | famSetup (code : Byte)
  /-- `SKIPFAM` (R124) -/
  | skipFam
  /-- `ACCESS` (R141) -/
  | access
  /-- `VERIFY a` (R144) -/
  | verify (a : Bool)
  /-- `ODACCESS` (R146) -/
  | odAccess
  /-- `EXCHANGE r, len` (R148) -/
  | exchange (r : Bool) (len : Nat)
  /-- `ADDRWR idx, byte` (R140) -/
  | addrWr (idx : Fin 8) (byte : Byte)
deriving DecidableEq, Repr

/-- The mnemonic of R75. -/
def Instr.mnemonic : Instr → String
  | .crc8Reset _ => "CRC8.RESET"
  | .crc8Update _ => "CRC8.UPDATE"
  | .crc8Check => "CRC8.CHECK"
  | .crc16Reset _ => "CRC16.RESET"
  | .crc16Update _ => "CRC16.UPDATE"
  | .crc16Check => "CRC16.CHECK"
  | .first _ _ => "FIRST"
  | .next _ _ => "NEXT"
  | .famSetup _ => "FAMSETUP"
  | .skipFam => "SKIPFAM"
  | .access => "ACCESS"
  | .verify _ => "VERIFY"
  | .odAccess => "ODACCESS"
  | .exchange _ _ => "EXCHANGE"
  | .addrWr _ _ => "ADDRWR"

end Sys2Proof
end

