-- ==== Sys2Proof/WellFormed.lean ====
section
/-! DEFINITION. Which instructions are well formed: the one operand whose Lean type is wider than its field is the
length of EXCHANGE (spec 30 R74). -/

namespace Sys2Proof

/-- R74: "The `EXCHANGE` length is `imm[15:0]` as a natural, 0 to 65535". Every other operand's type is exactly
its field. -/
def Instr.wf : Instr → Bool
  | .crc8Reset _ => true
  | .crc8Update _ => true
  | .crc8Check => true
  | .crc16Reset _ => true
  | .crc16Update _ => true
  | .crc16Check => true
  | .first _ _ => true
  | .next _ _ => true
  | .famSetup _ => true
  | .skipFam => true
  | .access => true
  | .verify _ => true
  | .odAccess => true
  | .exchange _ len => decide (len ≤ 65535)
  | .addrWr _ _ => true

end Sys2Proof
end

