-- ==== Sys2Proof/Decode.lean ====
section
/-! DEFINITION. The command word: its fields, the decoder, the encoder and the opcode map with match and mask
(spec 30 R72 to R78). -/

namespace Sys2Proof

/-! ## The fields of a word (R72) -/

/-- `opc`, bits 31:24. -/
def opcOf (w : Word) : BitVec 8 := w.extractLsb' 24 8

/-- `z`, bits 23:18, must be zero. -/
def zOf (w : Word) : BitVec 6 := w.extractLsb' 18 6

/-- `r`, bit 17: doReset. -/
def rOf (w : Word) : Bool := w.getLsbD 17

/-- `a`, bit 16: alarmOnly. -/
def aOf (w : Word) : Bool := w.getLsbD 16

/-- `imm`, bits 15:0. -/
def immOf (w : Word) : Half := w.extractLsb' 0 16

/-- `imm[7:0]`, the byte operand (R74). -/
def immLow (w : Word) : Byte := (immOf w).extractLsb' 0 8

/-- `imm[15:8]`, which must be zero in a format with a byte operand only (R73). -/
def immHigh (w : Word) : Byte := (immOf w).extractLsb' 8 8

/-- `imm[10:8]`, the index of ADDRWR (R74). -/
def idxOf (w : Word) : BitVec 3 := (immOf w).extractLsb' 8 3

/-- `imm[15:11]`, which ADDRWR does not use (R73). -/
def immTop (w : Word) : BitVec 5 := (immOf w).extractLsb' 11 5

/-- The word with these fields and `z` zero (R72, R76: `opc << 24 | r << 17 | a << 16 | imm`). -/
def wordOf (opc : BitVec 8) (r a : Bool) (imm : Half) : Word :=
  opc ++ (0 : BitVec 6) ++ BitVec.ofBool r ++ BitVec.ofBool a ++ imm

/-! ## Decoding (R73, R75, R77, R78) -/

/-- Why a word is illegal (R77). The core makes no difference between the two. -/
inductive Illegal where
  /-- the `opc` stands in no row of R75 -/
  | unknownOpcode
  /-- a listed `opc`, and a nonzero bit in a field its format does not use -/
  | unusedFieldNotZero
deriving DecidableEq, Repr

/-- The command `i`, unless a field the format does not use is nonzero. -/
def whenZero (unused : Bool) (i : Instr) : Except Illegal Instr :=
  if unused then .ok i else .error .unusedFieldNotZero

/-- Format N: `opc` only (R73). -/
def decodeN (w : Word) (i : Instr) : Except Illegal Instr :=
  whenZero (zOf w == 0 && !rOf w && !aOf w && immOf w == 0) i

/-- Format B: a byte in `imm[7:0]` (R73). -/
def decodeB (w : Word) (i : Byte → Instr) : Except Illegal Instr :=
  whenZero (zOf w == 0 && !rOf w && !aOf w && immHigh w == 0) (i (immLow w))

/-- Format H: a 16-bit value in `imm` (R73). -/
def decodeH (w : Word) (i : Half → Instr) : Except Illegal Instr :=
  whenZero (zOf w == 0 && !rOf w && !aOf w) (i (immOf w))

/-- Format S: the flags `r` and `a` (R73). -/
def decodeS (w : Word) (i : Bool → Bool → Instr) : Except Illegal Instr :=
  whenZero (zOf w == 0 && immOf w == 0) (i (rOf w) (aOf w))

/-- Format V: the flag `a` (R73). -/
def decodeV (w : Word) (i : Bool → Instr) : Except Illegal Instr :=
  whenZero (zOf w == 0 && !rOf w && immOf w == 0) (i (aOf w))

/-- Format X: the flag `r` and a length in `imm` (R73). -/
def decodeX (w : Word) (i : Bool → Nat → Instr) : Except Illegal Instr :=
  whenZero (zOf w == 0 && !aOf w) (i (rOf w) (immOf w).toNat)

/-- Format W: an index in `imm[10:8]` and a byte in `imm[7:0]` (R73). -/
def decodeW (w : Word) (i : Fin 8 → Byte → Instr) : Except Illegal Instr :=
  whenZero (zOf w == 0 && !rOf w && !aOf w && immTop w == 0) (i (idxOf w).toFin (immLow w))

/-- The decoder: every 32-bit word is one of the fifteen commands or illegal (R75, R77, R78). -/
def decode (w : Word) : Except Illegal Instr :=
  match (opcOf w).toNat with
  | 0x10 => decodeB w .crc8Reset
  | 0x11 => decodeB w .crc8Update
  | 0x12 => decodeN w .crc8Check
  | 0x18 => decodeH w .crc16Reset
  | 0x19 => decodeB w .crc16Update
  | 0x1A => decodeN w .crc16Check
  | 0x20 => decodeS w .first
  | 0x21 => decodeS w .next
  | 0x22 => decodeB w .famSetup
  | 0x23 => decodeN w .skipFam
  | 0x30 => decodeN w .access
  | 0x31 => decodeV w .verify
  | 0x32 => decodeN w .odAccess
  | 0x33 => decodeX w .exchange
  | 0x34 => decodeW w .addrWr
  | _ => .error .unknownOpcode

/-! ## Encoding (R72, R73, R75, R76) -/

/-- The 16-bit immediate that holds a byte in `imm[7:0]`. -/
def immByte (b : Byte) : Half := (0 : BitVec 8) ++ b

/-- The 16-bit immediate of ADDRWR: the index in `imm[10:8]`, the byte in `imm[7:0]`. -/
def immIndexByte (idx : Fin 8) (b : Byte) : Half := (0 : BitVec 5) ++ (BitVec.ofFin idx : BitVec 3) ++ b

/-- The word of an instruction. For one that is not well formed the length loses its high bits. -/
def encode : Instr → Word
  | .crc8Reset seed => wordOf 0x10 false false (immByte seed)
  | .crc8Update b => wordOf 0x11 false false (immByte b)
  | .crc8Check => wordOf 0x12 false false 0
  | .crc16Reset seed => wordOf 0x18 false false seed
  | .crc16Update b => wordOf 0x19 false false (immByte b)
  | .crc16Check => wordOf 0x1A false false 0
  | .first r a => wordOf 0x20 r a 0
  | .next r a => wordOf 0x21 r a 0
  | .famSetup code => wordOf 0x22 false false (immByte code)
  | .skipFam => wordOf 0x23 false false 0
  | .access => wordOf 0x30 false false 0
  | .verify a => wordOf 0x31 false a 0
  | .odAccess => wordOf 0x32 false false 0
  | .exchange r len => wordOf 0x33 r false (BitVec.ofNat 16 len)
  | .addrWr idx b => wordOf 0x34 false false (immIndexByte idx b)

/-! ## The opcode map as match and mask (R75) -/

/-- The `match` and `mask` columns of R75, in its order. -/
def opcodeMap : List (Word × Word) :=
  [ (0x10000000, 0xFFFFFF00), (0x11000000, 0xFFFFFF00), (0x12000000, 0xFFFFFFFF),
    (0x18000000, 0xFFFF0000), (0x19000000, 0xFFFFFF00), (0x1A000000, 0xFFFFFFFF),
    (0x20000000, 0xFFFCFFFF), (0x21000000, 0xFFFCFFFF), (0x22000000, 0xFFFFFF00),
    (0x23000000, 0xFFFFFFFF), (0x30000000, 0xFFFFFFFF), (0x31000000, 0xFFFEFFFF),
    (0x32000000, 0xFFFFFFFF), (0x33000000, 0xFFFD0000), (0x34000000, 0xFFFFF800) ]

/-- The row of R75 an instruction belongs to, as its place in `opcodeMap`. -/
def Instr.rowIndex : Instr → Fin 15
  | .crc8Reset _ => 0
  | .crc8Update _ => 1
  | .crc8Check => 2
  | .crc16Reset _ => 3
  | .crc16Update _ => 4
  | .crc16Check => 5
  | .first _ _ => 6
  | .next _ _ => 7
  | .famSetup _ => 8
  | .skipFam => 9
  | .access => 10
  | .verify _ => 11
  | .odAccess => 12
  | .exchange _ _ => 13
  | .addrWr _ _ => 14

/-- R75: "a word w is the command when `w & mask == match`". -/
def matchesRow (w : Word) (row : Word × Word) : Bool := w &&& row.2 == row.1

/-! ## The host's numbering of a table row's bits -/

/-- The command word whose bits are `w`: a row of the table is one 32-bit word, so bit 0 of `w` is bit 0 of the
word, and the bits at and above `nbits` are zero. -/
def tableWord (nbits w : Nat) : Word := BitVec.ofNat 32 (w % 2 ^ nbits)

/-- What the decoder reads from a row's word. -/
def decodeTableWord (nbits w : Nat) : Option Instr :=
  match decode (tableWord nbits w) with
  | .ok i => some i
  | .error _ => none

end Sys2Proof
end

