-- ==== Sys2Proof/Config.lean ====
section
/-! DEFINITION. What an instance of the core fixes (the parameters of spec 00 R5), the answers the link layer can
give (20 R50, R52; 60 R182), and the free values, which have no body: nothing can be proved of what they are. -/

namespace Sys2Proof

/-- The bus speeds of `setSpeed` (R50). -/
inductive Speed where
  | normal
  | overdrive
deriving DecidableEq, Repr, Inhabited

/-- The power levels of `setLevel` (R50, R189). No command uses them (R53). -/
inductive Level where
  | normal
  | strong5
  | program
deriving DecidableEq, Repr, Inhabited

/-- The fault answers of the extension (R182). -/
inductive LinkFault where
  | shortCircuit
  | adapterFault
deriving DecidableEq, Repr, Inhabited

/-- What the far side of the link port answers to one call, whichever call it is: the field of the call's own
answer type is read and the others are not (R50). `fault` counts only with LINK_FAULT_CHANNEL = 1 (R182). No
value is excluded: the oracle is unconstrained (R52). -/
structure Answer where
  presence   : Bool := false
  bit        : Bool := false
  byte       : Byte := 0
  speed      : Speed := .normal
  level      : Level := .normal
  capability : Bool := false
  fault      : Option LinkFault := none
deriving DecidableEq, Repr, Inhabited

/-- The parameters of one instance (R5). `alarmClockFamilies` is the predicate `isAlarmClockFamily`, written as
the list of the bytes it holds of (log 5). -/
structure Params where
  maxBlockLen        : Nat
  alarmClockFamilies : List Byte
  linkFaultChannel   : Bool
  verifyDoesReset    : Bool
deriving DecidableEq, Repr

/-- MAX_BLOCK_LEN is 1 to 65535 (R5). -/
abbrev Params.wf (p : Params) : Prop := 1 ≤ p.maxBlockLen ∧ p.maxBlockLen ≤ 65535

/-- OPEN (R5, D14): the MAX_BLOCK_LEN of the machine after reset is this plus one, so 1 to 65535. -/
opaque Config.maxBlockLenLessOne : Fin 65535

/-- MAX_BLOCK_LEN of the machine after reset (R5): some number 1 to 65535. -/
def Config.maxBlockLen : Nat := Config.maxBlockLenLessOne.val + 1

/-- OPEN (R5, D9): the bytes `isAlarmClockFamily` holds of in the machine after reset. -/
opaque Config.alarmClockFamilies : List Byte

/-- The parameters of the machine after reset: the OPEN ones free, the others at the spec's defaults
(R5: LINK_FAULT_CHANNEL 0, VERIFY_DOES_RESET 1). -/
def Config.params : Params :=
  { maxBlockLen := Config.maxBlockLen
    alarmClockFamilies := Config.alarmClockFamilies
    linkFaultChannel := false
    verifyDoesReset := true }

/-- FREE VALUE (R52, U2): the far side's answer to the link call with this number, where `link.answers` says
nothing of it (log 2). -/
opaque Config.freeAnswer : Nat → Answer

/-- FREE VALUE (R38, V1): what byte k of `BUF` holds after the n-th hardware reset, until it is written (log 3). -/
opaque Config.freeBufByte : (n : Nat) → (k : Nat) → Byte

/-- VERIFY_THRESHOLD (R5, R145): a literal, not a parameter. -/
def Config.verifyThreshold : Nat := 8

end Sys2Proof
end

