-- ==== Sys2Proof/Machine/State.lean ====
section
/-! DEFINITION. The state of the machine as plain data (spec 10 R10 to R28; 20 R40 to R43, R50), its reset value
(10 R36 to R39; 70 R201), and the reasons a step can stop. -/

namespace Sys2Proof.Machine

/-- The values of `LD` (R15): a number 0 to 64, `NONE` or `RESET_SENTINEL`. The codes 0x41 to 0xFD are never
written and are left out, as R15 allows (log 12). -/
inductive Discrepancy where
  | num (n : Fin 65)
  | none
  | resetSentinel
deriving DecidableEq, Repr

/-- The status codes (R170). The codes 0xA to 0xF are never written and are left out (R170, V6; log 12). -/
inductive Status where
  | ok
  | noPresence
  | shortCircuit
  | echoMismatch
  | crcFailure
  | searchCorrupted
  | adapterFault
  | endOfSearch
  | lengthExceeded
  | illegalCommand
deriving DecidableEq, Repr

/-- The primitives of the link port with their arguments (R50). -/
inductive LinkCall where
  | reset
  | readBit
  | writeBit (bit : Bool)
  | touchByte (byte : Byte)
  | setSpeed (speed : Speed)
  | setLevel (level : Level)
  | hasPowerDelivery
  | hasOverdrive
  | hasProgramPulse
deriving DecidableEq, Repr

/-- The answer to a link call, of the call's own type (R50), or a fault (R182). -/
inductive Reply where
  | presence (p : Bool)
  | bit (b : Bool)
  | nothing
  | byte (v : Byte)
  | speed (s : Speed)
  | level (l : Level)
  | capability (b : Bool)
  | fault (k : LinkFault)
deriving DecidableEq, Repr

/-- One event of a link trace: a call and its answer (R6). -/
structure LinkEvent where
  call  : LinkCall
  reply : Reply
deriving DecidableEq, Repr

/-- The core's end of the link port. `answers` are the far side's answers to come, as far as they are written
down (log 2); `calls` counts the link calls made, and numbers the free answers (log 2); `trace` is the link trace
of the last command, first call first (R6, R7; log 6). -/
structure Link where
  answers : List Answer
  calls   : Nat
  trace   : List LinkEvent
deriving DecidableEq, Repr

/-- What the host does at the core's ports (R24, R41, R43, R57), and hardware reset (R200, R204). -/
inductive HostAccess where
  /-- a word for the command port (R72) -/
  | command (w : Word)
  /-- a read of the register port (R24) -/
  | readReg (number : Byte)
  /-- a read of the buffer port (R41) -/
  | readBuf (k : Nat)
  /-- a write of the buffer port (R41) -/
  | writeBuf (k : Nat) (v : Byte)
  /-- hardware reset, while the core is idle (R200, R201) -/
  | hardReset
  /-- a word for the command port and a hardware reset during that command, when it has made `n` link calls
  (R204; log 9) -/
  | commandCut (w : Word) (n : Nat)
deriving DecidableEq, Repr

/-- `BUF` (R40): the bytes written since the last hardware reset, indices strictly rising (`Memory.wf`). An
unlisted index holds no written value; what it reads as is `State.bufByte` (log 3). -/
abbrev Memory := List Host.Cell

/-- The canonical form: indices strictly rising, so at most one entry for an index. -/
abbrev Memory.wf (m : Memory) : Prop := (m.map Prod.fst).Pairwise (· < ·)

/-- The state of one core. The first nine fields are the architectural state, exactly the list of R10; `params`
are the parameters of the instance (R5); the rest is the model's own: the link port, the host's accesses, the
last answer of a read port, and the number of hardware resets. -/
structure State where
  /-- `ADDR` (R12, R13) -/
  addr     : Address
  /-- `LD` (R15 to R18) -/
  ld       : Discrepancy
  /-- `LFD` (R19) -/
  lfd      : Fin 65
  /-- `LDF` (R20) -/
  ldf      : Bool
  /-- `CRC8` (R26) -/
  crc8     : Byte
  /-- `CRC16` (R27) -/
  crc16    : Half
  /-- `STATUS` (R23) -/
  status   : Status
  /-- `RES` (R22) -/
  res      : Bool
  /-- `BUF` (R40) -/
  buf      : Memory
  /-- the parameters of the instance (R5; log 5) -/
  params   : Params
  /-- the link port (R50, R52; log 2, log 6) -/
  link     : Link
  /-- the host's accesses to come, the next one first (R57, V5; log 1) -/
  host     : List HostAccess
  /-- what the last read of the register or buffer port answered (R24, R41; log 7) -/
  readData : Option Byte
  /-- how many hardware resets there were: numbers the draw of the unspecified `BUF` (R38; log 3) -/
  resets   : Nat
deriving DecidableEq, Repr

/-- The reasons the model stops on. No command of the core faults: R178, "There is no unrecoverable/fatal error
category within this core". -/
inductive Fault where
  /-- The HOST reads or writes `BUF` at an index at or above MAX_BLOCK_LEN (R41, V8: "a model gives it no meaning
  (the host must not do it)"). Raised by the two buffer port accesses, never by a command. Safe: the model stops
  (log 8). -/
  | bufIndexOutOfRange
deriving DecidableEq, Repr

/-- The reasons an instruction is refused. -/
inductive Refusal where
  /-- The instruction has no meaning in this model yet. Raised by `exec`'s own arms only; at present by none.
  Safe: the model stops. -/
  | notModelled (mnemonic : String)
deriving DecidableEq, Repr

/-- The machine right after hardware reset (R36 to R39, R201): the empty SearchState, cleared accumulators, `Ok`,
`RES` 0, no byte of `BUF` written, idle, and no link call made. The parameters are those of the instance (R5). -/
def State.reset : State :=
  { addr := 0
    ld := .resetSentinel
    lfd := 0
    ldf := false
    crc8 := 0
    crc16 := 0
    status := .ok
    res := false
    buf := []
    params := Config.params
    link := { answers := [], calls := 0, trace := [] }
    host := []
    readData := none
    resets := 0 }

end Sys2Proof.Machine
end

