-- ==== Sys2Proof/Machine/Operands.lean ====
section
/-! DEFINITION. Operand forms: the bytes and bits of an address (spec 00 R6; 20 R44), the codes of `LD`, `LFD` and
`STATUS` (10 R15, R19; 60 R170), the candidate path of step 3 (41 R115) and the command bytes (00 R5). -/

namespace Sys2Proof.Machine

/-! ## Bits and bytes of an address -/

/-- `abit(X, i)` (R6): bit 0 is the least significant bit of byte 0. -/
def abit (x : Address) (i : Nat) : Bool := x.getLsbD i

/-- `abit(X, i) = b`, as an update. -/
def setAbit (x : Address) (i : Nat) (b : Bool) : Address :=
  if b then x ||| BitVec.twoPow 64 i else x &&& ~~~(BitVec.twoPow 64 i)

/-- `ADDR[k]` (R6, R12), for k in 0..7. -/
def addrByte (x : Address) (k : Nat) : Byte := x.extractLsb' (8 * k) 8

/-- `ADDR[k] <- v`. -/
def setAddrByte (x : Address) (k : Nat) (v : Byte) : Address :=
  (x &&& ~~~((BitVec.allOnes 8).setWidth 64 <<< (8 * k))) ||| v.setWidth 64 <<< (8 * k)

/-- The eight bytes in the order they go on the bus: byte 0 first (R44). -/
def addrBytes (x : Address) : List Byte :=
  [addrByte x 0, addrByte x 1, addrByte x 2, addrByte x 3, addrByte x 4, addrByte x 5, addrByte x 6, addrByte x 7]

/-- The address with family code `code` and seven zero bytes (R123). -/
def familySeed (code : Byte) : Address := code.setWidth 64

/-! ## Register codes -/

/-- The 8-bit code of `LD` (R15). -/
def Discrepancy.code : Discrepancy → Byte
  | .num n => BitVec.ofNat 8 n.val
  | .none => 0xFE
  | .resetSentinel => 0xFF

/-- The 4-bit code of a status (R170). -/
def Status.code : Status → BitVec 4
  | .ok => 0x0
  | .noPresence => 0x1
  | .shortCircuit => 0x2
  | .echoMismatch => 0x3
  | .crcFailure => 0x4
  | .searchCorrupted => 0x5
  | .adapterFault => 0x6
  | .endOfSearch => 0x7
  | .lengthExceeded => 0x8
  | .illegalCommand => 0x9

/-- The status of a link fault (R183: `STATUS <- K`). -/
def Status.ofFault : LinkFault → Status
  | .shortCircuit => .shortCircuit
  | .adapterFault => .adapterFault

/-! ## Step 3 of NEXT (R112, R115) -/

/-- `HI`: the number in `LD` when it is one; `NONE` and `RESET_SENTINEL` give 0. -/
def Discrepancy.hi : Discrepancy → Nat
  | .num n => n.val
  | .none => 0
  | .resetSentinel => 0

/-- The low `n` bits of an address, zero above. -/
def lowBits (x : Address) (n : Nat) : Address := x &&& (BitVec.allOnes 64 >>> (64 - n))

/-- The candidate path: with a number in `LD`, bit `HI - 1` is 1 (when `HI >= 1`) and every bit from `HI` up is 0;
with `NONE` or `RESET_SENTINEL` nothing is forced. -/
def candidatePath (ld : Discrepancy) (x : Address) : Address :=
  match ld with
  | .num n => lowBits (if 1 ≤ n.val then setAbit x (n.val - 1) true else x) n.val
  | .none => x
  | .resetSentinel => x

/-! ## Command bytes and residuals (R5) -/

/-- The search command byte: 0xEC alarm-only, 0xF0 normal (R116, R144). -/
def searchByte (a : Bool) : Byte := if a then 0xEC else 0xF0

/-- The match command (R141). -/
def matchByte : Byte := 0x55

/-- The overdrive match command (R146). -/
def overdriveMatchByte : Byte := 0x69

/-- The residual of a good address (R92, R96). -/
def crc8Residual : Byte := 0x00

/-- The residual of a good payload (R102, R103). -/
def crc16Residual : Half := 0xB001

/-- `isAlarmClockFamily` (R5, R114). -/
def isAlarmClockFamily (p : Params) (b : Byte) : Bool := p.alarmClockFamilies.contains b

end Sys2Proof.Machine
end

