-- ==== Sys2Proof/Machine/Flags.lean ====
section
/-! DEFINITION. The two flags: every way `RES` and `LDF` are computed (spec 10 R20, R22). -/

namespace Sys2Proof.Machine

/-- `RES` of a command that ends with this status: 1 exactly for `Ok` (R22). VERIFY alone does not follow it. -/
def resOf (st : Status) : Bool := st == .ok

/-- `RES` of VERIFY: the verdict `CNT >= 8` (R144, R145). -/
def verdict (cnt : Nat) : Bool := decide (Config.verifyThreshold ≤ cnt)

/-- `LDF` after a successful pass: set when no discrepancy was recorded, else left (R112 step 6, R122). -/
def ldfAfterPass (ld : Discrepancy) (ldf : Bool) : Bool := if ld = .none then true else ldf

/-- `LDF` after SKIPFAM: set when the new `LD` is 0, else left (R124). -/
def ldfAfterSkip (newLd : Fin 65) (ldf : Bool) : Bool := if newLd = 0 then true else ldf

end Sys2Proof.Machine
end

