-- ==== Sys2Proof/Machine/Ops.lean ====
section
/-! DEFINITION. The shared operations: the buffer (spec 20 R40, R41), the link calls (20 R50 to R52; 60 R182), the
sequencing of link calls (20 R58; 60 R183), the end of a command with its status (00 R6; 60 R175), and hardware
reset (70 R200, R201). -/

namespace Sys2Proof.Machine

/-! ## BUF as a list of written bytes -/

/-- The byte written at index k, if one was. -/
def Memory.written : Memory → Nat → Option Byte
  | [], _ => none
  | (a, v) :: m, k => if k = a then some v else Memory.written m k

/-- The buffer with byte k written; the indices stay strictly rising. -/
def Memory.store : Memory → Nat → Byte → Memory
  | [], k, v => [(k, v)]
  | (a, u) :: m, k, v =>
    if k < a then (k, v) :: (a, u) :: m
    else if k = a then (k, v) :: m
    else (a, u) :: Memory.store m k v

/-- `MemRead(BUF, k)` over the written bytes `m`: a byte never written since the last hardware reset has an
arbitrary value, the draw of that reset (R38; log 3). -/
def Memory.read (resets : Nat) (m : Memory) (k : Nat) : Byte :=
  (m.written k).getD (Config.freeBufByte resets k)

/-- Byte k of `BUF`, for k below MAX_BLOCK_LEN (R41). -/
def State.bufByte (s : State) (k : Nat) : Byte := Memory.read s.resets s.buf k

/-! ## One link call -/

/-- The far side's answer to the next call: the first of the answers written down, else the free answer of this
call's number (R52; log 2). -/
def Link.nextAnswer (l : Link) : Answer :=
  match l.answers with
  | a :: _ => a
  | [] => Config.freeAnswer l.calls

/-- The link after a call: the answer is used up and the event stands at the end of the trace. -/
def Link.log (c : LinkCall) (r : Reply) (l : Link) : Link :=
  { answers := l.answers.tail, calls := l.calls + 1, trace := l.trace ++ [⟨c, r⟩] }

/-- The fault an answer carries for this call: none with LINK_FAULT_CHANNEL = 0; with 1, any call may answer
`AdapterFault` and only `reset()` may answer `ShortCircuit` (R182; log 11). -/
def faultOf (p : Params) (c : LinkCall) (a : Answer) : Option LinkFault :=
  if p.linkFaultChannel then
    match a.fault with
    | none => none
    | some .adapterFault => some .adapterFault
    | some .shortCircuit => if c = .reset then some .shortCircuit else none
  else none

/-- A piece of a command that makes link calls: its outcome is a value, or the fault that stopped it (R183). -/
abbrev LinkOp (α : Type) := Link → Except LinkFault α × Link

/-- One link call: `value` is what the sequencer gets of the answer, `reply` what the trace shows of it. -/
def ask {α : Type} (p : Params) (c : LinkCall) (value : Answer → α) (reply : α → Reply) : LinkOp α :=
  fun l =>
    match faultOf p c l.nextAnswer with
    | some k => (.error k, l.log c (.fault k))
    | none => (.ok (value l.nextAnswer), l.log c (reply (value l.nextAnswer)))

/-- `Link.reset()` (R50): presence. -/
def linkReset (p : Params) : LinkOp Bool := ask p .reset (·.presence) .presence

/-- `Link.readBit()` (R50). -/
def readBit (p : Params) : LinkOp Bool := ask p .readBit (·.bit) .bit

/-- `Link.writeBit(b)` (R50): no answer. -/
def writeBit (p : Params) (b : Bool) : LinkOp Unit := ask p (.writeBit b) (fun _ => ()) (fun _ => .nothing)

/-- `Link.touchByte(v)` (R50): the byte seen on the bus. -/
def touchByte (p : Params) (v : Byte) : LinkOp Byte := ask p (.touchByte v) (·.byte) .byte

/-- `Link.setSpeed(s)` (R50): the applied speed. -/
def setSpeed (p : Params) (s : Speed) : LinkOp Speed := ask p (.setSpeed s) (·.speed) .speed

/-! ## Sequencing (R58, R183) -/

/-- No link call. -/
def LinkOp.done {α : Type} (x : α) : LinkOp α := fun l => (.ok x, l)

/-- First `m`, then what its value decides. A fault of `m` ends the sequence: no further link call (R183). -/
def LinkOp.andThen {α β : Type} (m : LinkOp α) (f : α → LinkOp β) : LinkOp β :=
  fun l =>
    match m l with
    | (.ok x, l') => f x l'
    | (.error k, l') => (.error k, l')

/-! ## Registers -/

/-- A command starts with an empty link trace (R6). -/
def State.start (s : State) : State := { s with link := { s.link with trace := [] } }

/-- The link port as a command left it. -/
def State.setLink (l : Link) (s : State) : State := { s with link := l }

/-- `LD`, `LFD` and `LDF`. -/
def State.setSearch (ld : Discrepancy) (lfd : Fin 65) (ldf : Bool) (s : State) : State :=
  { s with ld := ld, lfd := lfd, ldf := ldf }

/-- `ADDR`. -/
def State.setAddr (x : Address) (s : State) : State := { s with addr := x }

/-- `CRC8`. -/
def State.setCrc8 (c : Byte) (s : State) : State := { s with crc8 := c }

/-- `CRC16`. -/
def State.setCrc16 (c : Half) (s : State) : State := { s with crc16 := c }

/-- `BUF`. -/
def State.setBuf (m : Memory) (s : State) : State := { s with buf := m }

/-- `SS_EMPTY` (R110). -/
def State.ssEmpty (s : State) : State := (s.setSearch .resetSentinel 0 false).setAddr 0

/-! ## The end of a command (R6, R175) -/

/-- The status and the result a command leaves. -/
def State.finish (st : Status) (res : Bool) (s : State) : State := { s with status := st, res := res }

/-- `done Ok` (R6). -/
def State.done (s : State) : State := s.finish .ok true

/-- `fail <Status>`: the core's whole exception mechanism (R6, R175: `STATUS <- <Status>`, `RES <- 0`, the core
goes idle, "No control is transferred, nothing is saved, no mode changes"). There is no return from it (R177). -/
def State.fail (st : Status) (s : State) : State := s.finish st false

/-- `done`/`fail` with the status a command found: `RES` follows the status (R22). -/
def State.endWith (st : Status) (s : State) : State := s.finish st (resOf st)

/-- The end of a command that changes nothing but `STATUS`, `RES` and the link: by the status it found, or by the
link fault that stopped it (R183: "every other command leaves the state unchanged"). -/
def State.conclude (o : Except LinkFault Status × Link) (s : State) : State :=
  match o with
  | (.ok st, l) => (s.setLink l).endWith st
  | (.error k, l) => (s.setLink l).fail (Status.ofFault k)

/-- An illegal word (R77): no link call, and nothing changes but `STATUS` and `RES`. -/
def State.illegal (s : State) : State := s.start.fail .illegalCommand

/-! ## Hardware reset (R200, R201, R203) -/

/-- Every register at its reset value, a new draw of `BUF` (R38), no link call and the environment as it was
(R39, R203). The parameters and the host's waiting accesses stay. -/
def State.hardReset (s : State) : State :=
  { State.reset with
    params := s.params
    link := { s.link with trace := [] }
    host := s.host
    resets := s.resets + 1 }

/-- Hardware reset during a command (R204): "the command's remaining link calls do not happen, the registers take
the values of rule R201". `s` is the state before the command and `t` the one it would have left; of its link
calls only the first `n` were made (log 9). -/
def State.cutAfter (n : Nat) (s t : State) : State :=
  { s.hardReset with
    link :=
      { answers := s.link.answers.drop (t.link.trace.take n).length
        calls := s.link.calls + (t.link.trace.take n).length
        trace := t.link.trace.take n } }

end Sys2Proof.Machine
end

