-- ==== Sys2Proof/Machine/Enumerator.lean ====
section
/-! DEFINITION. The Bus Enumerator: FIRST, NEXT, FAMSETUP, SKIPFAM (spec 41_enumerator.md). -/

namespace Sys2Proof.Machine

/-- What a pass holds while it runs (R33, R115): the candidate, the record of this pass in `LD`, and `LFD`. -/
structure Pass where
  cand : Address
  ld   : Discrepancy
  lfd  : Fin 65
deriving DecidableEq, Repr

/-- How steps 2 to 5 of NEXT end, link faults apart (R112). -/
inductive SearchEnd where
  | noPresence
  | corrupted
  | found (p : Pass)
deriving DecidableEq, Repr

/-! ## Step 4: one bit position -/

/-- Step 4d (R119): the bit to drive at position `i`, for the pair read there, which is not (1,1). Where the
devices agree it is their bit, A; at a discrepancy the path below `HI`, 1 at `HI`, and 0 beyond. -/
def direction (hi i : Nat) (cand : Address) (a b : Bool) : Bool :=
  if a = b then
    if i + 1 < hi then abit cand i
    else decide (i + 1 = hi)
  else a

/-- Steps 4d and 4f (R119, R120): a discrepancy resolved to 0 is recorded in `LD`, and in `LFD` when `i < 8`; the
bit driven is stored in the candidate. -/
def Pass.advance (i : Nat) (a b d : Bool) (ps : Pass) : Pass :=
  { cand := setAbit ps.cand i d
    ld := if a = b ∧ d = false then .num (Fin.ofNat 65 (i + 1)) else ps.ld
    lfd := if a = b ∧ d = false ∧ i < 8 then Fin.ofNat 65 (i + 1) else ps.lfd }

/-- Step 4 (R112, R117 to R120) from position `i` on, `n` positions; `none` is the stop at (1,1), at once and
before any `writeBit` of that position (R118). -/
def passFrom (p : Params) (hi : Nat) : (n i : Nat) → Pass → LinkOp (Option Pass)
  | 0, _, ps => LinkOp.done (some ps)
  | n + 1, i, ps =>
    (readBit p).andThen fun a =>
    (readBit p).andThen fun b =>
    if a && b then LinkOp.done none
    else
      (writeBit p (direction hi i ps.cand a b)).andThen fun _ =>
      passFrom p hi n (i + 1) (ps.advance i a b (direction hi i ps.cand a b))

/-! ## Steps 2 to 5 -/

/-- Step 2 (R114): the bus reset when `r`, with the extra leading reset, whose answer is discarded, for the
alarming-clock family. Without `r` it makes no link call and cannot fail. -/
def searchReset (p : Params) (r : Bool) (addr : Address) : LinkOp Bool :=
  if r then
    if isAlarmClockFamily p (addrByte addr 0) then (linkReset p).andThen fun _ => linkReset p
    else linkReset p
  else LinkOp.done true

/-- Step 5 (R121): the family byte is not zero and the CRC-8 of bytes 0 to 6 is byte 7. The `CRC8` register plays
no part. -/
def candidateGood (x : Address) : Bool :=
  addrByte x 0 != 0 && crc8 ((addrBytes x).take 7) == addrByte x 7

/-- Steps 3 to 5 (R112, R115 to R121), after the reset. The pass starts with the record `NONE` (R17). -/
def searchPass (p : Params) (a : Bool) (addr : Address) (ld : Discrepancy) (lfd : Fin 65) : LinkOp SearchEnd :=
  (touchByte p (searchByte a)).andThen fun _ =>
  (passFrom p ld.hi 64 0 ⟨candidatePath ld addr, .none, lfd⟩).andThen fun o =>
  LinkOp.done (match o with
    | none => .corrupted
    | some ps => if candidateGood ps.cand then .found ps else .corrupted)

/-- Steps 2 to 5 (R112). -/
def search (p : Params) (r a : Bool) (addr : Address) (ld : Discrepancy) (lfd : Fin 65) : LinkOp SearchEnd :=
  (searchReset p r addr).andThen fun presence =>
  if presence then searchPass p a addr ld lfd else LinkOp.done .noPresence

/-- What a search leaves (R112 steps 2, 4c, 5, 6; R114, R118, R121, R122). A link fault empties the search state
first (R183: "a pass that cannot finish is a corrupted pass"). -/
def State.concludeSearch (o : Except LinkFault SearchEnd × Link) (s : State) : State :=
  match o with
  | (.ok .noPresence, l) => ((s.setLink l).setSearch (.num 0) 0 s.ldf).fail .noPresence
  | (.ok .corrupted, l) => (s.setLink l).ssEmpty.fail .searchCorrupted
  | (.ok (.found ps), l) => (((s.setLink l).setAddr ps.cand).setSearch ps.ld ps.lfd (ldfAfterPass ps.ld s.ldf)).done
  | (.error k, l) => (s.setLink l).ssEmpty.fail (Status.ofFault k)

/-- The body of NEXT (R112), from step 1 (R113). -/
def State.nextBody (r a : Bool) (s : State) : State :=
  if s.ldf then s.ssEmpty.fail .endOfSearch
  else s.concludeSearch (search s.params r a s.addr s.ld s.lfd s.link)

/-! ## The commands -/

/-- `FIRST r, a` (R111): `LD`, `LFD` and `LDF` to 0, `ADDR` as it is, then the body of NEXT. -/
def execFirst (r a : Bool) (s : State) : Host.Outcome State Fault Refusal :=
  .next ((s.start.setSearch (.num 0) 0 false).nextBody r a)

/-- `NEXT r, a` (R112). -/
def execNext (r a : Bool) (s : State) : Host.Outcome State Fault Refusal :=
  .next (s.start.nextBody r a)

/-- `FAMSETUP code` (R123). -/
def execFamSetup (code : Byte) (s : State) : Host.Outcome State Fault Refusal :=
  .next ((s.start.setAddr (familySeed code)).setSearch (.num 64) 0 false).done

/-- `SKIPFAM` (R124). -/
def execSkipFam (s : State) : Host.Outcome State Fault Refusal :=
  .next (s.start.setSearch (.num s.lfd) 0 (ldfAfterSkip s.lfd s.ldf)).done

end Sys2Proof.Machine
end

