-- ==== Sys2Proof/Machine/Selector.lean ====
section
/-! DEFINITION. The Device Selector / Transaction controller: ADDRWR, ACCESS, VERIFY, ODACCESS, EXCHANGE
(spec 42_selector.md). -/

namespace Sys2Proof.Machine

/-- Sends the bytes in order, all of them, and tells whether every echo matched (R141, R146; D13). -/
def sendBytes (p : Params) : List Byte → LinkOp Bool
  | [] => LinkOp.done true
  | v :: vs =>
    (touchByte p v).andThen fun e =>
    (sendBytes p vs).andThen fun rest =>
    LinkOp.done (e == v && rest)

/-- The status of a transfer with echo verification. -/
def echoStatus (echo : Bool) : Status := if echo then .ok else .echoMismatch

/-! ## ADDRWR -/

/-- `ADDRWR idx, byte` (R140). -/
def execAddrWr (idx : Fin 8) (b : Byte) (s : State) : Host.Outcome State Fault Refusal :=
  .next (s.start.setAddr (setAddrByte s.addr idx.val b)).done

/-! ## ACCESS -/

/-- The link calls of ACCESS (R141). -/
def accessOps (p : Params) (addr : Address) : LinkOp Status :=
  (linkReset p).andThen fun presence =>
  if presence then
    (sendBytes p (matchByte :: addrBytes addr)).andThen fun echo => LinkOp.done (echoStatus echo)
  else LinkOp.done .noPresence

/-- `ACCESS` (R141). -/
def execAccess (s : State) : Host.Outcome State Fault Refusal :=
  .next (s.start.conclude (accessOps s.params s.addr s.start.link))

/-! ## VERIFY -/

/-- The loop of VERIFY (R144) from position `i` on, `n` positions: a pair matches when it is (t, not t) for the
address bit t, and t is driven. -/
def verifyFrom (p : Params) (addr : Address) : (n i cnt : Nat) → LinkOp Nat
  | 0, _, cnt => LinkOp.done cnt
  | n + 1, i, cnt =>
    (readBit p).andThen fun a =>
    (readBit p).andThen fun b =>
    (writeBit p (abit addr i)).andThen fun _ =>
    verifyFrom p addr n (i + 1) (if a = abit addr i ∧ b = !abit addr i then cnt + 1 else cnt)

/-- The link calls of VERIFY (R144): `none` when its bus reset saw no presence, else the count. -/
def verifyOps (p : Params) (a : Bool) (addr : Address) : LinkOp (Option Nat) :=
  (if p.verifyDoesReset then linkReset p else LinkOp.done true).andThen fun presence =>
  if presence then
    (touchByte p (searchByte a)).andThen fun _ =>
    (verifyFrom p addr 64 0 0).andThen fun cnt => LinkOp.done (some cnt)
  else LinkOp.done none

/-- The end of VERIFY: `RES` is the verdict and does not follow `STATUS` (R144). -/
def State.concludeVerify (o : Except LinkFault (Option Nat) × Link) (s : State) : State :=
  match o with
  | (.ok none, l) => (s.setLink l).fail .noPresence
  | (.ok (some cnt), l) => (s.setLink l).finish .ok (verdict cnt)
  | (.error k, l) => (s.setLink l).fail (Status.ofFault k)

/-- `VERIFY a` (R144). -/
def execVerify (a : Bool) (s : State) : Host.Outcome State Fault Refusal :=
  .next (s.start.concludeVerify (verifyOps s.params a s.addr s.start.link))

/-! ## ODACCESS -/

/-- The link calls of ODACCESS (R146) up to the closing `setSpeed(Normal)` of its failure paths. -/
def odAccessOps (p : Params) (addr : Address) : LinkOp Status :=
  (setSpeed p .normal).andThen fun _ =>
  (linkReset p).andThen fun presence =>
  if presence then
    (touchByte p overdriveMatchByte).andThen fun e =>
    if e = overdriveMatchByte then
      (setSpeed p .overdrive).andThen fun _ =>
      (sendBytes p (addrBytes addr)).andThen fun echo => LinkOp.done (echoStatus echo)
    else LinkOp.done .echoMismatch
  else LinkOp.done .noPresence

/-- "on any failure, force the link back to normal speed before returning the error" (R146), after a link fault
too, and a fault of that call itself is ignored (R183; log 10). -/
def closeSpeed (p : Params) (o : Except LinkFault Status × Link) : Except LinkFault Status × Link :=
  match o with
  | (.ok .ok, l) => (.ok .ok, l)
  | (r, l) => (r, (setSpeed p .normal l).2)

/-- `ODACCESS` (R146). -/
def execOdAccess (s : State) : Host.Outcome State Fault Refusal :=
  .next (s.start.conclude (closeSpeed s.params (odAccessOps s.params s.addr s.start.link)))

/-! ## EXCHANGE -/

/-- The loop of EXCHANGE (R148) from index `k` on, `n` bytes: each byte is sent and its slot overwritten with the
byte observed. A fault leaves the slots before it overwritten (R183). -/
def exchangeFrom (p : Params) (resets : Nat) : (n k : Nat) → Memory → Link → Memory × (Except LinkFault Unit × Link)
  | 0, _, m, l => (m, (.ok (), l))
  | n + 1, k, m, l =>
    match touchByte p (m.read resets k) l with
    | (.ok e, l') => exchangeFrom p resets n (k + 1) (m.store k e) l'
    | (.error f, l') => (m, (.error f, l'))

/-- The end of EXCHANGE after its loop. -/
def State.concludeExchange (o : Memory × (Except LinkFault Unit × Link)) (s : State) : State :=
  match o with
  | (m, (.ok (), l)) => ((s.setLink l).setBuf m).done
  | (m, (.error k, l)) => ((s.setLink l).setBuf m).fail (Status.ofFault k)

/-- EXCHANGE from its loop on. -/
def State.exchangeBody (len : Nat) (s : State) : State :=
  s.concludeExchange (exchangeFrom s.params s.resets len 0 s.buf s.link)

/-- `EXCHANGE r, len` (R148): the length test comes before the reset (R174). -/
def execExchange (r : Bool) (len : Nat) (s : State) : Host.Outcome State Fault Refusal :=
  .next (
    if s.params.maxBlockLen < len then s.start.fail .lengthExceeded
    else if r then
      match linkReset s.params s.start.link with
      | (.ok true, l) => (s.start.setLink l).exchangeBody len
      | (.ok false, l) => (s.start.setLink l).fail .noPresence
      | (.error k, l) => (s.start.setLink l).fail (Status.ofFault k)
    else s.start.exchangeBody len)

end Sys2Proof.Machine
end

