-- ==== Sys2Proof/Machine/Dispatch.lean ====
section
/-! DEFINITION. The dispatch: one arm per command (spec 30 R75), each one call of its meaning. -/

namespace Sys2Proof.Machine

def exec (i : Instr) (s : State) : Host.Outcome State Fault Refusal :=
  match i with
  | .crc8Reset seed => Sys2Proof.Machine.execCrc8Reset seed s
  | .crc8Update byte => Sys2Proof.Machine.execCrc8Update byte s
  | .crc8Check => Sys2Proof.Machine.execCrc8Check s
  | .crc16Reset seed => Sys2Proof.Machine.execCrc16Reset seed s
  | .crc16Update byte => Sys2Proof.Machine.execCrc16Update byte s
  | .crc16Check => Sys2Proof.Machine.execCrc16Check s
  | .first r a => Sys2Proof.Machine.execFirst r a s
  | .next r a => Sys2Proof.Machine.execNext r a s
  | .famSetup code => Sys2Proof.Machine.execFamSetup code s
  | .skipFam => Sys2Proof.Machine.execSkipFam s
  | .access => Sys2Proof.Machine.execAccess s
  | .verify a => Sys2Proof.Machine.execVerify a s
  | .odAccess => Sys2Proof.Machine.execOdAccess s
  | .exchange r len => Sys2Proof.Machine.execExchange r len s
  | .addrWr idx byte => Sys2Proof.Machine.execAddrWr idx byte s

end Sys2Proof.Machine
end

