-- ==== Sys2Proof/Machine/HostPort.lean ====
section
/-! DEFINITION. The host's three ports and hardware reset (spec 10 R24; 20 R41, R43, R57; 70 R200, R204): what one
access does while the core is idle. -/

namespace Sys2Proof.Machine

/-! ## The register port (R24) -/

/-- A flag as one bit of a byte. -/
def flagBit (b : Bool) (n : Nat) : Byte := if b then 1 <<< n else 0

/-- What the register port answers for a register number (R24). -/
def State.regRead (s : State) (number : Byte) : Byte :=
  match number.toNat with
  | 0x00 => s.status.code.setWidth 8
  | 0x01 => flagBit s.ldf 0 ||| flagBit s.res 1
  | 0x02 => s.ld.code
  | 0x03 => BitVec.ofNat 8 s.lfd.val
  | 0x04 => s.crc8
  | 0x06 => s.crc16.extractLsb' 0 8
  | 0x07 => s.crc16.extractLsb' 8 8
  | 0x08 => addrByte s.addr 0
  | 0x09 => addrByte s.addr 1
  | 0x0A => addrByte s.addr 2
  | 0x0B => addrByte s.addr 3
  | 0x0C => addrByte s.addr 4
  | 0x0D => addrByte s.addr 5
  | 0x0E => addrByte s.addr 6
  | 0x0F => addrByte s.addr 7
  | _ => 0x00

/-- A read of the register port: no effect but the answer (R24). -/
def hostReadReg (number : Byte) (s : State) : Host.Outcome State Fault Refusal :=
  .next { s with readData := some (s.regRead number) }

/-! ## The buffer port (R41) -/

/-- A read of the buffer port: no effect but the answer; out of range it has no meaning (log 8). -/
def hostReadBuf (k : Nat) (s : State) : Host.Outcome State Fault Refusal :=
  if k < s.params.maxBlockLen then .next { s with readData := some (s.bufByte k) }
  else .fault .bufIndexOutOfRange

/-- A write of the buffer port; out of range it has no meaning (log 8). -/
def hostWriteBuf (k : Nat) (v : Byte) (s : State) : Host.Outcome State Fault Refusal :=
  if k < s.params.maxBlockLen then .next (s.setBuf (s.buf.store k v))
  else .fault .bufIndexOutOfRange

/-! ## The command port (R57, R72, R77) -/

/-- A word at the command port: the command it decodes to, or an illegal word (R77, R78). -/
def runWord (w : Word) (s : State) : Host.Outcome State Fault Refusal :=
  match decode w with
  | .ok i => exec i s
  | .error _ => .next s.illegal

/-- A word at the command port, with a hardware reset when the command has made `n` link calls (R204; log 9). -/
def runWordCut (w : Word) (n : Nat) (s : State) : Host.Outcome State Fault Refusal :=
  match runWord w s with
  | .next t => .next (s.cutAfter n t)
  | .fault f => .fault f
  | .refused r => .refused r

/-! ## One access -/

/-- One access of the host, the core idle (R57). -/
def serve (x : HostAccess) (s : State) : Host.Outcome State Fault Refusal :=
  match x with
  | .command w => runWord w s
  | .readReg number => hostReadReg number s
  | .readBuf k => hostReadBuf k s
  | .writeBuf k v => hostWriteBuf k v s
  | .hardReset => .next s.hardReset
  | .commandCut w n => runWordCut w n s

end Sys2Proof.Machine
end

