-- ==== Sys2Proof/Machine/Step.lean ====
section
/-! DEFINITION. One step: the core is idle and serves the host's next access (spec 20 R57; 70 R202). -/

namespace Sys2Proof.Machine

/-- The core serves the next access of the host. With none waiting it stays idle: "the core is idle and waits for
the host's first command" (R202; log 1). -/
def step (s : State) : Host.Outcome State Fault Refusal :=
  match s.host with
  | [] => .next s
  | x :: rest => serve x { s with host := rest }

/-- `s` with the command word whose bits are `w` as the host's next access: the very next step takes it (R57). -/
def State.withFetchWord (s : State) (nbits w : Nat) : State :=
  { s with host := .command (tableWord nbits w) :: s.host }

end Sys2Proof.Machine
end

