-- ==== Sys2Proof/Machine/Bus.lean ====
section
/-! DEFINITION. The far side of the link port, as a HYPOTHESIS for statements and no part of the machine: devices that
behave as spec 20 R54, R55 and R56 say (the reference bus of 95 section 0; log 14). Nothing in `exec` or `step` uses
this file: the core assumes nothing of an answer (20 R52). -/

namespace Sys2Proof.Machine

/-- What a device is doing (95 section 0). `second` tells whether the first read of position `i` is done. -/
inductive DeviceMode where
  | idle
  | listening
  | searching (i : Nat) (second : Bool)
  | matching (k : Nat)
  | selected
deriving DecidableEq, Repr

/-- A device on the bus: its address, whether an alarm search finds it, the bytes it drives once selected. -/
structure Device where
  addr     : Address
  alarming : Bool
  script   : List Byte
  mode     : DeviceMode
deriving DecidableEq, Repr

/-- The devices on one bus. -/
abbrev Bus := List Device

/-- R54: "A reset makes every present device active again". -/
def Device.afterReset (d : Device) : Device := { d with mode := .listening }

/-- What a device takes from a byte on the bus (R55, R56). DESIGN CHOICE (log 14): a device that is searching goes
idle. -/
def Device.afterTouch (b : Byte) (d : Device) : Device :=
  match d.mode with
  | .idle => d
  | .searching _ _ => { d with mode := .idle }
  | .listening =>
    if b = 0xF0 then { d with mode := .searching 0 false }
    else if b = 0xEC then { d with mode := if d.alarming then .searching 0 false else .idle }
    else if b = 0x55 ∨ b = 0x69 then { d with mode := .matching 0 }
    else { d with mode := .idle }
  | .matching k =>
    if b = addrByte d.addr k then { d with mode := if k = 7 then .selected else .matching (k + 1) }
    else { d with mode := .idle }
  | .selected => { d with script := d.script.tail }

/-- The second read of a position follows the first (R55). DESIGN CHOICE (log 14): a third read answers as the
second. -/
def Device.afterRead (d : Device) : Device :=
  match d.mode with
  | .searching i _ => { d with mode := .searching i true }
  | _ => d

/-- R55: after `writeBit(d)` "every device whose true bit at `i` differs from the driven bit drops out of the rest
of this pass". -/
def Device.afterWrite (b : Bool) (d : Device) : Device :=
  match d.mode with
  | .searching i _ =>
    if abit d.addr i = b ∧ i < 63 then { d with mode := .searching (i + 1) false } else { d with mode := .idle }
  | _ => d

/-- What a device lets the line read in a read slot: its bit, then its complement (R55), and 1 when it takes no
part. -/
def Device.lineBit (d : Device) : Bool :=
  match d.mode with
  | .searching i false => abit d.addr i
  | .searching i true => !abit d.addr i
  | _ => true

/-- What a device drives during a byte: a selected device its next byte, the others nothing (R56). -/
def Device.lineByte (d : Device) : Byte :=
  match d.mode with
  | .selected => d.script.headD 0xFF
  | _ => 0xFF

/-- The answer of the bus to a call (R54, R55, R56): presence when a device is there, the wired-AND of the reads,
the byte sent ANDed with what is driven, and the speed asked for (95 section 0). DESIGN CHOICE (log 14): `setLevel`
answers the level asked for and a capability query answers false; 20 R50 and 95 section 0 leave these answers open. -/
def Bus.replyTo (bus : Bus) (c : LinkCall) : Reply :=
  match c with
  | .reset => .presence (!bus.isEmpty)
  | .readBit => .bit (bus.all Device.lineBit)
  | .writeBit _ => .nothing
  | .touchByte b => .byte (bus.foldl (fun v d => v &&& d.lineByte) b)
  | .setSpeed s => .speed s
  | .setLevel l => .level l
  | .hasPowerDelivery => .capability false
  | .hasOverdrive => .capability false
  | .hasProgramPulse => .capability false

/-- The bus after a call. DESIGN CHOICE (log 14): `setSpeed`, `setLevel` and the capability queries leave every device
as it is. -/
def Bus.after (bus : Bus) (c : LinkCall) : Bus :=
  match c with
  | .reset => bus.map Device.afterReset
  | .readBit => bus.map Device.afterRead
  | .writeBit b => bus.map (Device.afterWrite b)
  | .touchByte b => bus.map (Device.afterTouch b)
  | .setSpeed _ => bus
  | .setLevel _ => bus
  | .hasPowerDelivery => bus
  | .hasOverdrive => bus
  | .hasProgramPulse => bus

/-- Every answer of the trace is the one this bus gives. -/
def Bus.answers : Bus → List LinkEvent → Bool
  | _, [] => true
  | bus, e :: es => e.reply == bus.replyTo e.call && Bus.answers (bus.after e.call) es

/-- The addresses on the bus. -/
def Bus.addresses (bus : Bus) : List Address := bus.map Device.addr

end Sys2Proof.Machine
end

