-- ==== Sys2Proof/Safety.lean ====
section
/-! DEFINITION. What the claims are about: the invariant of every state the machine can be in, the order of
enumeration (spec 41 R125), and a bus whose devices have valid addresses (41 R126). -/

namespace Sys2Proof.Machine

/-! ## What the far side answers -/

/-- The answer to the `j`-th link call from here on, counted from 0 (R52): of the answers written down, else the
free answer of that call's number. -/
def Link.answerAt (l : Link) (j : Nat) : Answer :=
  match l.answers[j]? with
  | some a => a
  | none => Config.freeAnswer (l.calls + j)

/-- The answer to the `j`-th link call of the command given in this state. -/
def State.answerAt (s : State) (j : Nat) : Answer := s.link.answerAt j

/-- None of the next `n` link calls answers a fault (R182): there is no fault channel, or none of these answers
carries one. -/
def Link.Quiet (p : Params) (l : Link) (n : Nat) : Prop :=
  p.linkFaultChannel = false ∨ ∀ j < n, (l.answerAt j).fault = none

/-- None of the first `n` link calls of the command given in this state answers a fault. -/
def State.Quiet (s : State) (n : Nat) : Prop := s.link.Quiet s.params n

/-- Whether an event is a fault answer (R182). -/
def LinkEvent.isFault (e : LinkEvent) : Bool :=
  match e.reply with
  | .presence _ => false
  | .bit _ => false
  | .nothing => false
  | .byte _ => false
  | .speed _ => false
  | .level _ => false
  | .capability _ => false
  | .fault _ => true

/-- The link after these calls more: one answer used up and one event in the trace for each. -/
def Link.advance (l : Link) (es : List LinkEvent) : Link :=
  { answers := l.answers.drop es.length, calls := l.calls + es.length, trace := l.trace ++ es }

/-- The link after a command that made these calls: one answer used up for each, and these the whole trace (R6). -/
def Link.command (l : Link) (es : List LinkEvent) : Link :=
  { answers := l.answers.drop es.length, calls := l.calls + es.length, trace := es }

/-- What the trace shows for a call and the answer it got (R50): a value of the call's own type, or a fault. -/
def replyOf (p : Params) (c : LinkCall) (a : Answer) : Reply :=
  match faultOf p c a with
  | some k => .fault k
  | none =>
    match c with
    | .reset => .presence a.presence
    | .readBit => .bit a.bit
    | .writeBit _ => .nothing
    | .touchByte _ => .byte a.byte
    | .setSpeed _ => .speed a.speed
    | .setLevel _ => .level a.level
    | .hasPowerDelivery => .capability a.capability
    | .hasOverdrive => .capability a.capability
    | .hasProgramPulse => .capability a.capability

/-! ## The calls of a search -/

/-- How many bus resets step 2 of a search makes (R114, R225): one with `r`, two when the address in `ADDR` is of
the alarming-clock family. -/
def State.resetCalls (s : State) (r : Bool) : Nat :=
  if r then if isAlarmClockFamily s.params (addrByte s.addr 0) then 2 else 1 else 0

/-- The events of step 2. -/
def State.resetEvents (s : State) (r : Bool) : List LinkEvent :=
  (List.range (s.resetCalls r)).map fun j => ⟨.reset, .presence (s.answerAt j).presence⟩

/-- Bit A of position i of a search (R117). -/
def State.readA (s : State) (r : Bool) (i : Nat) : Bool := (s.answerAt (s.resetCalls r + 1 + 3 * i)).bit

/-- Bit B of position i of a search (R117). -/
def State.readB (s : State) (r : Bool) (i : Nat) : Bool := (s.answerAt (s.resetCalls r + 1 + (3 * i + 1))).bit

/-- The events of step 4 for its first `n` positions, the bits driven being those of `x` (R116, R117, R120). -/
def State.passEventsOf (s : State) (r a : Bool) (x : Address) (n : Nat) : List LinkEvent :=
  ⟨.touchByte (if a then 0xEC else 0xF0), .byte (s.answerAt (s.resetCalls r)).byte⟩ ::
    (List.range n).flatMap fun i =>
      [⟨.readBit, .bit (s.readA r i)⟩, ⟨.readBit, .bit (s.readB r i)⟩, ⟨.writeBit (abit x i), .nothing⟩]

/-! ## The invariant -/

/-- What every step keeps, and what holds at reset. -/
structure State.Inv (s : State) : Prop where
  /-- MAX_BLOCK_LEN is 1 to 65535 (R5). -/
  params_wf : s.params.wf
  /-- `BUF` is in its canonical form. -/
  buf_wf : s.buf.wf
  /-- `BUF` has the indices 0 to MAX_BLOCK_LEN - 1 and no others (R40). -/
  buf_in_range : ∀ c ∈ s.buf, c.1 < s.params.maxBlockLen
  /-- R18: "at every command boundary, `LD = NONE` implies `LDF = 1`". -/
  none_is_last : s.ld = .none → s.ldf = true
  /-- `RESET_SENTINEL` stands in the empty SearchState only (R16, R110), until a command writes `LD`. -/
  sentinel_is_empty : s.ld = .resetSentinel → s.ldf = false ∧ s.lfd = 0
  /-- R19: a pass writes only 1 to 8 into `LFD`, every other writer writes 0. -/
  lfd_in_family : s.lfd.val ≤ 8
  /-- `RES` is 1 only beside `Ok` (R22). -/
  res_means_ok : s.res = true → s.status = .ok
  /-- With LINK_FAULT_CHANNEL = 0 the two fault codes are never written (R182). -/
  no_link_fault : s.params.linkFaultChannel = false → s.status ≠ .shortCircuit ∧ s.status ≠ .adapterFault

/-! ## The order of enumeration (R125) -/

/-- The lexicographic order of the bit strings `abit(X,0), abit(X,1), ..., abit(X,63)` with 0 before 1. -/
def searchLt (x y : Address) : Prop :=
  ∃ i < 64, (∀ j < i, abit x j = abit y j) ∧ abit x i = false ∧ abit y i = true

/-- `x` is the first of the addresses `xs` in that order. -/
def IsLeast (xs : List Address) (x : Address) : Prop :=
  x ∈ xs ∧ ∀ y ∈ xs, y = x ∨ searchLt x y

/-- `y` is the next of the addresses `xs` after `x` in that order. -/
def IsSuccessor (xs : List Address) (x y : Address) : Prop :=
  y ∈ xs ∧ searchLt x y ∧ ∀ z ∈ xs, searchLt x z → z = y ∨ searchLt y z

/-- A 1 branch left untried at position i on the path of `x` (R126): some address agrees with `x` below i, and has
1 where `x` has 0. -/
def UntriedBranch (xs : List Address) (x : Address) (i : Nat) : Prop :=
  abit x i = false ∧ ∃ y ∈ xs, (∀ j < i, abit y j = abit x j) ∧ abit y i = true

/-- The enumeration of `xs` stands at `x` with the decision point `n` (R126): "the record left in `LD` is the deepest
position on the new path where a 0 was taken at a discrepancy, which is the deepest untried 1 branch". -/
def StandsAt (xs : List Address) (x : Address) (n : Nat) : Prop :=
  x ∈ xs ∧ 1 ≤ n ∧ n ≤ 64 ∧ UntriedBranch xs x (n - 1) ∧ ∀ i, n ≤ i → i < 64 → ¬ UntriedBranch xs x i

/-- The devices' addresses are such as R126 asks: nonzero family byte and good CRC-8. -/
def Bus.valid (bus : Bus) : Prop := ∀ x ∈ bus.addresses, candidateGood x = true

end Sys2Proof.Machine
end

