-- ==== Sys2Proof/Certificates/Slice0/Obligations.lean ====
section
/-! DEFINITION. The statements about the model, one per numbered rule of spec/ or drawn from several. In every one of
them a command's link calls are answered by whatever `link.answers` and the free values say (20 R52), and the
parameters of the instance are arbitrary (00 R5). `s.link.command es` is the link after a command whose whole link
trace is `es`. -/

open Sys2Proof Sys2Proof.Machine

/-! ## Encoding (30_encoding.md) -/

/-- R76: the table of encoding examples, each `opc << 24 | r << 17 | a << 16 | imm`, read by the decoder and written
by the encoder. -/
def Obligations.SpecEncodingExamplesDecode : Prop :=
  ∀ x ∈ ([ (.crc8Reset 0x00, 0x10, 0, 0, 0x0000, 0x10000000), (.crc8Update 0x5E, 0x11, 0, 0, 0x005E, 0x1100005E),
           (.crc8Check, 0x12, 0, 0, 0x0000, 0x12000000), (.crc16Reset 0x1234, 0x18, 0, 0, 0x1234, 0x18001234),
           (.crc16Update 0xAA, 0x19, 0, 0, 0x00AA, 0x190000AA), (.crc16Check, 0x1A, 0, 0, 0x0000, 0x1A000000),
           (.first true false, 0x20, 1, 0, 0x0000, 0x20020000), (.first true true, 0x20, 1, 1, 0x0000, 0x20030000),
           (.next true false, 0x21, 1, 0, 0x0000, 0x21020000), (.next false false, 0x21, 0, 0, 0x0000, 0x21000000),
           (.next false true, 0x21, 0, 1, 0x0000, 0x21010000), (.famSetup 0x10, 0x22, 0, 0, 0x0010, 0x22000010),
           (.skipFam, 0x23, 0, 0, 0x0000, 0x23000000), (.access, 0x30, 0, 0, 0x0000, 0x30000000),
           (.verify false, 0x31, 0, 0, 0x0000, 0x31000000), (.verify true, 0x31, 0, 1, 0x0000, 0x31010000),
           (.odAccess, 0x32, 0, 0, 0x0000, 0x32000000), (.exchange false 3, 0x33, 0, 0, 0x0003, 0x33000003),
           (.exchange true 9, 0x33, 1, 0, 0x0009, 0x33020009), (.addrWr 0 0x10, 0x34, 0, 0, 0x0010, 0x34000010),
           (.addrWr 7 0x49, 0x34, 0, 0, 0x0749, 0x34000749) ] :
          List (Instr × Word × Word × Word × Word × Word)),
    decode x.2.2.2.2.2 = .ok x.1 ∧ encode x.1 = x.2.2.2.2.2 ∧
    x.2.2.2.2.2 = x.2.1 <<< 24 ||| x.2.2.1 <<< 17 ||| x.2.2.2.1 <<< 16 ||| x.2.2.2.2.1

/-- Decoding an encoded well-formed command gives it back, every operand at every value (30 sections 2 to 4). -/
def Obligations.DecodeOfEncodeIsTheInstruction : Prop :=
  ∀ i : Instr, i.wf = true → decode (encode i) = .ok i

/-- Each word has at most one meaning, and a command at most one word: the command decoded is well formed and its word
is the one it was decoded from (30 sections 2 to 4). -/
def Obligations.EncodeOfDecodeIsTheWord : Prop :=
  ∀ (w : Word) (i : Instr), decode w = .ok i → i.wf = true ∧ encode i = w

/-- R75: the opcode map. A word is the command of a row exactly when `w & mask == match`; the rest of the word is the
operands, so two words of one command are one word. -/
def Obligations.WordIsTheCommandOfItsMatchingRow : Prop :=
  (∀ x ∈ ([ (0x10, "CRC8.RESET", 0x10000000, 0xFFFFFF00), (0x11, "CRC8.UPDATE", 0x11000000, 0xFFFFFF00),
            (0x12, "CRC8.CHECK", 0x12000000, 0xFFFFFFFF), (0x18, "CRC16.RESET", 0x18000000, 0xFFFF0000),
            (0x19, "CRC16.UPDATE", 0x19000000, 0xFFFFFF00), (0x1A, "CRC16.CHECK", 0x1A000000, 0xFFFFFFFF),
            (0x20, "FIRST", 0x20000000, 0xFFFCFFFF), (0x21, "NEXT", 0x21000000, 0xFFFCFFFF),
            (0x22, "FAMSETUP", 0x22000000, 0xFFFFFF00), (0x23, "SKIPFAM", 0x23000000, 0xFFFFFFFF),
            (0x30, "ACCESS", 0x30000000, 0xFFFFFFFF), (0x31, "VERIFY", 0x31000000, 0xFFFEFFFF),
            (0x32, "ODACCESS", 0x32000000, 0xFFFFFFFF), (0x33, "EXCHANGE", 0x33000000, 0xFFFD0000),
            (0x34, "ADDRWR", 0x34000000, 0xFFFFF800) ] : List (Byte × String × Word × Word)),
    ∀ w : Word,
      (w &&& x.2.2.2 = x.2.2.1 ↔ ∃ i, decode w = .ok i ∧ i.mnemonic = x.2.1) ∧
      (w &&& x.2.2.2 = x.2.2.1 → w.extractLsb' 24 8 = x.1)) ∧
  ∀ (w v : Word) (i : Instr), decode w = .ok i → decode v = .ok i → w = v

/-- R78: decoding is total. Either exactly one row of the opcode map matches the word, and it decodes to a command of
that row, or no row does, and it is illegal. -/
def Obligations.EveryWordIsOneCommandOrIllegal : Prop :=
  ∀ w : Word,
    (∃ k : Fin 15, matchesRow w (opcodeMap.get k) = true ∧
      (∀ j : Fin 15, matchesRow w (opcodeMap.get j) = true → j = k) ∧ ∃ i, decode w = .ok i ∧ i.rowIndex = k) ∨
    ((∀ k : Fin 15, matchesRow w (opcodeMap.get k) = false) ∧ ∃ e, decode w = .error e)

/-- R74: every operand is its field of the word as it is, and a length above MAX_BLOCK_LEN is refused by EXCHANGE. -/
def Obligations.OperandsAreTheirFields : Prop :=
  (∀ (w : Word) (i : Instr), decode w = .ok i →
    match i with
    | .crc8Reset seed => seed = w.extractLsb' 0 8
    | .crc8Update b => b = w.extractLsb' 0 8
    | .crc8Check => True
    | .crc16Reset seed => seed = w.extractLsb' 0 16
    | .crc16Update b => b = w.extractLsb' 0 8
    | .crc16Check => True
    | .first r a => r = w.getLsbD 17 ∧ a = w.getLsbD 16
    | .next r a => r = w.getLsbD 17 ∧ a = w.getLsbD 16
    | .famSetup code => code = w.extractLsb' 0 8
    | .skipFam => True
    | .access => True
    | .verify a => a = w.getLsbD 16
    | .odAccess => True
    | .exchange r len => r = w.getLsbD 17 ∧ len = (w.extractLsb' 0 16).toNat ∧ len ≤ 65535
    | .addrWr idx b => idx.val = (w.extractLsb' 8 3).toNat ∧ b = w.extractLsb' 0 8) ∧
  ∀ (r : Bool) (len : Nat) (s : State), s.params.maxBlockLen < len →
    ∃ t, exec (.exchange r len) s = .next t ∧ t.status = .lengthExceeded

/-! ## Steps, reset and the invariant (20_memory.md section 5, 70_reset_and_hazards.md) -/

/-- The next word the host gives is decoded and run (20 section 5), and `withFetchWord` gives a word so (log 1). -/
def Obligations.StepRunsTheDecodedCommand : Prop :=
  (∀ (s : State) (w : Word) (rest : List HostAccess) (i : Instr),
    s.host = .command w :: rest → decode w = .ok i → step s = exec i { s with host := rest }) ∧
  ∀ (s : State) (nbits w : Nat) (i : Instr),
    decodeTableWord nbits w = some i → step (s.withFetchWord nbits w) = exec i s

/-- R77: a word that matches no row is illegal: no link call, and nothing changes but `STATUS` and `RES`. -/
def Obligations.IllegalWordChangesStatusAndResultOnly : Prop :=
  ∀ (s : State) (w : Word) (rest : List HostAccess),
    (∀ k : Fin 15, matchesRow w (opcodeMap.get k) = false) → s.host = .command w :: rest →
    step s = .next { s with host := rest, status := .illegalCommand, res := false, link := s.link.command [] }

/-- MODEL'S CHOICE (log 1; 70 section 1 says only that the core waits): with no access of the host waiting, nothing
changes. -/
def Obligations.IdleCoreWaits : Prop := ∀ s : State, s.host = [] → step s = .next s

/-- Drawn from 10 section 9, 70 section 1 and 00 section 4: the registers after hardware reset, at the start and on the
host's reset access; it makes no link call and leaves the environment, and the core takes the host's next access; a
NEXT then runs as a FIRST does; the parameters with a default have it at the start. MODEL'S CHOICE (log 2):
`State.reset.link.calls = 0`, the reset value of the model's own count of link calls. -/
def Obligations.ResetValuesOfTheSpec : Prop :=
  (State.reset.ld = .resetSentinel ∧ State.reset.ld.code = 0xFF ∧ State.reset.lfd = 0 ∧ State.reset.ldf = false ∧
    State.reset.addr = 0 ∧ State.reset.crc8 = 0x00 ∧ State.reset.crc16 = 0x0000 ∧ State.reset.status = .ok ∧
    State.reset.status.code = 0x0 ∧ State.reset.res = false ∧ State.reset.link.calls = 0 ∧
    State.reset.params.linkFaultChannel = false ∧ State.reset.params.verifyDoesReset = true) ∧
  ∀ (s : State) (rest : List HostAccess), s.host = .hardReset :: rest →
    ∃ t, step s = .next t ∧ t.ld = .resetSentinel ∧ t.lfd = 0 ∧ t.ldf = false ∧ t.addr = 0 ∧ t.crc8 = 0x00 ∧
      t.crc16 = 0x0000 ∧ t.status = .ok ∧ t.res = false ∧ t.link = s.link.command [] ∧ t.host = rest ∧
      t.params = s.params ∧ ∀ r a : Bool, exec (.next r a) t = exec (.first r a) t

/-- Hardware reset after `n` link calls of a command (70 section 1; MODEL'S FORM, log 9): the calls made are the first
`n` of the command's own, the others do not happen, and the registers are as after any hardware reset. -/
def Obligations.HardResetDuringACommandDropsTheRest : Prop :=
  ∀ (s : State) (w : Word) (n : Nat) (rest : List HostAccess), s.host = .commandCut w n :: rest →
    ∃ u t, step { s with host := .command w :: rest } = .next u ∧ step s = .next t ∧
      t.link = s.link.command (u.link.trace.take n) ∧
      t.ld = .resetSentinel ∧ t.lfd = 0 ∧ t.ldf = false ∧ t.addr = 0 ∧ t.crc8 = 0x00 ∧ t.crc16 = 0x0000 ∧
      t.status = .ok ∧ t.res = false ∧ t.params = s.params ∧ t.host = rest

/-- The invariant holds after reset. -/
def Obligations.InvariantHoldsAtReset : Prop := State.reset.Inv

/-- Every step keeps the invariant: BUF canonical and within MAX_BLOCK_LEN, `LD = NONE` only at the last device (10
R18), RESET_SENTINEL only in the empty search, `LFD` at most 8 (10 R19), `RES` only beside Ok (10 R22), no link-fault
status without the channel (60 R182). -/
def Obligations.StepKeepsTheInvariant : Prop := ∀ s t : State, s.Inv → step s = .next t → t.Inv

/-- R18: at every command boundary `LD = NONE` implies `LDF = 1`; and a pass from `NONE` would be the pass from 0. -/
def Obligations.NoneInLdImpliesLastDevice : Prop :=
  (State.reset.ld = .none → State.reset.ldf = true) ∧
  (∀ s t : State, (s.ld = .none → s.ldf = true) → step s = .next t → t.ld = .none → t.ldf = true) ∧
  ∀ (r a : Bool) (s : State), s.ld = .none → exec (.next r a) s = exec (.next r a) { s with ld := .num 0 }

/-- Every command runs to its end in every state and leaves the parameters, the host's waiting accesses, the last
port read and the count of resets alone (20 section 5, 60 section 5, 60 section 7). -/
def Obligations.EveryCommandCompletes : Prop :=
  ∀ (i : Instr) (s : State), ∃ t, exec i s = .next t ∧
    t.params = s.params ∧ t.host = s.host ∧ t.readData = s.readData ∧ t.resets = s.resets

/-- MODEL'S CHOICE (log 8): a step stops only where the host reaches for a byte of `BUF` that does not exist, and
stops there; no step is refused. -/
def Obligations.StepFaultsOnlyOnBufIndexOutOfRange : Prop :=
  (∀ (s : State) (f : Fault), step s = .fault f ↔
    ∃ k rest, (s.host = .readBuf k :: rest ∨ ∃ v, s.host = .writeBuf k v :: rest) ∧ s.params.maxBlockLen ≤ k) ∧
  ∀ (s : State) (q : Refusal), step s ≠ .refused q

/-! ## The CRC engines (40_crc.md) -/

/-- R94. -/
def Obligations.Crc8ResetWritesTheSeed : Prop :=
  ∀ (seed : Byte) (s : State), exec (.crc8Reset seed) s =
    .next { s with crc8 := seed, status := .ok, res := true, link := s.link.command [] }

/-- R95. -/
def Obligations.Crc8UpdateTakesOneStep : Prop :=
  ∀ (b : Byte) (s : State), exec (.crc8Update b) s =
    .next { s with crc8 := crc8Step s.crc8 b, status := .ok, res := true, link := s.link.command [] }

/-- R96. -/
def Obligations.Crc8CheckTestsTheResidual : Prop :=
  ∀ s : State, exec .crc8Check s =
    .next (if s.crc8 = 0x00 then { s with status := .ok, res := true, link := s.link.command [] }
           else { s with status := .crcFailure, res := false, link := s.link.command [] })

/-- R100. -/
def Obligations.Crc16ResetWritesTheSeed : Prop :=
  ∀ (seed : Half) (s : State), exec (.crc16Reset seed) s =
    .next { s with crc16 := seed, status := .ok, res := true, link := s.link.command [] }

/-- R101. -/
def Obligations.Crc16UpdateTakesOneStep : Prop :=
  ∀ (b : Byte) (s : State), exec (.crc16Update b) s =
    .next { s with crc16 := crc16Step s.crc16 b, status := .ok, res := true, link := s.link.command [] }

/-- R102. -/
def Obligations.Crc16CheckTestsTheResidual : Prop :=
  ∀ s : State, exec .crc16Check s =
    .next (if s.crc16 = 0xB001 then { s with status := .ok, res := true, link := s.link.command [] }
           else { s with status := .crcFailure, res := false, link := s.link.command [] })

/-- R91: the table form of the CRC-8 step; the table is the one printed in the rule. -/
def Obligations.Crc8StepIsItsTable : Prop :=
  crc8Table.length = 256 ∧ (∀ x : Byte, crc8Table[x.toNat]? = some (crc8Step 0 x)) ∧
  ∀ c b : Byte, crc8Table[(c ^^^ b).toNat]? = some (crc8Step c b)

/-- R98: the table form of the CRC-16 step; the table is the one printed in the rule. -/
def Obligations.Crc16StepIsItsTable : Prop :=
  crc16Table.length = 256 ∧ (∀ x : Byte, crc16Table[x.toNat]? = some (crc16Step 0 x)) ∧
  ∀ (c : Half) (b : Byte), ∃ v, crc16Table[((c ^^^ b.setWidth 16) &&& 0xFF).toNat]? = some v ∧
    crc16Step c b = (c >>> 8) ^^^ v

/-- R92: `crc8` folds the step over the bytes, and the two forms of address validity are one. -/
def Obligations.AddressValidityInItsTwoForms : Prop :=
  (∀ (bytes : List Byte) (seed : Byte), crc8 bytes seed = bytes.foldl crc8Step seed) ∧
  (∀ c : Byte, crc8Step c c = 0x00) ∧
  ∀ x : Address, (addrValid x = true ↔ crc8 (addrBytes x) 0 = 0x00) ∧
    (crc8 (addrBytes x) 0 = 0x00 ↔ crc8 ((addrBytes x).take 7) 0 = addrByte x 7)

/-- R103: over any payload and the two complement bytes of R99 the running value lands on 0xB001, and any other
residual is a CRC failure. -/
def Obligations.Crc16ResidualOfEveryFramedPayload : Prop :=
  (∀ (seed : Half) (payload : List Byte),
    (payload ++ [(~~~(payload.foldl crc16Step seed)).extractLsb' 0 8,
                 (~~~(payload.foldl crc16Step seed)).extractLsb' 8 8]).foldl crc16Step seed = 0xB001) ∧
  ∀ s : State, s.crc16 ≠ 0xB001 → ∃ t, exec .crc16Check s = .next t ∧ t.status = .crcFailure ∧ t.res = false

/-- One wrong bit of a valid address makes it invalid (41 section 6, recovery). -/
def Obligations.Crc8DetectsEverySingleBitError : Prop :=
  ∀ (x y : Address) (i : Nat), i < 64 → addrValid x = true → (∀ j < 64, abit y j = (abit x j ^^ decide (j = i))) →
    addrValid y = false

/-- R104: no command but the six of the CRC engines reads or writes `CRC8` or `CRC16`. -/
def Obligations.CrcRegistersArePrivate : Prop :=
  ∀ (i : Instr) (s : State) (c : Byte) (d : Half),
    (match i with
     | .crc8Reset _ => False | .crc8Update _ => False | .crc8Check => False
     | .crc16Reset _ => False | .crc16Update _ => False | .crc16Check => False
     | .first _ _ => True | .next _ _ => True | .famSetup _ => True | .skipFam => True
     | .access => True | .verify _ => True | .odAccess => True | .exchange _ _ => True | .addrWr _ _ => True) →
    ∃ t, exec i s = .next t ∧ t.crc8 = s.crc8 ∧ t.crc16 = s.crc16 ∧
      exec i { s with crc8 := c, crc16 := d } = .next { t with crc8 := c, crc16 := d }

/-! ## The enumerator (41_enumerator.md) -/

/-- R111: FIRST clears `LD`, `LFD`, `LDF`, leaves `ADDR`, and runs the body of NEXT. -/
def Obligations.FirstIsNextAfterClearing : Prop :=
  ∀ (r a : Bool) (s : State),
    exec (.first r a) s = exec (.next r a) { s with ld := .num 0, lfd := 0, ldf := false }

/-- R113: NEXT after the last device: no link call, the empty search, and the NEXT after it starts a new full
enumeration as FIRST does. -/
def Obligations.NextAfterTheLastDeviceEmptiesTheSearch : Prop :=
  ∀ (r a : Bool) (s : State), s.ldf = true →
    ∃ t, exec (.next r a) s = .next t ∧
      t = { s with ld := .resetSentinel, lfd := 0, ldf := false, addr := 0, status := .endOfSearch, res := false,
                   link := s.link.command [] } ∧
      ∀ r' a' : Bool, exec (.next r' a') t = exec (.first r' a') t

/-- R114: the bus reset of step 2, with the extra leading reset, whose answer is thrown away, for the alarming-clock
family (`resetCalls`); what no presence leaves; and that without `r` step 2 makes no call and cannot fail. -/
def Obligations.SearchResetsTheBusFirst : Prop :=
  (∀ (a : Bool) (s : State), s.ldf = false → s.Quiet (s.resetCalls true) →
    (s.answerAt (s.resetCalls true - 1)).presence = false →
    exec (.next true a) s =
      .next { s with ld := .num 0, lfd := 0, status := .noPresence, res := false,
                     link := s.link.command (s.resetEvents true) }) ∧
  (∀ (a : Bool) (s : State), s.ldf = false → s.Quiet (s.resetCalls true) →
    (s.answerAt (s.resetCalls true - 1)).presence = true →
    ∃ t, exec (.next true a) s = .next t ∧ t.status ≠ .noPresence ∧ s.resetEvents true <+: t.link.trace ∧
      ∀ j (h : j < t.link.trace.length), s.resetCalls true ≤ j → t.link.trace[j].call ≠ .reset) ∧
  ∀ (a : Bool) (s : State), ∃ t, exec (.next false a) s = .next t ∧ t.status ≠ .noPresence ∧
    ∀ e ∈ t.link.trace, e.call ≠ .reset

/-- R117, R119, R120, R122: a pass that reads no (1,1) and drives the bits of `x`, an address that passes step 5. At
every position two reads, A then B, and one write; the bit driven is A where A and B differ, and at a discrepancy the
old path below HI, 1 at HI, 0 beyond; `x` is stored in `ADDR`; `LD` holds the last discrepancy resolved to 0, `LFD`
the last below position 8 or what it held, and `LDF` is set exactly when there was none. -/
def Obligations.NextYieldsTheAddressOfItsPass : Prop :=
  ∀ (r a : Bool) (s : State) (hi : Nat) (x : Address), s.ldf = false →
    (∀ n, s.ld = .num n → hi = n.val) → ((∀ n, s.ld ≠ .num n) → hi = 0) →
    s.Quiet (s.resetCalls r + 193) → (r = true → (s.answerAt (s.resetCalls r - 1)).presence = true) →
    (∀ i < 64, ¬ (s.readA r i = true ∧ s.readB r i = true)) →
    (∀ i < 64, abit x i =
      if s.readA r i = s.readB r i then (if i + 1 < hi then abit s.addr i else decide (i + 1 = hi)) else s.readA r i) →
    addrByte x 0 ≠ 0 → crc8 ((addrBytes x).take 7) 0 = addrByte x 7 →
    ∃ t, exec (.next r a) s = .next t ∧
      t = { s with addr := x, ld := t.ld, lfd := t.lfd, ldf := t.ldf, status := .ok, res := true,
                   link := s.link.command (s.resetEvents r ++ s.passEventsOf r a x 64) } ∧
      ((t.ld = .none ∧ ∀ j < 64, ¬ (s.readA r j = s.readB r j ∧ abit x j = false)) ∨
        ∃ m < 64, t.ld = .num (Fin.ofNat 65 (m + 1)) ∧ (s.readA r m = s.readB r m ∧ abit x m = false) ∧
          ∀ j < 64, m < j → ¬ (s.readA r j = s.readB r j ∧ abit x j = false)) ∧
      ((t.lfd = s.lfd ∧ ∀ j < 8, ¬ (s.readA r j = s.readB r j ∧ abit x j = false)) ∨
        ∃ m < 8, t.lfd = Fin.ofNat 65 (m + 1) ∧ (s.readA r m = s.readB r m ∧ abit x m = false) ∧
          ∀ j < 8, m < j → ¬ (s.readA r j = s.readB r j ∧ abit x j = false)) ∧
      (t.ldf = true ↔ t.ld = .none)

/-- The same of FIRST (41 sections 2 and 3): every discrepancy goes to 0 and is recorded, whatever `ADDR` and the old
search registers hold. -/
def Obligations.FirstYieldsTheAddressOfItsPass : Prop :=
  ∀ (r a : Bool) (s : State) (x : Address),
    s.Quiet (s.resetCalls r + 193) → (r = true → (s.answerAt (s.resetCalls r - 1)).presence = true) →
    (∀ i < 64, ¬ (s.readA r i = true ∧ s.readB r i = true)) →
    (∀ i < 64, abit x i = if s.readA r i = s.readB r i then false else s.readA r i) →
    addrByte x 0 ≠ 0 → crc8 ((addrBytes x).take 7) 0 = addrByte x 7 →
    ∃ t, exec (.first r a) s = .next t ∧
      t = { s with addr := x, ld := t.ld, lfd := t.lfd, ldf := t.ldf, status := .ok, res := true,
                   link := s.link.command (s.resetEvents r ++ s.passEventsOf r a x 64) } ∧
      ((t.ld = .none ∧ ∀ j < 64, s.readA r j ≠ s.readB r j) ∨
        ∃ m < 64, t.ld = .num (Fin.ofNat 65 (m + 1)) ∧ s.readA r m = s.readB r m ∧
          ∀ j < 64, m < j → s.readA r j ≠ s.readB r j) ∧
      ((t.lfd = 0 ∧ ∀ j < 8, s.readA r j ≠ s.readB r j) ∨
        ∃ m < 8, t.lfd = Fin.ofNat 65 (m + 1) ∧ s.readA r m = s.readB r m ∧
          ∀ j < 8, m < j → s.readA r j ≠ s.readB r j) ∧
      (t.ldf = true ↔ t.ld = .none)

/-- R118: at the first (1,1) the pass stops at once: no write for that position, no further position, the empty
search. The positions before it drove the bits of `x`. -/
def Obligations.NextStopsAtAnEmptyPosition : Prop :=
  ∀ (r a : Bool) (s : State) (hi m : Nat) (x : Address), s.ldf = false →
    (∀ n, s.ld = .num n → hi = n.val) → ((∀ n, s.ld ≠ .num n) → hi = 0) → m < 64 →
    s.Quiet (s.resetCalls r + 1 + 3 * m + 2) → (r = true → (s.answerAt (s.resetCalls r - 1)).presence = true) →
    (∀ i < m, ¬ (s.readA r i = true ∧ s.readB r i = true)) → s.readA r m = true → s.readB r m = true →
    (∀ i < m, abit x i =
      if s.readA r i = s.readB r i then (if i + 1 < hi then abit s.addr i else decide (i + 1 = hi)) else s.readA r i) →
    exec (.next r a) s =
      .next { s with ld := .resetSentinel, lfd := 0, ldf := false, addr := 0, status := .searchCorrupted, res := false,
                     link := s.link.command (s.resetEvents r ++ s.passEventsOf r a x m ++
                       [⟨.readBit, .bit true⟩, ⟨.readBit, .bit true⟩]) }

/-- R121: a candidate with a zero family byte or a wrong CRC-8 is rejected after all 64 positions, and nothing of it
reaches `ADDR`; hence every address FIRST or NEXT yields has a nonzero family byte and a good CRC-8. -/
def Obligations.OnlyValidAddressesAreYielded : Prop :=
  (∀ (r a : Bool) (s : State) (hi : Nat) (x : Address), s.ldf = false →
    (∀ n, s.ld = .num n → hi = n.val) → ((∀ n, s.ld ≠ .num n) → hi = 0) →
    s.Quiet (s.resetCalls r + 193) → (r = true → (s.answerAt (s.resetCalls r - 1)).presence = true) →
    (∀ i < 64, ¬ (s.readA r i = true ∧ s.readB r i = true)) →
    (∀ i < 64, abit x i =
      if s.readA r i = s.readB r i then (if i + 1 < hi then abit s.addr i else decide (i + 1 = hi)) else s.readA r i) →
    (addrByte x 0 = 0 ∨ crc8 ((addrBytes x).take 7) 0 ≠ addrByte x 7) →
    exec (.next r a) s =
      .next { s with ld := .resetSentinel, lfd := 0, ldf := false, addr := 0, status := .searchCorrupted, res := false,
                     link := s.link.command (s.resetEvents r ++ s.passEventsOf r a x 64) }) ∧
  ∀ (r a : Bool) (s : State),
    (∃ t, exec (.next r a) s = .next t ∧ (t.res = true → addrByte t.addr 0 ≠ 0 ∧ addrValid t.addr = true)) ∧
    ∃ t, exec (.first r a) s = .next t ∧ (t.res = true → addrByte t.addr 0 ≠ 0 ∧ addrValid t.addr = true)

/-- R16: in a pass RESET_SENTINEL behaves as the number 0. -/
def Obligations.EmptySearchIsAFullRangeSearch : Prop :=
  ∀ (r a : Bool) (s : State), s.ld = .resetSentinel →
    exec (.next r a) s = exec (.next r a) { s with ld := .num 0 }

/-- R123. -/
def Obligations.FamSetupSeedsTheSearch : Prop :=
  ∀ (code : Byte) (s : State), ∃ t, exec (.famSetup code) s = .next t ∧
    addrByte t.addr 0 = code ∧ (∀ k, 1 ≤ k → k ≤ 7 → addrByte t.addr k = 0x00) ∧
    t = { s with addr := t.addr, ld := .num 64, lfd := 0, ldf := false, status := .ok, res := true,
                 link := s.link.command [] }

/-- R124. -/
def Obligations.SkipFamMovesTheDecisionPoint : Prop :=
  ∀ s : State, exec .skipFam s =
    .next { s with ld := .num s.lfd, lfd := 0, ldf := if s.lfd = 0 then true else s.ldf, status := .ok, res := true,
                   link := s.link.command [] }

/-- FIRST depends on the old `ADDR` only through the family test of step 2, and on the old `LD`, `LFD`, `LDF` not at
all: after a pass that failed nothing of it survives (41 section 6, recovery). -/
def Obligations.FirstForgetsTheOldSearch : Prop :=
  ∀ (r a : Bool) (s t : State) (y : Address) (ld : Discrepancy) (lfd : Fin 65) (ldf : Bool),
    isAlarmClockFamily s.params (addrByte y 0) = isAlarmClockFamily s.params (addrByte s.addr 0) →
    exec (.first r a) s = .next t → t.status ≠ .noPresence →
    exec (.first r a) { s with addr := y, ld := ld, lfd := lfd, ldf := ldf } = .next t

/-- On a bus of well-behaved devices (20 R54, R55) FIRST with a reset finds the least address in the order of 41
R125, and stands at it: at the last device if it is the only one, else at the deepest untried branch. -/
def Obligations.FirstFindsTheLeastAddress : Prop :=
  ∀ (s t : State) (bus : Bus), bus ≠ [] → bus.valid → exec (.first true false) s = .next t →
    bus.answers t.link.trace = true →
    t.res = true ∧ t.status = .ok ∧ IsLeast bus.addresses t.addr ∧
      ((t.ldf = true ∧ t.ld = .none ∧ ∀ y ∈ bus.addresses, y = t.addr) ∨
        (t.ldf = false ∧ ∃ n, t.ld = .num n ∧ StandsAt bus.addresses t.addr n.val))

/-- On such a bus NEXT with a reset, standing at an address, finds the next one in the order of 41 R125 and stands at
it. -/
def Obligations.NextFindsTheNextAddress : Prop :=
  ∀ (s t : State) (bus : Bus) (n : Fin 65), bus.valid → s.ldf = false → s.ld = .num n →
    StandsAt bus.addresses s.addr n.val → exec (.next true false) s = .next t → bus.answers t.link.trace = true →
    t.res = true ∧ t.status = .ok ∧ IsSuccessor bus.addresses s.addr t.addr ∧
      ((t.ldf = true ∧ t.ld = .none ∧ ∀ y ∈ bus.addresses, ¬ searchLt t.addr y) ∨
        (t.ldf = false ∧ ∃ m, t.ld = .num m ∧ StandsAt bus.addresses t.addr m.val))

/-- R126: `FIRST 1, 0` and then `NEXT 1, 0` on a bus of N distinct valid well-behaved devices: `run 0` is the state
before, `run k` the state after the k-th command. Exactly the N addresses, each once, in the order of R125, the N-th
with `LDF = 1` (and none before it), and the command after it returns nothing. -/
def Obligations.EnumerationYieldsEachDeviceOnce : Prop :=
  ∀ (bus : Bus) (run : Nat → State), bus ≠ [] → bus.valid → bus.addresses.Nodup →
    exec (.first true false) (run 0) = .next (run 1) →
    (∀ k, 1 ≤ k → k ≤ bus.length → exec (.next true false) (run k) = .next (run (k + 1))) →
    (∀ k, 1 ≤ k → k ≤ bus.length + 1 → bus.answers (run k).link.trace = true) →
    (∀ k, 1 ≤ k → k ≤ bus.length → (run k).res = true ∧ ((run k).ldf = true ↔ k = bus.length)) ∧
    List.Perm ((List.range bus.length).map fun k => (run (k + 1)).addr) bus.addresses ∧
    List.Pairwise searchLt ((List.range bus.length).map fun k => (run (k + 1)).addr) ∧
    (run (bus.length + 1)).res = false ∧ (run (bus.length + 1)).status = .endOfSearch

/-- The NEXT after FAMSETUP, with a device of the family there, finds the family's least address and stands at it (41
section 6, family search). -/
def Obligations.FamilySearchFindsItsLeastAddress : Prop :=
  ∀ (code : Byte) (s u t : State) (bus : Bus), bus.valid → (∃ y ∈ bus.addresses, addrByte y 0 = code) →
    exec (.famSetup code) s = .next u → exec (.next true false) u = .next t → bus.answers t.link.trace = true →
    t.res = true ∧ addrByte t.addr 0 = code ∧
      IsLeast (bus.addresses.filter fun y => addrByte y 0 = code) t.addr ∧
      ((t.ldf = true ∧ t.ld = .none ∧ ∀ y ∈ bus.addresses, ¬ searchLt t.addr y) ∨
        (t.ldf = false ∧ ∃ m, t.ld = .num m ∧ StandsAt bus.addresses t.addr m.val))

/-! ## The selector (42_selector.md) -/

/-- R140. -/
def Obligations.AddrWrWritesOneByte : Prop :=
  ∀ (idx : Fin 8) (b : Byte) (s : State), ∃ t, exec (.addrWr idx b) s = .next t ∧
    (∀ k : Fin 8, addrByte t.addr k.val = if k = idx then b else addrByte s.addr k.val) ∧
    t = { s with addr := t.addr, status := .ok, res := true, link := s.link.command [] }

/-- R141: the reset alone when there is no presence; else the reset and all nine bytes, and then the comparison. -/
def Obligations.AccessSendsNineBytesAndChecksEchoes : Prop :=
  ∀ s : State,
    (s.Quiet 1 → (s.answerAt 0).presence = false →
      exec .access s =
        .next { s with status := .noPresence, res := false, link := s.link.command [⟨.reset, .presence false⟩] }) ∧
    ∀ sent : Nat → Byte, sent 0 = 0x55 → (∀ k < 8, sent (k + 1) = addrByte s.addr k) →
      s.Quiet 10 → (s.answerAt 0).presence = true →
      ∃ t, exec .access s = .next t ∧
        t = { s with status := t.status, res := t.res,
                     link := s.link.command (⟨.reset, .presence true⟩ ::
                       (List.range 9).map fun k => ⟨.touchByte (sent k), .byte (s.answerAt (k + 1)).byte⟩) } ∧
        ((∀ k < 9, (s.answerAt (k + 1)).byte = sent k) → t.status = .ok ∧ t.res = true) ∧
        ((∃ k < 9, (s.answerAt (k + 1)).byte ≠ sent k) → t.status = .echoMismatch ∧ t.res = false)

/-- R144, for both settings of VERIFY_DOES_RESET (`n` is the number of resets): all 64 positions, no early exit; a
pair matches when it is (t, not t) for the address bit t; `RES` is the verdict, at 8 matches, and `STATUS` is Ok. -/
def Obligations.VerifyCountsMatchingPairs : Prop :=
  ∀ (a : Bool) (s : State) (n : Nat), n = (if s.params.verifyDoesReset then 1 else 0) →
    (s.params.verifyDoesReset = true → s.Quiet 1 → (s.answerAt 0).presence = false →
      exec (.verify a) s =
        .next { s with status := .noPresence, res := false, link := s.link.command [⟨.reset, .presence false⟩] }) ∧
    (s.Quiet (n + 193) → (s.params.verifyDoesReset = true → (s.answerAt 0).presence = true) →
      exec (.verify a) s =
        .next { s with
          status := .ok
          res := decide (8 ≤ (List.range 64).countP fun i =>
            (s.answerAt (n + 1 + 3 * i)).bit == abit s.addr i &&
            (s.answerAt (n + 1 + (3 * i + 1))).bit == !abit s.addr i)
          link := (s.link.command
            ((List.range n).map (fun _ => ⟨.reset, .presence true⟩) ++
              ⟨.touchByte (if a then 0xEC else 0xF0), .byte (s.answerAt n).byte⟩ ::
              (List.range 64).flatMap fun i =>
                [⟨.readBit, .bit (s.answerAt (n + 1 + 3 * i)).bit⟩,
                 ⟨.readBit, .bit (s.answerAt (n + 1 + (3 * i + 1))).bit⟩,
                 ⟨.writeBit (abit s.addr i), .nothing⟩])) })

/-- R146: the overdrive handshake. On each failure the last link call is `setSpeed(Normal)`; on Ok the link is left at
overdrive. The answers of `setSpeed` decide nothing. -/
def Obligations.OdAccessIsTheOverdriveHandshake : Prop :=
  ∀ s : State,
    (s.Quiet 3 → (s.answerAt 1).presence = false →
      exec .odAccess s =
        .next { s with status := .noPresence, res := false, link := (s.link.command
          [⟨.setSpeed .normal, .speed (s.answerAt 0).speed⟩, ⟨.reset, .presence false⟩,
           ⟨.setSpeed .normal, .speed (s.answerAt 2).speed⟩]) }) ∧
    (s.Quiet 4 → (s.answerAt 1).presence = true → (s.answerAt 2).byte ≠ 0x69 →
      exec .odAccess s =
        .next { s with status := .echoMismatch, res := false, link := (s.link.command
          [⟨.setSpeed .normal, .speed (s.answerAt 0).speed⟩, ⟨.reset, .presence true⟩,
           ⟨.touchByte 0x69, .byte (s.answerAt 2).byte⟩, ⟨.setSpeed .normal, .speed (s.answerAt 3).speed⟩]) }) ∧
    (s.Quiet 12 → (s.answerAt 1).presence = true → (s.answerAt 2).byte = 0x69 →
      (∀ k < 8, (s.answerAt (4 + k)).byte = addrByte s.addr k) →
      exec .odAccess s =
        .next { s with status := .ok, res := true, link := (s.link.command
          ([⟨.setSpeed .normal, .speed (s.answerAt 0).speed⟩, ⟨.reset, .presence true⟩,
            ⟨.touchByte 0x69, .byte 0x69⟩, ⟨.setSpeed .overdrive, .speed (s.answerAt 3).speed⟩] ++
            (List.range 8).map fun k => ⟨.touchByte (addrByte s.addr k), .byte (addrByte s.addr k)⟩)) }) ∧
    (s.Quiet 13 → (s.answerAt 1).presence = true → (s.answerAt 2).byte = 0x69 →
      (∃ k < 8, (s.answerAt (4 + k)).byte ≠ addrByte s.addr k) →
      exec .odAccess s =
        .next { s with status := .echoMismatch, res := false, link := (s.link.command
          ([⟨.setSpeed .normal, .speed (s.answerAt 0).speed⟩, ⟨.reset, .presence true⟩,
            ⟨.touchByte 0x69, .byte 0x69⟩, ⟨.setSpeed .overdrive, .speed (s.answerAt 3).speed⟩] ++
            ((List.range 8).map fun k => ⟨.touchByte (addrByte s.addr k), .byte (s.answerAt (4 + k)).byte⟩) ++
            [⟨.setSpeed .normal, .speed (s.answerAt 12).speed⟩])) })

/-- R148 and R46: the length test comes first; then the reset when `r`; then the bytes of `BUF` from 0 up, each slot
overwritten with the byte observed, and every byte from `len` up as it was. `n` is the number of resets. -/
def Obligations.ExchangeMovesTheBuffer : Prop :=
  ∀ (r : Bool) (len : Nat) (s : State) (n : Nat), n = (if r then 1 else 0) →
    (s.params.maxBlockLen < len →
      exec (.exchange r len) s =
        .next { s with status := .lengthExceeded, res := false, link := s.link.command [] }) ∧
    (len ≤ s.params.maxBlockLen → r = true → s.Quiet 1 → (s.answerAt 0).presence = false →
      exec (.exchange r len) s =
        .next { s with status := .noPresence, res := false, link := s.link.command [⟨.reset, .presence false⟩] }) ∧
    (len ≤ s.params.maxBlockLen → s.Quiet (n + len) → (r = true → (s.answerAt 0).presence = true) →
      ∃ t, exec (.exchange r len) s = .next t ∧
        (∀ k, t.bufByte k = if k < len then (s.answerAt (n + k)).byte else s.bufByte k) ∧
        t = { s with buf := t.buf, status := .ok, res := true, link := (s.link.command
          ((List.range n).map (fun _ => ⟨.reset, .presence true⟩) ++
            (List.range len).map fun k => ⟨.touchByte (s.bufByte k), .byte (s.answerAt (n + k)).byte⟩)) })

/-- R150: ACCESS, VERIFY, ODACCESS and EXCHANGE write no search register and no CRC register, however they end, and
ADDRWR one byte of `ADDR`. -/
def Obligations.SelectorLeavesTheSearchAlone : Prop :=
  ∀ s : State,
    (∀ i : Instr, (i = .access ∨ (∃ a, i = .verify a) ∨ i = .odAccess ∨ ∃ r len, i = .exchange r len) →
      ∃ t, exec i s = .next t ∧ t.addr = s.addr ∧ t.ld = s.ld ∧ t.lfd = s.lfd ∧ t.ldf = s.ldf ∧ t.crc8 = s.crc8 ∧
        t.crc16 = s.crc16) ∧
    ∀ (idx : Fin 8) (b : Byte), ∃ t, exec (.addrWr idx b) s = .next t ∧
      (∀ k : Fin 8, k ≠ idx → addrByte t.addr k.val = addrByte s.addr k.val) ∧ t.ld = s.ld ∧ t.lfd = s.lfd ∧
      t.ldf = s.ldf ∧ t.crc8 = s.crc8 ∧ t.crc16 = s.crc16 ∧ t.buf = s.buf

/-- R42: only EXCHANGE reads or writes `BUF` from the core's side. -/
def Obligations.OnlyExchangeTouchesTheBuffer : Prop :=
  ∀ (i : Instr) (s : State) (m : Memory), (∀ r len, i ≠ .exchange r len) →
    ∃ t, exec i s = .next t ∧ t.buf = s.buf ∧ exec i { s with buf := m } = .next { t with buf := m }

/-! ## Statuses, link calls, link faults (60_exceptions.md) -/

/-- Which command can end with which status (60 section 1); the two link faults only with LINK_FAULT_CHANNEL = 1 and
only for a command that makes link calls (60 section 8). -/
def Obligations.StatusesEachCommandCanEndWith : Prop :=
  ∀ (i : Instr) (s : State), ∃ t, exec i s = .next t ∧
    (t.status ∈ (match i with
      | .crc8Reset _ => [.ok] | .crc8Update _ => [.ok] | .crc8Check => [.ok, .crcFailure]
      | .crc16Reset _ => [.ok] | .crc16Update _ => [.ok] | .crc16Check => [.ok, .crcFailure]
      | .first r _ => if r then [.ok, .noPresence, .searchCorrupted] else [.ok, .searchCorrupted]
      | .next r _ => if r then [.ok, .noPresence, .searchCorrupted, .endOfSearch]
                     else [.ok, .searchCorrupted, .endOfSearch]
      | .famSetup _ => [.ok] | .skipFam => [.ok] | .addrWr _ _ => [.ok]
      | .access => [.ok, .noPresence, .echoMismatch]
      | .verify _ => if s.params.verifyDoesReset then [.ok, .noPresence] else [.ok]
      | .odAccess => [.ok, .noPresence, .echoMismatch]
      | .exchange r _ => if r then [.ok, .noPresence, .lengthExceeded] else [.ok, .lengthExceeded] : List Status) ∨
     (s.params.linkFaultChannel = true ∧ (t.status = .shortCircuit ∨ t.status = .adapterFault) ∧ t.link.trace ≠ []))

/-- `RES` follows `STATUS`, for VERIFY in one direction only (10 section 4), and every command writes both. -/
def Obligations.ResultFollowsStatus : Prop :=
  ∀ (i : Instr) (s : State), ∃ t, exec i s = .next t ∧ (t.res = true → t.status = .ok) ∧
    ((∀ a, i ≠ .verify a) → t.status = .ok → t.res = true) ∧
    ∀ (st : Status) (b : Bool), exec i { s with status := st, res := b } = exec i s

/-- A command's link calls are answered in order, one answer for each, and the trace shows it (00 R7; 20 sections 4
and 5). -/
def Obligations.LinkTraceShowsTheAnswersInOrder : Prop :=
  ∀ (i : Instr) (s : State), ∃ t, exec i s = .next t ∧ t.link = s.link.command t.link.trace ∧
    ∀ j (h : j < t.link.trace.length),
      t.link.trace[j].reply = replyOf s.params t.link.trace[j].call (s.answerAt j)

/-- No command calls `setLevel` or a capability query (20 section 4), and only ODACCESS calls `setSpeed`. -/
def Obligations.NoCommandCallsLevelOrCapability : Prop :=
  ∀ (i : Instr) (s : State), ∃ t, exec i s = .next t ∧ ∀ e ∈ t.link.trace,
    (∀ v, e.call ≠ .setLevel v) ∧ e.call ≠ .hasPowerDelivery ∧ e.call ≠ .hasOverdrive ∧ e.call ≠ .hasProgramPulse ∧
    (i ≠ .odAccess → ∀ v, e.call ≠ .setSpeed v)

/-- R130, and the same of the other commands: how many link calls a command makes at most. -/
def Obligations.CommandsAreFinite : Prop :=
  ∀ (i : Instr) (s : State), ∃ t, exec i s = .next t ∧
    t.link.trace.length ≤ (match i with
      | .crc8Reset _ => 0 | .crc8Update _ => 0 | .crc8Check => 0
      | .crc16Reset _ => 0 | .crc16Update _ => 0 | .crc16Check => 0
      | .first _ _ => 2 + 1 + 192 | .next _ _ => 2 + 1 + 192
      | .famSetup _ => 0 | .skipFam => 0 | .addrWr _ _ => 0
      | .access => 10 | .verify _ => 194 | .odAccess => 13 | .exchange _ len => 1 + len)

/-- R183: a fault answer ends the command. It is the last link call, ODACCESS's closing `setSpeed(Normal)` apart, whose
own fault is ignored (log 10: also on ODACCESS's ordinary failures); the status is the fault's; FIRST and NEXT leave
the empty search, EXCHANGE the bytes already exchanged, every other command the state as it was. -/
def Obligations.FaultedCommandStops : Prop :=
  ∀ (i : Instr) (s : State), ∃ t, exec i s = .next t ∧
    ∀ (before after : List LinkEvent) (c : LinkCall) (k : LinkFault),
      t.link.trace = before ++ ⟨c, .fault k⟩ :: after → (∀ e ∈ before, e.isFault = false) →
      match i with
      | .crc8Reset _ => False | .crc8Update _ => False | .crc8Check => False
      | .crc16Reset _ => False | .crc16Update _ => False | .crc16Check => False
      | .famSetup _ => False | .skipFam => False | .addrWr _ _ => False
      | .first _ _ => after = [] ∧
          t = { s with addr := 0, ld := .resetSentinel, lfd := 0, ldf := false, status := Status.ofFault k, res := false,
                       link := s.link.command t.link.trace }
      | .next _ _ => after = [] ∧
          t = { s with addr := 0, ld := .resetSentinel, lfd := 0, ldf := false, status := Status.ofFault k, res := false,
                       link := s.link.command t.link.trace }
      | .access => after = [] ∧
          t = { s with status := Status.ofFault k, res := false, link := s.link.command t.link.trace }
      | .verify _ => after = [] ∧
          t = { s with status := Status.ofFault k, res := false, link := s.link.command t.link.trace }
      | .odAccess =>
          (∃ q, after = [⟨.setSpeed .normal, q⟩] ∧
            t = { s with status := Status.ofFault k, res := false, link := s.link.command t.link.trace }) ∨
          (after = [] ∧ c = .setSpeed .normal ∧
            (t.status = .noPresence ∨ t.status = .echoMismatch) ∧
            t = { s with status := t.status, res := false, link := s.link.command t.link.trace })
      | .exchange r _ => after = [] ∧
          (∀ j, t.bufByte j = if j < before.length - (if r then 1 else 0)
            then (s.answerAt ((if r then 1 else 0) + j)).byte else s.bufByte j) ∧
          t = { s with buf := t.buf, status := Status.ofFault k, res := false, link := s.link.command t.link.trace }

/-- R182: without the channel no link call answers a fault and neither fault status is written; with it, only
`reset()` answers `ShortCircuit`, and any call whose answer is a fault answers it. -/
def Obligations.LinkFaultsNeedTheChannel : Prop :=
  ∀ (i : Instr) (s : State), ∃ t, exec i s = .next t ∧
    (s.params.linkFaultChannel = false →
      (∀ e ∈ t.link.trace, e.isFault = false) ∧ t.status ≠ .shortCircuit ∧ t.status ≠ .adapterFault) ∧
    (∀ e ∈ t.link.trace, e.reply = .fault .shortCircuit → e.call = .reset) ∧
    (s.params.linkFaultChannel = true → ∀ j (h : j < t.link.trace.length),
      ((s.answerAt j).fault = some .adapterFault → t.link.trace[j].reply = .fault .adapterFault) ∧
      ((s.answerAt j).fault = some .shortCircuit → t.link.trace[j].call = .reset →
        t.link.trace[j].reply = .fault .shortCircuit))

/-! ## The host's ports (10_state.md section 5, 20_memory.md section 1) -/

/-- R24: the register port. A read changes nothing; what it answers is the map, and 0 at every other number. The
codes of `STATUS` are those of 60 R170, and those of `LD` those of 10 R15, each by name. -/
def Obligations.RegisterPortReadsTheMap : Prop :=
  ∀ (s : State) (number : Byte) (rest : List HostAccess), s.host = .readReg number :: rest →
    ∃ v, step s = .next { s with host := rest, readData := some v } ∧
      (number = 0x00 →
        (s.status = .ok → v = 0x00) ∧ (s.status = .noPresence → v = 0x01) ∧ (s.status = .shortCircuit → v = 0x02) ∧
        (s.status = .echoMismatch → v = 0x03) ∧ (s.status = .crcFailure → v = 0x04) ∧
        (s.status = .searchCorrupted → v = 0x05) ∧ (s.status = .adapterFault → v = 0x06) ∧
        (s.status = .endOfSearch → v = 0x07) ∧ (s.status = .lengthExceeded → v = 0x08) ∧
        (s.status = .illegalCommand → v = 0x09)) ∧
      (number = 0x01 → v.getLsbD 0 = s.ldf ∧ v.getLsbD 1 = s.res ∧ ∀ n, 2 ≤ n → v.getLsbD n = false) ∧
      (number = 0x02 →
        (∀ n, s.ld = .num n → v.toNat = n.val) ∧ (s.ld = .none → v = 0xFE) ∧ (s.ld = .resetSentinel → v = 0xFF)) ∧
      (number = 0x03 → v.toNat = s.lfd.val) ∧ (number = 0x04 → v = s.crc8) ∧
      (number = 0x06 → v = s.crc16.extractLsb' 0 8) ∧ (number = 0x07 → v = s.crc16.extractLsb' 8 8) ∧
      (∀ k < 8, number.toNat = 0x08 + k → v = addrByte s.addr k) ∧
      (number = 0x05 ∨ 0x10 ≤ number.toNat → v = 0x00)

/-- The buffer port (20 section 1): a read answers the byte and changes nothing, a write changes that byte only; out
of range the model stops (MODEL'S CHOICE, log 8). -/
def Obligations.BufferPortReadsAndWrites : Prop :=
  ∀ (s : State) (k : Nat) (rest : List HostAccess),
    (s.host = .readBuf k :: rest → k < s.params.maxBlockLen →
      step s = .next { s with host := rest, readData := some (s.bufByte k) }) ∧
    (∀ v : Byte, s.host = .writeBuf k v :: rest → k < s.params.maxBlockLen →
      ∃ t, step s = .next t ∧ (∀ j, t.bufByte j = if j = k then v else s.bufByte j) ∧
        t = { s with host := rest, buf := t.buf }) ∧
    ((s.host = .readBuf k :: rest ∨ ∃ v, s.host = .writeBuf k v :: rest) → s.params.maxBlockLen ≤ k →
      step s = .fault .bufIndexOutOfRange)
end

