-- ==== Sys2Proof/Laws/Address.lean ====
section
/-! SUPPORT. The bits and bytes of an address (spec 00 R6) and of the candidate path (41 R115). -/

namespace Sys2Proof.Machine

/-- Two addresses with the same 64 bits are the same. -/
theorem address_ext {x y : Address} (h : ∀ i < 64, abit x i = abit y i) : x = y :=
  BitVec.eq_of_getLsbD_eq h

@[simp] theorem abit_zero (i : Nat) : abit 0 i = false := by simp [abit]

theorem abit_setAbit (x : Address) {i : Nat} (hi : i < 64) (b : Bool) (j : Nat) :
    abit (setAbit x i b) j = if j = i then b else abit x j := by
  by_cases hj : j < 64
  · cases b <;> by_cases h : i = j <;> simp [setAbit, abit, hj, h, eq_comm]
  · have hne : j ≠ i := by omega
    simp [abit, hne, BitVec.getLsbD_of_ge _ _ (by omega : 64 ≤ j)]

theorem abit_lowBits (x : Address) {n : Nat} (hn : n ≤ 64) (j : Nat) :
    abit (lowBits x n) j = (decide (j < n) && abit x j) := by
  have h : (64 - n + j < 64) = (j < n) := by simp only [eq_iff_iff]; omega
  simp only [lowBits, abit, BitVec.getLsbD_and, BitVec.getLsbD_ushiftRight, BitVec.getLsbD_allOnes, h, Bool.and_comm]

/-- The candidate path bit by bit (R115), for a number in `LD`. -/
theorem abit_candidatePath_num (n : Fin 65) (x : Address) (j : Nat) :
    abit (candidatePath (.num n) x) j =
      if j + 1 < n.val then abit x j else decide (j + 1 = n.val) := by
  have hn : n.val ≤ 64 := by omega
  simp only [candidatePath]
  rw [abit_lowBits _ hn]
  by_cases h0 : 1 ≤ n.val
  · rw [if_pos h0, abit_setAbit x (by omega)]
    by_cases h1 : j + 1 < n.val
    · have h2 : j < n.val := by omega
      have h3 : j ≠ n.val - 1 := by omega
      simp [h1, h2, h3]
    · by_cases h2 : j + 1 = n.val
      · have h3 : j = n.val - 1 := by omega
        simp [h3, h0]
        omega
      · have h3 : ¬ j < n.val := by omega
        simp [h1, h2, h3]
  · have h1 : n.val = 0 := by omega
    simp [h1]

theorem addrByte_getLsbD (x : Address) (k i : Nat) :
    (addrByte x k).getLsbD i = (decide (i < 8) && abit x (8 * k + i)) := by
  simp [addrByte, abit, BitVec.getLsbD_extractLsb']

/-- R6: `abit(X, i) = X[i div 8][i mod 8]`. -/
theorem abit_eq_addrByte (x : Address) (i : Nat) : abit x i = (addrByte x (i / 8)).getLsbD (i % 8) := by
  rw [addrByte_getLsbD]
  have h : i % 8 < 8 := Nat.mod_lt _ (by omega)
  have e : 8 * (i / 8) + i % 8 = i := Nat.div_add_mod i 8
  simp [h, e]

/-- `ADDR[k] <- v` bit by bit. -/
theorem abit_setAddrByte (x : Address) {k : Nat} (hk : k < 8) (v : Byte) (j : Nat) :
    abit (setAddrByte x k v) j = if 8 * k ≤ j ∧ j < 8 * k + 8 then v.getLsbD (j - 8 * k) else abit x j := by
  by_cases hj : j < 64
  · simp only [setAddrByte, abit, BitVec.getLsbD_or, BitVec.getLsbD_and, BitVec.getLsbD_not, BitVec.getLsbD_shiftLeft,
      BitVec.getLsbD_setWidth, BitVec.getLsbD_allOnes, hj, decide_true, Bool.true_and]
    by_cases h1 : j < 8 * k
    · have : ¬ (8 * k ≤ j ∧ j < 8 * k + 8) := by omega
      simp [h1, this]
    · by_cases h2 : j - 8 * k < 8
      · have : 8 * k ≤ j ∧ j < 8 * k + 8 := by omega
        have h3 : j - 8 * k < 64 := by omega
        simp [h1, h2, h3, this]
      · have : ¬ (8 * k ≤ j ∧ j < 8 * k + 8) := by omega
        simp [h1, h2, this, BitVec.getLsbD_of_ge v _ (by omega : 8 ≤ j - 8 * k)]
  · have h1 : ¬ (8 * k ≤ j ∧ j < 8 * k + 8) := by omega
    rw [if_neg h1]
    simp [abit, BitVec.getLsbD_of_ge _ _ (by omega : 64 ≤ j)]

theorem addrByte_setAddrByte (x : Address) (k j : Fin 8) (v : Byte) :
    addrByte (setAddrByte x k.val v) j.val = if j = k then v else addrByte x j.val := by
  apply BitVec.eq_of_getLsbD_eq
  intro i hi
  have hi' : i < 8 := hi
  rw [addrByte_getLsbD, abit_setAddrByte x k.isLt]
  by_cases h : j = k
  · subst h
    have h1 : 8 * j.val ≤ 8 * j.val + i ∧ 8 * j.val + i < 8 * j.val + 8 := by omega
    simp [h1, hi']
  · have h0 : j.val ≠ k.val := fun e => h (Fin.ext e)
    have h1 : ¬ (8 * k.val ≤ 8 * j.val + i ∧ 8 * j.val + i < 8 * k.val + 8) := by omega
    simp only [h1, h, if_false, addrByte_getLsbD]

end Sys2Proof.Machine
end

