-- ==== Sys2Proof/Laws/State.lean ====
section
/-! SUPPORT. What each update of the state leaves in each field: one lemma per field per update, so that no proof
unfolds a record update. -/

namespace Sys2Proof.Machine

/-! ### `start` -/

@[simp] theorem State.start_addr (s : State) : s.start.addr = s.addr := rfl
@[simp] theorem State.start_ld (s : State) : s.start.ld = s.ld := rfl
@[simp] theorem State.start_lfd (s : State) : s.start.lfd = s.lfd := rfl
@[simp] theorem State.start_ldf (s : State) : s.start.ldf = s.ldf := rfl
@[simp] theorem State.start_crc8 (s : State) : s.start.crc8 = s.crc8 := rfl
@[simp] theorem State.start_crc16 (s : State) : s.start.crc16 = s.crc16 := rfl
@[simp] theorem State.start_status (s : State) : s.start.status = s.status := rfl
@[simp] theorem State.start_res (s : State) : s.start.res = s.res := rfl
@[simp] theorem State.start_buf (s : State) : s.start.buf = s.buf := rfl
@[simp] theorem State.start_params (s : State) : s.start.params = s.params := rfl
@[simp] theorem State.start_link (s : State) : s.start.link = { s.link with trace := [] } := rfl
@[simp] theorem State.start_host (s : State) : s.start.host = s.host := rfl
@[simp] theorem State.start_readData (s : State) : s.start.readData = s.readData := rfl
@[simp] theorem State.start_resets (s : State) : s.start.resets = s.resets := rfl

/-! ### `setLink` -/

@[simp] theorem State.setLink_addr (l : Link) (s : State) : (s.setLink l).addr = s.addr := rfl
@[simp] theorem State.setLink_ld (l : Link) (s : State) : (s.setLink l).ld = s.ld := rfl
@[simp] theorem State.setLink_lfd (l : Link) (s : State) : (s.setLink l).lfd = s.lfd := rfl
@[simp] theorem State.setLink_ldf (l : Link) (s : State) : (s.setLink l).ldf = s.ldf := rfl
@[simp] theorem State.setLink_crc8 (l : Link) (s : State) : (s.setLink l).crc8 = s.crc8 := rfl
@[simp] theorem State.setLink_crc16 (l : Link) (s : State) : (s.setLink l).crc16 = s.crc16 := rfl
@[simp] theorem State.setLink_status (l : Link) (s : State) : (s.setLink l).status = s.status := rfl
@[simp] theorem State.setLink_res (l : Link) (s : State) : (s.setLink l).res = s.res := rfl
@[simp] theorem State.setLink_buf (l : Link) (s : State) : (s.setLink l).buf = s.buf := rfl
@[simp] theorem State.setLink_params (l : Link) (s : State) : (s.setLink l).params = s.params := rfl
@[simp] theorem State.setLink_link (l : Link) (s : State) : (s.setLink l).link = l := rfl
@[simp] theorem State.setLink_host (l : Link) (s : State) : (s.setLink l).host = s.host := rfl
@[simp] theorem State.setLink_readData (l : Link) (s : State) : (s.setLink l).readData = s.readData := rfl
@[simp] theorem State.setLink_resets (l : Link) (s : State) : (s.setLink l).resets = s.resets := rfl

/-! ### `setSearch` -/

@[simp] theorem State.setSearch_addr (ld : Discrepancy) (lfd : Fin 65) (ldf : Bool) (s : State) : (s.setSearch ld lfd ldf).addr = s.addr := rfl
@[simp] theorem State.setSearch_ld (ld : Discrepancy) (lfd : Fin 65) (ldf : Bool) (s : State) : (s.setSearch ld lfd ldf).ld = ld := rfl
@[simp] theorem State.setSearch_lfd (ld : Discrepancy) (lfd : Fin 65) (ldf : Bool) (s : State) : (s.setSearch ld lfd ldf).lfd = lfd := rfl
@[simp] theorem State.setSearch_ldf (ld : Discrepancy) (lfd : Fin 65) (ldf : Bool) (s : State) : (s.setSearch ld lfd ldf).ldf = ldf := rfl
@[simp] theorem State.setSearch_crc8 (ld : Discrepancy) (lfd : Fin 65) (ldf : Bool) (s : State) : (s.setSearch ld lfd ldf).crc8 = s.crc8 := rfl
@[simp] theorem State.setSearch_crc16 (ld : Discrepancy) (lfd : Fin 65) (ldf : Bool) (s : State) : (s.setSearch ld lfd ldf).crc16 = s.crc16 := rfl
@[simp] theorem State.setSearch_status (ld : Discrepancy) (lfd : Fin 65) (ldf : Bool) (s : State) : (s.setSearch ld lfd ldf).status = s.status := rfl
@[simp] theorem State.setSearch_res (ld : Discrepancy) (lfd : Fin 65) (ldf : Bool) (s : State) : (s.setSearch ld lfd ldf).res = s.res := rfl
@[simp] theorem State.setSearch_buf (ld : Discrepancy) (lfd : Fin 65) (ldf : Bool) (s : State) : (s.setSearch ld lfd ldf).buf = s.buf := rfl
@[simp] theorem State.setSearch_params (ld : Discrepancy) (lfd : Fin 65) (ldf : Bool) (s : State) : (s.setSearch ld lfd ldf).params = s.params := rfl
@[simp] theorem State.setSearch_link (ld : Discrepancy) (lfd : Fin 65) (ldf : Bool) (s : State) : (s.setSearch ld lfd ldf).link = s.link := rfl
@[simp] theorem State.setSearch_host (ld : Discrepancy) (lfd : Fin 65) (ldf : Bool) (s : State) : (s.setSearch ld lfd ldf).host = s.host := rfl
@[simp] theorem State.setSearch_readData (ld : Discrepancy) (lfd : Fin 65) (ldf : Bool) (s : State) : (s.setSearch ld lfd ldf).readData = s.readData := rfl
@[simp] theorem State.setSearch_resets (ld : Discrepancy) (lfd : Fin 65) (ldf : Bool) (s : State) : (s.setSearch ld lfd ldf).resets = s.resets := rfl

/-! ### `setAddr` -/

@[simp] theorem State.setAddr_addr (x : Address) (s : State) : (s.setAddr x).addr = x := rfl
@[simp] theorem State.setAddr_ld (x : Address) (s : State) : (s.setAddr x).ld = s.ld := rfl
@[simp] theorem State.setAddr_lfd (x : Address) (s : State) : (s.setAddr x).lfd = s.lfd := rfl
@[simp] theorem State.setAddr_ldf (x : Address) (s : State) : (s.setAddr x).ldf = s.ldf := rfl
@[simp] theorem State.setAddr_crc8 (x : Address) (s : State) : (s.setAddr x).crc8 = s.crc8 := rfl
@[simp] theorem State.setAddr_crc16 (x : Address) (s : State) : (s.setAddr x).crc16 = s.crc16 := rfl
@[simp] theorem State.setAddr_status (x : Address) (s : State) : (s.setAddr x).status = s.status := rfl
@[simp] theorem State.setAddr_res (x : Address) (s : State) : (s.setAddr x).res = s.res := rfl
@[simp] theorem State.setAddr_buf (x : Address) (s : State) : (s.setAddr x).buf = s.buf := rfl
@[simp] theorem State.setAddr_params (x : Address) (s : State) : (s.setAddr x).params = s.params := rfl
@[simp] theorem State.setAddr_link (x : Address) (s : State) : (s.setAddr x).link = s.link := rfl
@[simp] theorem State.setAddr_host (x : Address) (s : State) : (s.setAddr x).host = s.host := rfl
@[simp] theorem State.setAddr_readData (x : Address) (s : State) : (s.setAddr x).readData = s.readData := rfl
@[simp] theorem State.setAddr_resets (x : Address) (s : State) : (s.setAddr x).resets = s.resets := rfl

/-! ### `setCrc8` -/

@[simp] theorem State.setCrc8_addr (c : Byte) (s : State) : (s.setCrc8 c).addr = s.addr := rfl
@[simp] theorem State.setCrc8_ld (c : Byte) (s : State) : (s.setCrc8 c).ld = s.ld := rfl
@[simp] theorem State.setCrc8_lfd (c : Byte) (s : State) : (s.setCrc8 c).lfd = s.lfd := rfl
@[simp] theorem State.setCrc8_ldf (c : Byte) (s : State) : (s.setCrc8 c).ldf = s.ldf := rfl
@[simp] theorem State.setCrc8_crc8 (c : Byte) (s : State) : (s.setCrc8 c).crc8 = c := rfl
@[simp] theorem State.setCrc8_crc16 (c : Byte) (s : State) : (s.setCrc8 c).crc16 = s.crc16 := rfl
@[simp] theorem State.setCrc8_status (c : Byte) (s : State) : (s.setCrc8 c).status = s.status := rfl
@[simp] theorem State.setCrc8_res (c : Byte) (s : State) : (s.setCrc8 c).res = s.res := rfl
@[simp] theorem State.setCrc8_buf (c : Byte) (s : State) : (s.setCrc8 c).buf = s.buf := rfl
@[simp] theorem State.setCrc8_params (c : Byte) (s : State) : (s.setCrc8 c).params = s.params := rfl
@[simp] theorem State.setCrc8_link (c : Byte) (s : State) : (s.setCrc8 c).link = s.link := rfl
@[simp] theorem State.setCrc8_host (c : Byte) (s : State) : (s.setCrc8 c).host = s.host := rfl
@[simp] theorem State.setCrc8_readData (c : Byte) (s : State) : (s.setCrc8 c).readData = s.readData := rfl
@[simp] theorem State.setCrc8_resets (c : Byte) (s : State) : (s.setCrc8 c).resets = s.resets := rfl

/-! ### `setCrc16` -/

@[simp] theorem State.setCrc16_addr (c : Half) (s : State) : (s.setCrc16 c).addr = s.addr := rfl
@[simp] theorem State.setCrc16_ld (c : Half) (s : State) : (s.setCrc16 c).ld = s.ld := rfl
@[simp] theorem State.setCrc16_lfd (c : Half) (s : State) : (s.setCrc16 c).lfd = s.lfd := rfl
@[simp] theorem State.setCrc16_ldf (c : Half) (s : State) : (s.setCrc16 c).ldf = s.ldf := rfl
@[simp] theorem State.setCrc16_crc8 (c : Half) (s : State) : (s.setCrc16 c).crc8 = s.crc8 := rfl
@[simp] theorem State.setCrc16_crc16 (c : Half) (s : State) : (s.setCrc16 c).crc16 = c := rfl
@[simp] theorem State.setCrc16_status (c : Half) (s : State) : (s.setCrc16 c).status = s.status := rfl
@[simp] theorem State.setCrc16_res (c : Half) (s : State) : (s.setCrc16 c).res = s.res := rfl
@[simp] theorem State.setCrc16_buf (c : Half) (s : State) : (s.setCrc16 c).buf = s.buf := rfl
@[simp] theorem State.setCrc16_params (c : Half) (s : State) : (s.setCrc16 c).params = s.params := rfl
@[simp] theorem State.setCrc16_link (c : Half) (s : State) : (s.setCrc16 c).link = s.link := rfl
@[simp] theorem State.setCrc16_host (c : Half) (s : State) : (s.setCrc16 c).host = s.host := rfl
@[simp] theorem State.setCrc16_readData (c : Half) (s : State) : (s.setCrc16 c).readData = s.readData := rfl
@[simp] theorem State.setCrc16_resets (c : Half) (s : State) : (s.setCrc16 c).resets = s.resets := rfl

/-! ### `setBuf` -/

@[simp] theorem State.setBuf_addr (m : Memory) (s : State) : (s.setBuf m).addr = s.addr := rfl
@[simp] theorem State.setBuf_ld (m : Memory) (s : State) : (s.setBuf m).ld = s.ld := rfl
@[simp] theorem State.setBuf_lfd (m : Memory) (s : State) : (s.setBuf m).lfd = s.lfd := rfl
@[simp] theorem State.setBuf_ldf (m : Memory) (s : State) : (s.setBuf m).ldf = s.ldf := rfl
@[simp] theorem State.setBuf_crc8 (m : Memory) (s : State) : (s.setBuf m).crc8 = s.crc8 := rfl
@[simp] theorem State.setBuf_crc16 (m : Memory) (s : State) : (s.setBuf m).crc16 = s.crc16 := rfl
@[simp] theorem State.setBuf_status (m : Memory) (s : State) : (s.setBuf m).status = s.status := rfl
@[simp] theorem State.setBuf_res (m : Memory) (s : State) : (s.setBuf m).res = s.res := rfl
@[simp] theorem State.setBuf_buf (m : Memory) (s : State) : (s.setBuf m).buf = m := rfl
@[simp] theorem State.setBuf_params (m : Memory) (s : State) : (s.setBuf m).params = s.params := rfl
@[simp] theorem State.setBuf_link (m : Memory) (s : State) : (s.setBuf m).link = s.link := rfl
@[simp] theorem State.setBuf_host (m : Memory) (s : State) : (s.setBuf m).host = s.host := rfl
@[simp] theorem State.setBuf_readData (m : Memory) (s : State) : (s.setBuf m).readData = s.readData := rfl
@[simp] theorem State.setBuf_resets (m : Memory) (s : State) : (s.setBuf m).resets = s.resets := rfl

/-! ### `ssEmpty` -/

@[simp] theorem State.ssEmpty_addr (s : State) : s.ssEmpty.addr = 0 := rfl
@[simp] theorem State.ssEmpty_ld (s : State) : s.ssEmpty.ld = .resetSentinel := rfl
@[simp] theorem State.ssEmpty_lfd (s : State) : s.ssEmpty.lfd = 0 := rfl
@[simp] theorem State.ssEmpty_ldf (s : State) : s.ssEmpty.ldf = false := rfl
@[simp] theorem State.ssEmpty_crc8 (s : State) : s.ssEmpty.crc8 = s.crc8 := rfl
@[simp] theorem State.ssEmpty_crc16 (s : State) : s.ssEmpty.crc16 = s.crc16 := rfl
@[simp] theorem State.ssEmpty_status (s : State) : s.ssEmpty.status = s.status := rfl
@[simp] theorem State.ssEmpty_res (s : State) : s.ssEmpty.res = s.res := rfl
@[simp] theorem State.ssEmpty_buf (s : State) : s.ssEmpty.buf = s.buf := rfl
@[simp] theorem State.ssEmpty_params (s : State) : s.ssEmpty.params = s.params := rfl
@[simp] theorem State.ssEmpty_link (s : State) : s.ssEmpty.link = s.link := rfl
@[simp] theorem State.ssEmpty_host (s : State) : s.ssEmpty.host = s.host := rfl
@[simp] theorem State.ssEmpty_readData (s : State) : s.ssEmpty.readData = s.readData := rfl
@[simp] theorem State.ssEmpty_resets (s : State) : s.ssEmpty.resets = s.resets := rfl

/-! ### `finish` -/

@[simp] theorem State.finish_addr (st : Status) (b : Bool) (s : State) : (s.finish st b).addr = s.addr := rfl
@[simp] theorem State.finish_ld (st : Status) (b : Bool) (s : State) : (s.finish st b).ld = s.ld := rfl
@[simp] theorem State.finish_lfd (st : Status) (b : Bool) (s : State) : (s.finish st b).lfd = s.lfd := rfl
@[simp] theorem State.finish_ldf (st : Status) (b : Bool) (s : State) : (s.finish st b).ldf = s.ldf := rfl
@[simp] theorem State.finish_crc8 (st : Status) (b : Bool) (s : State) : (s.finish st b).crc8 = s.crc8 := rfl
@[simp] theorem State.finish_crc16 (st : Status) (b : Bool) (s : State) : (s.finish st b).crc16 = s.crc16 := rfl
@[simp] theorem State.finish_status (st : Status) (b : Bool) (s : State) : (s.finish st b).status = st := rfl
@[simp] theorem State.finish_res (st : Status) (b : Bool) (s : State) : (s.finish st b).res = b := rfl
@[simp] theorem State.finish_buf (st : Status) (b : Bool) (s : State) : (s.finish st b).buf = s.buf := rfl
@[simp] theorem State.finish_params (st : Status) (b : Bool) (s : State) : (s.finish st b).params = s.params := rfl
@[simp] theorem State.finish_link (st : Status) (b : Bool) (s : State) : (s.finish st b).link = s.link := rfl
@[simp] theorem State.finish_host (st : Status) (b : Bool) (s : State) : (s.finish st b).host = s.host := rfl
@[simp] theorem State.finish_readData (st : Status) (b : Bool) (s : State) : (s.finish st b).readData = s.readData := rfl
@[simp] theorem State.finish_resets (st : Status) (b : Bool) (s : State) : (s.finish st b).resets = s.resets := rfl

/-! ### `done` -/

@[simp] theorem State.done_addr (s : State) : s.done.addr = s.addr := rfl
@[simp] theorem State.done_ld (s : State) : s.done.ld = s.ld := rfl
@[simp] theorem State.done_lfd (s : State) : s.done.lfd = s.lfd := rfl
@[simp] theorem State.done_ldf (s : State) : s.done.ldf = s.ldf := rfl
@[simp] theorem State.done_crc8 (s : State) : s.done.crc8 = s.crc8 := rfl
@[simp] theorem State.done_crc16 (s : State) : s.done.crc16 = s.crc16 := rfl
@[simp] theorem State.done_status (s : State) : s.done.status = .ok := rfl
@[simp] theorem State.done_res (s : State) : s.done.res = true := rfl
@[simp] theorem State.done_buf (s : State) : s.done.buf = s.buf := rfl
@[simp] theorem State.done_params (s : State) : s.done.params = s.params := rfl
@[simp] theorem State.done_link (s : State) : s.done.link = s.link := rfl
@[simp] theorem State.done_host (s : State) : s.done.host = s.host := rfl
@[simp] theorem State.done_readData (s : State) : s.done.readData = s.readData := rfl
@[simp] theorem State.done_resets (s : State) : s.done.resets = s.resets := rfl

/-! ### `fail` -/

@[simp] theorem State.fail_addr (st : Status) (s : State) : (s.fail st).addr = s.addr := rfl
@[simp] theorem State.fail_ld (st : Status) (s : State) : (s.fail st).ld = s.ld := rfl
@[simp] theorem State.fail_lfd (st : Status) (s : State) : (s.fail st).lfd = s.lfd := rfl
@[simp] theorem State.fail_ldf (st : Status) (s : State) : (s.fail st).ldf = s.ldf := rfl
@[simp] theorem State.fail_crc8 (st : Status) (s : State) : (s.fail st).crc8 = s.crc8 := rfl
@[simp] theorem State.fail_crc16 (st : Status) (s : State) : (s.fail st).crc16 = s.crc16 := rfl
@[simp] theorem State.fail_status (st : Status) (s : State) : (s.fail st).status = st := rfl
@[simp] theorem State.fail_res (st : Status) (s : State) : (s.fail st).res = false := rfl
@[simp] theorem State.fail_buf (st : Status) (s : State) : (s.fail st).buf = s.buf := rfl
@[simp] theorem State.fail_params (st : Status) (s : State) : (s.fail st).params = s.params := rfl
@[simp] theorem State.fail_link (st : Status) (s : State) : (s.fail st).link = s.link := rfl
@[simp] theorem State.fail_host (st : Status) (s : State) : (s.fail st).host = s.host := rfl
@[simp] theorem State.fail_readData (st : Status) (s : State) : (s.fail st).readData = s.readData := rfl
@[simp] theorem State.fail_resets (st : Status) (s : State) : (s.fail st).resets = s.resets := rfl

/-! ### `endWith` -/

@[simp] theorem State.endWith_addr (st : Status) (s : State) : (s.endWith st).addr = s.addr := rfl
@[simp] theorem State.endWith_ld (st : Status) (s : State) : (s.endWith st).ld = s.ld := rfl
@[simp] theorem State.endWith_lfd (st : Status) (s : State) : (s.endWith st).lfd = s.lfd := rfl
@[simp] theorem State.endWith_ldf (st : Status) (s : State) : (s.endWith st).ldf = s.ldf := rfl
@[simp] theorem State.endWith_crc8 (st : Status) (s : State) : (s.endWith st).crc8 = s.crc8 := rfl
@[simp] theorem State.endWith_crc16 (st : Status) (s : State) : (s.endWith st).crc16 = s.crc16 := rfl
@[simp] theorem State.endWith_status (st : Status) (s : State) : (s.endWith st).status = st := rfl
@[simp] theorem State.endWith_res (st : Status) (s : State) : (s.endWith st).res = resOf st := rfl
@[simp] theorem State.endWith_buf (st : Status) (s : State) : (s.endWith st).buf = s.buf := rfl
@[simp] theorem State.endWith_params (st : Status) (s : State) : (s.endWith st).params = s.params := rfl
@[simp] theorem State.endWith_link (st : Status) (s : State) : (s.endWith st).link = s.link := rfl
@[simp] theorem State.endWith_host (st : Status) (s : State) : (s.endWith st).host = s.host := rfl
@[simp] theorem State.endWith_readData (st : Status) (s : State) : (s.endWith st).readData = s.readData := rfl
@[simp] theorem State.endWith_resets (st : Status) (s : State) : (s.endWith st).resets = s.resets := rfl

/-! ### The reset state -/

@[simp] theorem State.reset_addr : State.reset.addr = 0 := rfl
@[simp] theorem State.reset_ld : State.reset.ld = .resetSentinel := rfl
@[simp] theorem State.reset_lfd : State.reset.lfd = 0 := rfl
@[simp] theorem State.reset_ldf : State.reset.ldf = false := rfl
@[simp] theorem State.reset_crc8 : State.reset.crc8 = 0 := rfl
@[simp] theorem State.reset_crc16 : State.reset.crc16 = 0 := rfl
@[simp] theorem State.reset_status : State.reset.status = .ok := rfl
@[simp] theorem State.reset_res : State.reset.res = false := rfl
@[simp] theorem State.reset_buf : State.reset.buf = [] := rfl
@[simp] theorem State.reset_params : State.reset.params = Config.params := rfl
@[simp] theorem State.reset_host : State.reset.host = [] := rfl

/-! ### Hardware reset -/

@[simp] theorem State.hardReset_addr (s : State) : s.hardReset.addr = 0 := rfl
@[simp] theorem State.hardReset_ld (s : State) : s.hardReset.ld = .resetSentinel := rfl
@[simp] theorem State.hardReset_lfd (s : State) : s.hardReset.lfd = 0 := rfl
@[simp] theorem State.hardReset_ldf (s : State) : s.hardReset.ldf = false := rfl
@[simp] theorem State.hardReset_crc8 (s : State) : s.hardReset.crc8 = 0 := rfl
@[simp] theorem State.hardReset_crc16 (s : State) : s.hardReset.crc16 = 0 := rfl
@[simp] theorem State.hardReset_status (s : State) : s.hardReset.status = .ok := rfl
@[simp] theorem State.hardReset_res (s : State) : s.hardReset.res = false := rfl
@[simp] theorem State.hardReset_buf (s : State) : s.hardReset.buf = [] := rfl
@[simp] theorem State.hardReset_params (s : State) : s.hardReset.params = s.params := rfl
@[simp] theorem State.hardReset_link (s : State) : s.hardReset.link = { s.link with trace := [] } := rfl
@[simp] theorem State.hardReset_host (s : State) : s.hardReset.host = s.host := rfl
@[simp] theorem State.hardReset_readData (s : State) : s.hardReset.readData = none := rfl
@[simp] theorem State.hardReset_resets (s : State) : s.hardReset.resets = s.resets + 1 := rfl
@[simp] theorem State.cutAfter_addr (n : Nat) (s t : State) : (s.cutAfter n t).addr = s.hardReset.addr := rfl
@[simp] theorem State.cutAfter_ld (n : Nat) (s t : State) : (s.cutAfter n t).ld = s.hardReset.ld := rfl
@[simp] theorem State.cutAfter_lfd (n : Nat) (s t : State) : (s.cutAfter n t).lfd = s.hardReset.lfd := rfl
@[simp] theorem State.cutAfter_ldf (n : Nat) (s t : State) : (s.cutAfter n t).ldf = s.hardReset.ldf := rfl
@[simp] theorem State.cutAfter_crc8 (n : Nat) (s t : State) : (s.cutAfter n t).crc8 = s.hardReset.crc8 := rfl
@[simp] theorem State.cutAfter_crc16 (n : Nat) (s t : State) : (s.cutAfter n t).crc16 = s.hardReset.crc16 := rfl
@[simp] theorem State.cutAfter_status (n : Nat) (s t : State) : (s.cutAfter n t).status = s.hardReset.status := rfl
@[simp] theorem State.cutAfter_res (n : Nat) (s t : State) : (s.cutAfter n t).res = s.hardReset.res := rfl
@[simp] theorem State.cutAfter_buf (n : Nat) (s t : State) : (s.cutAfter n t).buf = s.hardReset.buf := rfl
@[simp] theorem State.cutAfter_params (n : Nat) (s t : State) : (s.cutAfter n t).params = s.hardReset.params := rfl
@[simp] theorem State.cutAfter_host (n : Nat) (s t : State) : (s.cutAfter n t).host = s.hardReset.host := rfl
@[simp] theorem State.cutAfter_readData (n : Nat) (s t : State) : (s.cutAfter n t).readData = s.hardReset.readData := rfl
@[simp] theorem State.cutAfter_resets (n : Nat) (s t : State) : (s.cutAfter n t).resets = s.hardReset.resets := rfl

end Sys2Proof.Machine
end

