-- ==== Sys2Proof/Laws/Link.lean ====
section
/-! SUPPORT. The laws of link calls (spec 20 R50 to R52, R58; 60 R182, R183): what one call does, what a sequence of
calls does, and what every sequence has in common: it uses one answer for one event, and a fault ends it. -/

namespace Sys2Proof.Machine

/-! ## Answers -/

theorem Link.nextAnswer_eq (l : Link) : l.nextAnswer = l.answerAt 0 := by
  cases l with | mk as c tr => cases as <;> rfl

@[simp] theorem Link.advance_nil (l : Link) : l.advance [] = l := by simp [Link.advance]

theorem Link.log_eq_advance (l : Link) (c : LinkCall) (r : Reply) : l.log c r = l.advance [⟨c, r⟩] := by
  simp [Link.log, Link.advance]

theorem Link.advance_append (l : Link) (es fs : List LinkEvent) :
    (l.advance es).advance fs = l.advance (es ++ fs) := by
  simp [Link.advance, List.drop_drop, Nat.add_assoc]

@[simp] theorem Link.advance_trace (l : Link) (es : List LinkEvent) : (l.advance es).trace = l.trace ++ es := rfl

@[simp] theorem Link.answerAt_advance (l : Link) (es : List LinkEvent) (j : Nat) :
    (l.advance es).answerAt j = l.answerAt (es.length + j) := by
  simp [Link.answerAt, Link.advance, Nat.add_assoc]

@[simp] theorem Link.answerAt_log (l : Link) (c : LinkCall) (r : Reply) (j : Nat) :
    (l.log c r).answerAt j = l.answerAt (j + 1) := by
  rw [Link.log_eq_advance, Link.answerAt_advance, Nat.add_comm]
  rfl

/-- The trace plays no part in the answers. -/
@[simp] theorem State.start_answerAt (s : State) (j : Nat) : s.start.link.answerAt j = s.answerAt j := rfl

/-! ## Quiet links -/

theorem Link.Quiet.mono {p : Params} {l : Link} {m n : Nat} (h : l.Quiet p n) (hm : m ≤ n) : l.Quiet p m :=
  h.imp id fun h j hj => h j (Nat.lt_of_lt_of_le hj hm)

theorem Link.Quiet.advance {p : Params} {l : Link} {n : Nat} {es : List LinkEvent}
    (h : l.Quiet p (es.length + n)) : (l.advance es).Quiet p n :=
  h.imp id fun h j hj => by rw [Link.answerAt_advance]; exact h _ (Nat.add_lt_add_left hj _)

theorem Link.Quiet.log {p : Params} {l : Link} {n : Nat} (c : LinkCall) (r : Reply) (h : l.Quiet p (n + 1)) :
    (l.log c r).Quiet p n :=
  h.imp id fun h j hj => by rw [Link.answerAt_log]; exact h _ (Nat.succ_lt_succ hj)

theorem State.Quiet.start {s : State} {n : Nat} (h : s.Quiet n) : s.start.link.Quiet s.params n := h

theorem faultOf_of_channel_off {p : Params} (h : p.linkFaultChannel = false) (c : LinkCall) (a : Answer) :
    faultOf p c a = none := by simp [faultOf, h]

theorem faultOf_of_no_fault (p : Params) (c : LinkCall) {a : Answer} (h : a.fault = none) : faultOf p c a = none := by
  simp [faultOf, h]

theorem Link.Quiet.faultOf {p : Params} {l : Link} {n : Nat} (h : l.Quiet p n) (hn : 1 ≤ n) (c : LinkCall) :
    faultOf p c l.nextAnswer = none := by
  rw [Link.nextAnswer_eq]
  rcases h with h | h
  · exact faultOf_of_channel_off h c _
  · exact faultOf_of_no_fault p c (h 0 hn)

/-! ## One call -/

theorem ask_of_quiet {α : Type} {p : Params} {c : LinkCall} {value : Answer → α} {reply : α → Reply} {l : Link}
    (h : l.Quiet p 1) :
    ask p c value reply l = (.ok (value (l.answerAt 0)), l.log c (reply (value (l.answerAt 0)))) := by
  have hf := h.faultOf (Nat.le_refl 1) c
  rw [Link.nextAnswer_eq] at hf
  simp only [ask, Link.nextAnswer_eq, hf]

theorem linkReset_of_quiet {p : Params} {l : Link} (h : l.Quiet p 1) :
    linkReset p l = (.ok (l.answerAt 0).presence, l.log .reset (.presence (l.answerAt 0).presence)) := ask_of_quiet h

theorem readBit_of_quiet {p : Params} {l : Link} (h : l.Quiet p 1) :
    readBit p l = (.ok (l.answerAt 0).bit, l.log .readBit (.bit (l.answerAt 0).bit)) := ask_of_quiet h

theorem writeBit_of_quiet {p : Params} {l : Link} (h : l.Quiet p 1) (b : Bool) :
    writeBit p b l = (.ok (), l.log (.writeBit b) .nothing) := ask_of_quiet h

theorem touchByte_of_quiet {p : Params} {l : Link} (h : l.Quiet p 1) (v : Byte) :
    touchByte p v l = (.ok (l.answerAt 0).byte, l.log (.touchByte v) (.byte (l.answerAt 0).byte)) := ask_of_quiet h

theorem setSpeed_of_quiet {p : Params} {l : Link} (h : l.Quiet p 1) (v : Speed) :
    setSpeed p v l = (.ok (l.answerAt 0).speed, l.log (.setSpeed v) (.speed (l.answerAt 0).speed)) := ask_of_quiet h

/-! ## Sequences -/

@[simp] theorem LinkOp.done_apply {α : Type} (x : α) (l : Link) : LinkOp.done x l = (.ok x, l) := rfl

theorem LinkOp.andThen_ok {α β : Type} {m : LinkOp α} {f : α → LinkOp β} {l l' : Link} {x : α}
    (h : m l = (.ok x, l')) : m.andThen f l = f x l' := by simp [LinkOp.andThen, h]

theorem LinkOp.andThen_error {α β : Type} {m : LinkOp α} {f : α → LinkOp β} {l l' : Link} {k : LinkFault}
    (h : m l = (.error k, l')) : m.andThen f l = (.error k, l') := by simp [LinkOp.andThen, h]

/-- A sequence that came to a value: its first piece did, and so did the rest. -/
theorem LinkOp.of_andThen_ok {α β : Type} {m : LinkOp α} {f : α → LinkOp β} {l : Link} {y : β}
    (h : (m.andThen f l).1 = .ok y) : ∃ x l', m l = (.ok x, l') ∧ (f x l').1 = .ok y := by
  rcases hm : m l with ⟨k | x, l'⟩
  · rw [LinkOp.andThen_error hm] at h
    cases h
  · rw [LinkOp.andThen_ok hm] at h
    exact ⟨x, l', rfl, h⟩

/-- What every sequence of link calls has done when it ends: the events `es`, at most `n`, of calls in `C`, one
answer used for each and shown by it; without a fault if the sequence came to a value, and with a fault at its
last event, and there only, if it did not. -/
structure LinkOp.Made {α : Type} (p : Params) (C : LinkCall → Prop) (n : Nat) (l : Link)
    (o : Except LinkFault α × Link) (es : List LinkEvent) : Prop where
  link    : o.2 = l.advance es
  bound   : es.length ≤ n
  calls   : ∀ e ∈ es, C e.call
  replies : ∀ j (h : j < es.length), es[j].reply = replyOf p es[j].call (l.answerAt j)
  value   : ∀ x, o.1 = .ok x → ∀ e ∈ es, e.isFault = false
  fault   : ∀ k, o.1 = .error k → ∃ fs c, es = fs ++ [⟨c, .fault k⟩] ∧ ∀ e ∈ fs, e.isFault = false

/-- A sequence makes at most `n` link calls, all of them in `C`. -/
def LinkOp.Makes {α : Type} (p : Params) (C : LinkCall → Prop) (n : Nat) (m : LinkOp α) : Prop :=
  ∀ l, ∃ es, LinkOp.Made p C n l (m l) es

theorem LinkOp.Makes.mono {α : Type} {p : Params} {C D : LinkCall → Prop} {n k : Nat} {m : LinkOp α}
    (h : LinkOp.Makes p C n m) (hn : n ≤ k) (hC : ∀ c, C c → D c) : LinkOp.Makes p D k m := fun l =>
  let ⟨es, h⟩ := h l
  ⟨es, { h with bound := Nat.le_trans h.bound hn, calls := fun e he => hC _ (h.calls e he) }⟩

theorem LinkOp.makes_done {α : Type} (p : Params) (C : LinkCall → Prop) (x : α) :
    LinkOp.Makes p C 0 (LinkOp.done x) := fun l =>
  ⟨[], by simp, by simp, by simp, by simp, by simp, by simp⟩

theorem LinkOp.makes_ask {α : Type} (p : Params) {C : LinkCall → Prop} {c : LinkCall} (hc : C c) (value : Answer → α)
    (reply : α → Reply)
    (hr : ∀ a, faultOf p c a = none → replyOf p c a = reply (value a))
    (hf : ∀ x, LinkEvent.isFault ⟨c, reply x⟩ = false) :
    LinkOp.Makes p C 1 (ask p c value reply) := by
  intro l
  cases h : Sys2Proof.Machine.faultOf p c l.nextAnswer with
  | none =>
    refine ⟨[⟨c, reply (value l.nextAnswer)⟩], ?_, by simp, by simpa using hc, ?_, ?_, ?_⟩
    · simp [ask, h, Link.log_eq_advance]
    · intro j hj
      have : j = 0 := by simpa using hj
      subst this
      rw [← Link.nextAnswer_eq, List.getElem_cons_zero, hr _ h]
    · intro x _ e he
      rw [List.mem_singleton.1 he]
      exact hf _
    · intro k hk
      simp [ask, h] at hk
  | some k =>
    refine ⟨[⟨c, .fault k⟩], ?_, by simp, by simpa using hc, ?_, ?_, ?_⟩
    · simp [ask, h, Link.log_eq_advance]
    · intro j hj
      have : j = 0 := by simpa using hj
      subst this
      simp [← Link.nextAnswer_eq, replyOf, h]
    · intro x hx
      simp [ask, h] at hx
    · intro k' hk
      have : k = k' := by simpa [ask, h] using hk
      subst this
      exact ⟨[], c, rfl, by simp⟩

theorem LinkOp.Made.append {α β : Type} {p : Params} {C : LinkCall → Prop} {n m : Nat} {l l' : Link} {x : α}
    {o : Except LinkFault β × Link} {es fs : List LinkEvent} (h : LinkOp.Made p C n l (.ok x, l') es)
    (g : LinkOp.Made p C m l' o fs) : LinkOp.Made p C (n + m) l o (es ++ fs) := by
  have hl : l' = l.advance es := h.link
  have hv := h.value x rfl
  refine ⟨?_, ?_, ?_, ?_, ?_, ?_⟩
  · rw [g.link, hl, Link.advance_append]
  · rw [List.length_append]; exact Nat.add_le_add h.bound g.bound
  · intro e he
    exact (List.mem_append.1 he).elim (h.calls e) (g.calls e)
  · intro j hj
    by_cases hj' : j < es.length
    · simpa [List.getElem_append, hj'] using h.replies j hj'
    · have hk : j - es.length < fs.length := by rw [List.length_append] at hj; omega
      have := g.replies (j - es.length) hk
      rw [hl, Link.answerAt_advance, Nat.add_sub_cancel' (Nat.le_of_not_lt hj')] at this
      simpa [List.getElem_append, hj'] using this
  · intro y hy e he
    exact (List.mem_append.1 he).elim (hv e) (g.value y hy e)
  · intro k hk
    obtain ⟨gs, c, rfl, hgs⟩ := g.fault k hk
    refine ⟨es ++ gs, c, by simp, fun e he => ?_⟩
    exact (List.mem_append.1 he).elim (hv e) (hgs e)

theorem LinkOp.makes_andThen {α β : Type} {p : Params} {C : LinkCall → Prop} {n k : Nat} {m : LinkOp α}
    {f : α → LinkOp β} (hm : LinkOp.Makes p C n m) (hf : ∀ x, LinkOp.Makes p C k (f x)) :
    LinkOp.Makes p C (n + k) (m.andThen f) := by
  intro l
  obtain ⟨es, h⟩ := hm l
  cases hml : m l with
  | mk r l' =>
    rw [hml] at h
    cases r with
    | ok x =>
      obtain ⟨fs, g⟩ := hf x l'
      rw [LinkOp.andThen_ok hml]
      exact ⟨es ++ fs, h.append g⟩
    | error q =>
      rw [LinkOp.andThen_error hml]
      refine ⟨es, h.link, Nat.le_trans h.bound (Nat.le_add_right n k), h.calls, h.replies, ?_, ?_⟩
      · intro x hx; cases hx
      · intro k' hk
        exact h.fault k' (by cases hk; rfl)

theorem makes_linkReset (p : Params) {C : LinkCall → Prop} (h : C .reset) : LinkOp.Makes p C 1 (linkReset p) :=
  LinkOp.makes_ask p h _ _ (fun a ha => by simp [replyOf, ha]) (fun _ => rfl)

theorem makes_readBit (p : Params) {C : LinkCall → Prop} (h : C .readBit) : LinkOp.Makes p C 1 (readBit p) :=
  LinkOp.makes_ask p h _ _ (fun a ha => by simp [replyOf, ha]) (fun _ => rfl)

theorem makes_writeBit (p : Params) {C : LinkCall → Prop} (b : Bool) (h : C (.writeBit b)) :
    LinkOp.Makes p C 1 (writeBit p b) :=
  LinkOp.makes_ask p h _ _ (fun a ha => by simp [replyOf, ha]) (fun _ => rfl)

theorem makes_touchByte (p : Params) {C : LinkCall → Prop} (v : Byte) (h : C (.touchByte v)) :
    LinkOp.Makes p C 1 (touchByte p v) :=
  LinkOp.makes_ask p h _ _ (fun a ha => by simp [replyOf, ha]) (fun _ => rfl)

theorem makes_setSpeed (p : Params) {C : LinkCall → Prop} (s : Speed) (h : C (.setSpeed s)) :
    LinkOp.Makes p C 1 (setSpeed p s) :=
  LinkOp.makes_ask p h _ _ (fun a ha => by simp [replyOf, ha]) (fun _ => rfl)

end Sys2Proof.Machine
end

