-- ==== Sys2Proof/Laws/Search.lean ====
section
/-! SUPPORT. The laws of a search pass (spec 41 R112 to R122): what it does as a function of the bits read, where it
stops, and what it finds on a bus of well-behaved devices. -/

namespace Sys2Proof.Machine

/-! ## Link calls of a search -/

theorem makes_passFrom (p : Params) {C : LinkCall → Prop} (hr : C .readBit) (hw : ∀ b, C (.writeBit b)) (hi : Nat) :
    ∀ (n i : Nat) (ps : Pass), LinkOp.Makes p C (3 * n) (passFrom p hi n i ps)
  | 0, _, ps => (LinkOp.makes_done p C (some ps)).mono (by omega) (fun _ h => h)
  | n + 1, i, ps => by
    have h : LinkOp.Makes p C (1 + (1 + (1 + 3 * n))) (passFrom p hi (n + 1) i ps) := by
      refine LinkOp.makes_andThen (makes_readBit p hr) fun a => LinkOp.makes_andThen (makes_readBit p hr) fun b => ?_
      by_cases hab : (a && b) = true
      · simp only [hab, if_true]
        exact (LinkOp.makes_done p C none).mono (by omega) (fun _ h => h)
      · simp only [hab]
        exact LinkOp.makes_andThen (makes_writeBit p _ (hw _)) fun _ => makes_passFrom p hr hw hi n (i + 1) _
    exact h.mono (by omega) (fun _ h => h)

theorem makes_searchReset (p : Params) {C : LinkCall → Prop} (r : Bool) (h : r = true → C .reset) (addr : Address) :
    LinkOp.Makes p C 2 (searchReset p r addr) := by
  unfold searchReset
  split
  · next hr =>
    split
    · exact LinkOp.makes_andThen (makes_linkReset p (h hr)) fun _ => makes_linkReset p (h hr)
    · exact (makes_linkReset p (h hr)).mono (by omega) (fun _ h => h)
  · exact (LinkOp.makes_done p C true).mono (by omega) (fun _ h => h)

theorem makes_searchPass (p : Params) {C : LinkCall → Prop} (hr : C .readBit) (hw : ∀ b, C (.writeBit b))
    (ht : ∀ v, C (.touchByte v)) (a : Bool) (addr : Address) (ld : Discrepancy) (lfd : Fin 65) :
    LinkOp.Makes p C 193 (searchPass p a addr ld lfd) :=
  LinkOp.makes_andThen (n := 1) (k := 192) (makes_touchByte p _ (ht _)) fun _ =>
    LinkOp.makes_andThen (n := 192) (k := 0) (makes_passFrom p hr hw _ 64 0 _) fun _ => LinkOp.makes_done p _ _

/-- A search makes at most 2 + 1 + 192 link calls (R130). -/
theorem makes_search (p : Params) {C : LinkCall → Prop} (r a : Bool) (hreset : r = true → C .reset) (hr : C .readBit)
    (hw : ∀ b, C (.writeBit b)) (ht : ∀ v, C (.touchByte v)) (addr : Address) (ld : Discrepancy) (lfd : Fin 65) :
    LinkOp.Makes p C 195 (search p r a addr ld lfd) := by
  refine LinkOp.makes_andThen (n := 2) (k := 193) (makes_searchReset p r hreset addr) fun presence => ?_
  split
  · exact makes_searchPass p hr hw ht a addr ld lfd
  · exact (LinkOp.makes_done p _ _).mono (by omega) (fun _ h => h)

/-! ## A pass from HI = 0 -/

/-- With `HI = 0` a pass never looks at the old path (R115): two candidates that agree below its first position give
one and the same pass. -/
theorem passFrom_forgets_path {p : Params} : ∀ {n i : Nat} {x y : Address} {ld : Discrepancy} {lfd : Fin 65},
    i + n = 64 → (∀ j < i, abit x j = abit y j) → passFrom p 0 n i ⟨x, ld, lfd⟩ = passFrom p 0 n i ⟨y, ld, lfd⟩
  | 0, i, x, y, ld, lfd, hn, h => by
    have e : x = y := address_ext fun j hj => h j (by omega)
    rw [e]
  | n + 1, i, x, y, ld, lfd, hn, h => by
    have hd : ∀ a b, direction 0 i x a b = direction 0 i y a b := fun a b => by simp [direction]
    simp only [passFrom, hd]
    congr 1; funext a; congr 1; funext b
    split
    · rfl
    · congr 1; funext _
      apply passFrom_forgets_path (by omega)
      intro j hj
      rw [abit_setAbit _ (by omega), abit_setAbit _ (by omega)]
      split
      · rfl
      · exact h j (by omega)

/-- So a search from 0, from `RESET_SENTINEL` or from `NONE` is the same search (R16, R18), and the old address plays
a part in its family test alone. -/
theorem searchPass_forgets {p : Params} {a : Bool} {x y : Address} {c d : Discrepancy} {lfd : Fin 65} (hc : c.hi = 0)
    (hd : d.hi = 0) : searchPass p a x c lfd = searchPass p a y d lfd := by
  unfold searchPass
  rw [hc, hd, passFrom_forgets_path (x := candidatePath c x) (y := candidatePath d y) rfl (by simp)]

/-! ## A pass as a function of the bits read -/

theorem direction_congr (hi i : Nat) {x y : Address} (h : abit x i = abit y i) (a b : Bool) :
    direction hi i x a b = direction hi i y a b := by simp [direction, h]

/-- The pass after `n` positions from `i` on, `A` and `B` being the bits read. -/
def passEnd (hi : Nat) (A B : Nat → Bool) : (n i : Nat) → Pass → Pass
  | 0, _, ps => ps
  | n + 1, i, ps => passEnd hi A B n (i + 1) (ps.advance i (A i) (B i) (direction hi i ps.cand (A i) (B i)))

/-- The events of position `j`, the bit driven being `d`. -/
def positionEvents (A B : Nat → Bool) (j : Nat) (d : Bool) : List LinkEvent :=
  [⟨.readBit, .bit (A j)⟩, ⟨.readBit, .bit (B j)⟩, ⟨.writeBit d, .nothing⟩]

/-- The events of `n` positions from `i` on. -/
def passEvents (hi : Nat) (A B : Nat → Bool) (cand : Address) (n i : Nat) : List LinkEvent :=
  (List.range' i n).flatMap fun j => positionEvents A B j (direction hi j cand (A j) (B j))

theorem passEvents_length (hi : Nat) (A B : Nat → Bool) (cand : Address) (n i : Nat) :
    (passEvents hi A B cand n i).length = 3 * n := by
  have h : ∀ j ∈ List.range' i n, (positionEvents A B j (direction hi j cand (A j) (B j))).length = 3 :=
    fun _ _ => rfl
  rw [passEvents, List.length_flatMap, List.map_congr_left h]
  simp [Nat.mul_comm]

theorem passEvents_congr (hi : Nat) (A B : Nat → Bool) {x y : Address} {n i : Nat}
    (h : ∀ j, i ≤ j → abit x j = abit y j) : passEvents hi A B x n i = passEvents hi A B y n i := by
  apply List.flatMap_congr
  intro j hj
  rw [direction_congr hi j (h j (List.mem_range'_1.1 hj).1)]

/-- One position of a pass, read as (A, B), not (1,1). -/
theorem passFrom_succ_of_quiet {p : Params} {hi n i : Nat} {ps : Pass} {l : Link} {a b : Bool} (hq : l.Quiet p 3)
    (ha : (l.answerAt 0).bit = a) (hb : (l.answerAt 1).bit = b) (hab : ¬ (a = true ∧ b = true)) :
    passFrom p hi (n + 1) i ps l =
      passFrom p hi n (i + 1) (ps.advance i a b (direction hi i ps.cand a b))
        (l.advance [⟨.readBit, .bit a⟩, ⟨.readBit, .bit b⟩, ⟨.writeBit (direction hi i ps.cand a b), .nothing⟩]) := by
  have h1 := readBit_of_quiet (hq.mono (by omega : 1 ≤ 3))
  rw [ha] at h1
  have h2 := readBit_of_quiet ((Link.Quiet.log .readBit (.bit a) hq).mono (by omega : 1 ≤ 2))
  rw [Link.answerAt_log, hb] at h2
  have h3 := writeBit_of_quiet (Link.Quiet.log .readBit (.bit b) (Link.Quiet.log .readBit (.bit a) hq))
    (direction hi i ps.cand a b)
  have hab' : (a && b) = false := by cases a <;> cases b <;> simp_all
  rw [passFrom, LinkOp.andThen_ok h1, LinkOp.andThen_ok h2]
  simp only [hab', Bool.false_eq_true, if_false]
  rw [LinkOp.andThen_ok h3]
  simp only [Link.log_eq_advance, Link.advance_append, List.cons_append, List.nil_append]

/-- A pass that never reads (1,1) comes to its end, and is a function of the bits read (R112 step 4). -/
theorem passFrom_of_quiet {p : Params} {hi : Nat} {A B : Nat → Bool} :
    ∀ {n i : Nat} {ps : Pass} {l : Link}, l.Quiet p (3 * n) →
      (∀ j < n, (l.answerAt (3 * j)).bit = A (i + j) ∧ (l.answerAt (3 * j + 1)).bit = B (i + j)) →
      (∀ j < n, ¬ (A (i + j) = true ∧ B (i + j) = true)) → i + n ≤ 64 →
      passFrom p hi n i ps l =
        (.ok (some (passEnd hi A B n i ps)), l.advance (passEvents hi A B ps.cand n i))
  | 0, i, ps, l, _, _, _, _ => by simp [passFrom, passEnd, passEvents]
  | n + 1, i, ps, l, hq, hread, hab, hn => by
    have h0 := hread 0 (by omega)
    rw [passFrom_succ_of_quiet (hq.mono (by omega)) (a := A i) (b := B i) h0.1 h0.2 (hab 0 (by omega))]
    rw [passFrom_of_quiet (A := A) (B := B)]
    · rw [Link.advance_append]
      have e : ∀ j, i + 1 ≤ j → abit (setAbit ps.cand i (direction hi i ps.cand (A i) (B i))) j = abit ps.cand j := by
        intro j hj
        rw [abit_setAbit _ (by omega), if_neg (by omega)]
      simp only [passEnd, Pass.advance]
      rw [passEvents_congr hi A B (n := n) e, passEvents, passEvents, List.range'_succ, List.flatMap_cons]
      rfl
    · exact Link.Quiet.advance (es := [_, _, _]) (hq.mono (by simp only [List.length_cons, List.length_nil]; omega))
    · intro j hj
      have := hread (j + 1) (by omega)
      simp only [Link.answerAt_advance, List.length_cons, List.length_nil]
      have e1 : 0 + 1 + 1 + 1 + 3 * j = 3 * (j + 1) := by omega
      have e2 : 0 + 1 + 1 + 1 + (3 * j + 1) = 3 * (j + 1) + 1 := by omega
      have e3 : i + 1 + j = i + (j + 1) := by omega
      rw [e1, e2, e3]
      exact this
    · intro j hj
      have e3 : i + 1 + j = i + (j + 1) := by omega
      rw [e3]
      exact hab (j + 1) (by omega)
    · omega

/-- The stop at (1,1) (R118): at once, and before any `writeBit` of that position. -/
theorem passFrom_stops {p : Params} {hi n i : Nat} {ps : Pass} {l : Link} (hq : l.Quiet p 2)
    (ha : (l.answerAt 0).bit = true) (hb : (l.answerAt 1).bit = true) :
    passFrom p hi (n + 1) i ps l =
      (.ok none, l.advance [⟨.readBit, .bit true⟩, ⟨.readBit, .bit true⟩]) := by
  have h1 := readBit_of_quiet (hq.mono (by omega : 1 ≤ 2))
  rw [ha] at h1
  have h2 := readBit_of_quiet (Link.Quiet.log .readBit (.bit true) hq)
  rw [Link.answerAt_log, hb] at h2
  rw [passFrom, LinkOp.andThen_ok h1, LinkOp.andThen_ok h2]
  simp only [Bool.and_self, if_true, LinkOp.done_apply, Link.log_eq_advance, Link.advance_append,
    List.cons_append, List.nil_append]

/-- A pass that reads (1,1) first at position `i + m` stops there (R118). -/
theorem passFrom_stops_at {p : Params} {hi : Nat} {A B : Nat → Bool} :
    ∀ {m n i : Nat} {ps : Pass} {l : Link}, m < n → l.Quiet p (3 * m + 2) →
      (∀ j ≤ m, (l.answerAt (3 * j)).bit = A (i + j) ∧ (l.answerAt (3 * j + 1)).bit = B (i + j)) →
      (∀ j < m, ¬ (A (i + j) = true ∧ B (i + j) = true)) → A (i + m) = true → B (i + m) = true → i + n ≤ 64 →
      passFrom p hi n i ps l =
        (.ok none, l.advance (passEvents hi A B ps.cand m i ++ [⟨.readBit, .bit true⟩, ⟨.readBit, .bit true⟩]))
  | 0, n + 1, i, ps, l, _, hq, hread, _, ha, hb, _ => by
    have h0 := hread 0 (Nat.le_refl 0)
    rw [passFrom_stops hq (h0.1.trans ha) (h0.2.trans hb)]
    simp [passEvents]
  | m + 1, n + 1, i, ps, l, hm, hq, hread, hab, ha, hb, hn => by
    have h0 := hread 0 (by omega)
    rw [passFrom_succ_of_quiet (hq.mono (by omega)) (a := A i) (b := B i) h0.1 h0.2 (hab 0 (by omega))]
    rw [passFrom_stops_at (A := A) (B := B) (m := m)]
    · rw [Link.advance_append]
      have e : ∀ j, i + 1 ≤ j → abit (setAbit ps.cand i (direction hi i ps.cand (A i) (B i))) j = abit ps.cand j := by
        intro j hj
        rw [abit_setAbit _ (by omega), if_neg (by omega)]
      simp only [Pass.advance]
      rw [passEvents_congr hi A B (n := m) e, passEvents, passEvents, List.range'_succ, List.flatMap_cons]
      rfl
    · omega
    · exact Link.Quiet.advance (es := [_, _, _]) (hq.mono (by simp only [List.length_cons, List.length_nil]; omega))
    · intro j hj
      have := hread (j + 1) (by omega)
      simp only [Link.answerAt_advance, List.length_cons, List.length_nil]
      have e1 : 0 + 1 + 1 + 1 + 3 * j = 3 * (j + 1) := by omega
      have e2 : 0 + 1 + 1 + 1 + (3 * j + 1) = 3 * (j + 1) + 1 := by omega
      have e3 : i + 1 + j = i + (j + 1) := by omega
      rw [e1, e2, e3]
      exact this
    · intro j hj
      have e3 : i + 1 + j = i + (j + 1) := by omega
      rw [e3]
      exact hab (j + 1) (by omega)
    · have e3 : i + 1 + m = i + (m + 1) := by omega
      rw [e3]; exact ha
    · have e3 : i + 1 + m = i + (m + 1) := by omega
      rw [e3]; exact hb
    · omega

/-! ## What a pass leaves -/

/-- The candidate bit by bit: the bit driven where a position was run (R120). -/
theorem abit_passEnd {hi : Nat} {A B : Nat → Bool} :
    ∀ {n i : Nat} {ps : Pass}, i + n ≤ 64 → ∀ j,
      abit (passEnd hi A B n i ps).cand j =
        if i ≤ j ∧ j < i + n then direction hi j ps.cand (A j) (B j) else abit ps.cand j
  | 0, i, ps, _, j => by
    have h0 : ¬ (i ≤ j ∧ j < i + 0) := by omega
    rw [if_neg h0]
    rfl
  | n + 1, i, ps, hn, j => by
    rw [passEnd, abit_passEnd (by omega)]
    simp only [Pass.advance]
    by_cases hj : i + 1 ≤ j ∧ j < i + 1 + n
    · have h1 : i ≤ j ∧ j < i + (n + 1) := by omega
      rw [if_pos hj, if_pos h1]
      apply direction_congr
      rw [abit_setAbit _ (by omega), if_neg (by omega)]
    · rw [if_neg hj, abit_setAbit _ (by omega)]
      by_cases hji : j = i
      · subst hji
        have h1 : j ≤ j ∧ j < j + (n + 1) := by omega
        simp [h1]
      · have h1 : ¬ (i ≤ j ∧ j < i + (n + 1)) := by omega
        simp [h1, hji]

/-- A discrepancy resolved to 0 at position `j` (R119): what a pass records. -/
def Records (hi : Nat) (A B : Nat → Bool) (cand : Address) (j : Nat) : Prop :=
  A j = B j ∧ direction hi j cand (A j) (B j) = false

/-- `LD` after a pass holds its last record (R119, R122). -/
theorem passEnd_ld {hi : Nat} {A B : Nat → Bool} :
    ∀ {n i : Nat} {ps : Pass}, i + n ≤ 64 →
      ((∀ j, i ≤ j → j < i + n → ¬ Records hi A B ps.cand j) ∧ (passEnd hi A B n i ps).ld = ps.ld) ∨
      ∃ m, i ≤ m ∧ m < i + n ∧ Records hi A B ps.cand m ∧
        (∀ j, m < j → j < i + n → ¬ Records hi A B ps.cand j) ∧
        (passEnd hi A B n i ps).ld = .num (Fin.ofNat 65 (m + 1))
  | 0, i, ps, _ => .inl ⟨fun j h1 h2 => by omega, rfl⟩
  | n + 1, i, ps, hn => by
    have hc : ∀ j, i < j → (Records hi A B (ps.advance i (A i) (B i) (direction hi i ps.cand (A i) (B i))).cand j ↔
        Records hi A B ps.cand j) := by
      intro j hj
      have : abit (setAbit ps.cand i (direction hi i ps.cand (A i) (B i))) j = abit ps.cand j := by
        rw [abit_setAbit _ (by omega), if_neg (by omega)]
      simp only [Records, Pass.advance, direction_congr hi j this]
    rcases passEnd_ld (hi := hi) (A := A) (B := B) (n := n) (i := i + 1)
      (ps := ps.advance i (A i) (B i) (direction hi i ps.cand (A i) (B i))) (by omega) with ⟨h1, h2⟩ | ⟨m, h1, h2, h3, h4, h5⟩
    · by_cases hr : Records hi A B ps.cand i
      · refine .inr ⟨i, Nat.le_refl i, by omega, hr, fun j hj hj' => ?_, ?_⟩
        · exact fun hrj => h1 j (by omega) (by omega) ((hc j hj).2 hrj)
        · rw [passEnd, h2, Pass.advance]
          simp only
          exact if_pos hr
      · refine .inl ⟨fun j hj hj' hrj => ?_, ?_⟩
        · rcases Nat.lt_or_ge i j with h | h
          · exact h1 j (by omega) (by omega) ((hc j h).2 hrj)
          · have : j = i := by omega
            exact hr (this ▸ hrj)
        · rw [passEnd, h2, Pass.advance]
          simp only
          exact if_neg hr
    · refine .inr ⟨m, by omega, by omega, (hc m (by omega)).1 h3, fun j hj hj' hrj => ?_, h5⟩
      exact h4 j hj (by omega) ((hc j (by omega)).2 hrj)

/-- `LFD` after a pass holds its last record at a position below 8, or what it held (R119, R122). -/
theorem passEnd_lfd {hi : Nat} {A B : Nat → Bool} :
    ∀ {n i : Nat} {ps : Pass}, i + n ≤ 64 →
      ((∀ j, i ≤ j → j < i + n → j < 8 → ¬ Records hi A B ps.cand j) ∧ (passEnd hi A B n i ps).lfd = ps.lfd) ∨
      ∃ m, i ≤ m ∧ m < i + n ∧ m < 8 ∧ Records hi A B ps.cand m ∧
        (∀ j, m < j → j < i + n → j < 8 → ¬ Records hi A B ps.cand j) ∧
        (passEnd hi A B n i ps).lfd = Fin.ofNat 65 (m + 1)
  | 0, i, ps, _ => .inl ⟨fun j h1 h2 => by omega, rfl⟩
  | n + 1, i, ps, hn => by
    have hc : ∀ j, i < j → (Records hi A B (ps.advance i (A i) (B i) (direction hi i ps.cand (A i) (B i))).cand j ↔
        Records hi A B ps.cand j) := by
      intro j hj
      have : abit (setAbit ps.cand i (direction hi i ps.cand (A i) (B i))) j = abit ps.cand j := by
        rw [abit_setAbit _ (by omega), if_neg (by omega)]
      simp only [Records, Pass.advance, direction_congr hi j this]
    rcases passEnd_lfd (hi := hi) (A := A) (B := B) (n := n) (i := i + 1)
      (ps := ps.advance i (A i) (B i) (direction hi i ps.cand (A i) (B i))) (by omega) with
      ⟨h1, h2⟩ | ⟨m, h1, h2, h8, h3, h4, h5⟩
    · by_cases hr : Records hi A B ps.cand i ∧ i < 8
      · refine .inr ⟨i, Nat.le_refl i, by omega, hr.2, hr.1, fun j hj hj' hj8 => ?_, ?_⟩
        · exact fun hrj => h1 j (by omega) (by omega) hj8 ((hc j hj).2 hrj)
        · rw [passEnd, h2, Pass.advance]
          simp only
          rw [if_pos ⟨hr.1.1, hr.1.2, hr.2⟩]
      · refine .inl ⟨fun j hj hj' hj8 hrj => ?_, ?_⟩
        · rcases Nat.lt_or_ge i j with h | h
          · exact h1 j (by omega) (by omega) hj8 ((hc j h).2 hrj)
          · have : j = i := by omega
            exact hr (this ▸ ⟨hrj, hj8⟩)
        · rw [passEnd, h2, Pass.advance]
          simp only
          rw [if_neg (fun h => hr ⟨⟨h.1, h.2.1⟩, h.2.2⟩)]
    · refine .inr ⟨m, by omega, by omega, h8, (hc m (by omega)).1 h3, fun j hj hj' hj8 hrj => ?_, h5⟩
      exact h4 j hj (by omega) hj8 ((hc j (by omega)).2 hrj)

end Sys2Proof.Machine
end

