-- ==== Sys2Proof/Laws/Step.lean ====
section
/-! SUPPORT. What a step and the end of a command do: the lemmas a proof cites instead of unfolding them. -/

namespace Sys2Proof.Machine

/-! ## Steps -/

theorem step_of_host_nil {s : State} (h : s.host = []) : step s = .next s := by simp [step, h]

theorem step_of_host_cons {s : State} {x : HostAccess} {rest : List HostAccess} (h : s.host = x :: rest) :
    step s = serve x { s with host := rest } := by simp [step, h]

theorem runWord_of_decode {w : Word} {i : Instr} (h : decode w = .ok i) (s : State) : runWord w s = exec i s := by
  simp [runWord, h]

theorem runWord_of_illegal {w : Word} {e : Illegal} (h : decode w = .error e) (s : State) :
    runWord w s = .next s.illegal := by simp [runWord, h]

theorem runWordCut_of_next {w : Word} {n : Nat} {s t : State} (h : runWord w s = .next t) :
    runWordCut w n s = .next (s.cutAfter n t) := by simp [runWordCut, h]

/-! ## The end of a command -/

/-- The status a command ends with, its link calls having come to this. -/
def endStatus : Except LinkFault Status → Status
  | .ok st => st
  | .error k => Status.ofFault k

/-- A command that ends by `conclude` changes nothing but the link, `STATUS` and `RES`. -/
theorem State.conclude_eq (o : Except LinkFault Status × Link) (s : State) :
    s.conclude o = { s with link := o.2, status := endStatus o.1, res := resOf (endStatus o.1) } := by
  obtain ⟨r, l⟩ := o
  cases r with
  | ok st => rfl
  | error k => cases k <;> rfl

/-- VERIFY too. -/
theorem State.concludeVerify_frame (o : Except LinkFault (Option Nat) × Link) (s : State) :
    ∃ st b, s.concludeVerify o = { s with link := o.2, status := st, res := b } ∧ (b = true → st = .ok) := by
  obtain ⟨r, l⟩ := o
  rcases r with k | _ | cnt
  · exact ⟨_, _, rfl, by simp⟩
  · exact ⟨_, _, rfl, by simp⟩
  · exact ⟨_, _, rfl, by simp⟩

/-- Step 1 of NEXT (R113). -/
theorem State.nextBody_of_last {s : State} (h : s.ldf = true) (r a : Bool) :
    s.nextBody r a = s.ssEmpty.fail .endOfSearch := by simp [State.nextBody, h]

/-- Steps 2 to 6 of NEXT (R112). -/
theorem State.nextBody_of_not_last {s : State} (h : s.ldf = false) (r a : Bool) :
    s.nextBody r a = s.concludeSearch (search s.params r a s.addr s.ld s.lfd s.link) := by simp [State.nextBody, h]

/-- The four ends of a search (R112): the search registers, `STATUS`, `RES` and the link, and nothing else. -/
theorem State.concludeSearch_cases (o : Except LinkFault SearchEnd × Link) (s : State) :
    (o.1 = .ok .noPresence ∧
      s.concludeSearch o = { s with link := o.2, ld := .num 0, lfd := 0, status := .noPresence, res := false }) ∨
    (o.1 = .ok .corrupted ∧
      s.concludeSearch o = { s.ssEmpty with link := o.2, status := .searchCorrupted, res := false }) ∨
    (∃ ps, o.1 = .ok (.found ps) ∧
      s.concludeSearch o = { s with link := o.2, addr := ps.cand, ld := ps.ld, lfd := ps.lfd,
                                    ldf := ldfAfterPass ps.ld s.ldf, status := .ok, res := true }) ∨
    (∃ k, o.1 = .error k ∧
      s.concludeSearch o = { s.ssEmpty with link := o.2, status := Status.ofFault k, res := false }) := by
  obtain ⟨r, l⟩ := o
  rcases r with k | _ | _ | ps
  · exact .inr (.inr (.inr ⟨k, rfl, rfl⟩))
  · exact .inl ⟨rfl, rfl⟩
  · exact .inr (.inl ⟨rfl, rfl⟩)
  · exact .inr (.inr (.inl ⟨ps, rfl, rfl⟩))

/-- The two ends of the loop of EXCHANGE. -/
theorem State.concludeExchange_cases (o : Memory × (Except LinkFault Unit × Link)) (s : State) :
    (o.2.1 = .ok () ∧ s.concludeExchange o = { s with link := o.2.2, buf := o.1, status := .ok, res := true }) ∨
    (∃ k, o.2.1 = .error k ∧
      s.concludeExchange o = { s with link := o.2.2, buf := o.1, status := Status.ofFault k, res := false }) := by
  obtain ⟨m, r, l⟩ := o
  rcases r with k | u
  · exact .inr ⟨k, rfl, rfl⟩
  · exact .inl ⟨rfl, rfl⟩

/-- The five ways EXCHANGE goes (R148, R174): too long, a faulted reset, no presence, and its loop after a reset or
without one. -/
theorem execExchange_cases (r : Bool) (len : Nat) (s : State) :
    (s.params.maxBlockLen < len ∧ execExchange r len s = .next (s.start.fail .lengthExceeded)) ∨
    (len ≤ s.params.maxBlockLen ∧ r = true ∧ ∃ k l, linkReset s.params s.start.link = (.error k, l) ∧
      execExchange r len s = .next ((s.start.setLink l).fail (Status.ofFault k))) ∨
    (len ≤ s.params.maxBlockLen ∧ r = true ∧ ∃ l, linkReset s.params s.start.link = (.ok false, l) ∧
      execExchange r len s = .next ((s.start.setLink l).fail .noPresence)) ∨
    (len ≤ s.params.maxBlockLen ∧ r = true ∧ ∃ l, linkReset s.params s.start.link = (.ok true, l) ∧
      execExchange r len s = .next ((s.start.setLink l).exchangeBody len)) ∨
    (len ≤ s.params.maxBlockLen ∧ r = false ∧ execExchange r len s = .next (s.start.exchangeBody len)) := by
  unfold execExchange
  by_cases hlen : s.params.maxBlockLen < len
  · exact .inl ⟨hlen, by rw [if_pos hlen]⟩
  · rw [if_neg hlen]
    refine .inr ?_
    have hle := Nat.le_of_not_lt hlen
    cases r with
    | false => exact .inr (.inr (.inr ⟨hle, rfl, rfl⟩))
    | true =>
      rcases linkReset s.params s.start.link with ⟨k | _ | _, l⟩
      · exact .inl ⟨hle, rfl, k, l, rfl, rfl⟩
      · exact .inr (.inl ⟨hle, rfl, l, rfl, rfl⟩)
      · exact .inr (.inr (.inl ⟨hle, rfl, l, rfl, rfl⟩))

end Sys2Proof.Machine
end

