-- ==== Sys2Proof/Laws/Bus.lean ====
section
/-! SUPPORT. A search pass on a bus of well-behaved devices (spec 20 R54, R55): the pass ends with the address of a
device, and at every discrepancy it took the bit of the rule (41 R119). -/

namespace Sys2Proof.Machine

/-! ## Link calls whose answers are a bus's -/

theorem Link.advance_injective {l : Link} {es fs : List LinkEvent} (h : l.advance es = l.advance fs) : es = fs := by
  have := congrArg Link.trace h
  simpa using this

theorem ask_cases {α : Type} (p : Params) (c : LinkCall) (value : Answer → α) (reply : α → Reply) (l : Link) :
    (∃ v, ask p c value reply l = (.ok v, l.advance [⟨c, reply v⟩])) ∨
    ∃ k, ask p c value reply l = (.error k, l.advance [⟨c, .fault k⟩]) := by
  cases h : faultOf p c l.nextAnswer with
  | none => exact .inl ⟨value l.nextAnswer, by simp [ask, h, Link.log_eq_advance]⟩
  | some k => exact .inr ⟨k, by simp [ask, h, Link.log_eq_advance]⟩

/-- The bus never answers a fault. -/
theorem Bus.replyTo_ne_fault (bus : Bus) (c : LinkCall) (k : LinkFault) : bus.replyTo c ≠ .fault k := by
  cases c <;> simp [Bus.replyTo]

theorem Bus.answers_cons {bus : Bus} {e : LinkEvent} {es : List LinkEvent} (h : bus.answers (e :: es) = true) :
    e.reply = bus.replyTo e.call ∧ (bus.after e.call).answers es = true := by
  simpa [Bus.answers] using h

/-- The first call of a sequence whose answers are the bus's: it has the bus's answer, and the rest goes on with the
bus after it. -/
theorem ask_on_bus {α β : Type} {p : Params} {c : LinkCall} {value : Answer → α} {reply : α → Reply}
    {f : α → LinkOp β} {C : LinkCall → Prop} {n : Nat} (hf : ∀ x, LinkOp.Makes p C n (f x)) {l : Link}
    {es : List LinkEvent} {bus : Bus}
    (h : ((ask p c value reply).andThen f l).2 = l.advance es) (hb : bus.answers es = true) :
    ∃ v fs, reply v = bus.replyTo c ∧ es = ⟨c, reply v⟩ :: fs ∧
      (ask p c value reply).andThen f l = f v (l.advance [⟨c, reply v⟩]) ∧
      (f v (l.advance [⟨c, reply v⟩])).2 = (l.advance [⟨c, reply v⟩]).advance fs ∧
      (bus.after c).answers fs = true := by
  rcases ask_cases p c value reply l with ⟨v, hv⟩ | ⟨k, hk⟩
  · rw [LinkOp.andThen_ok hv] at h ⊢
    obtain ⟨fs, hm⟩ := hf v (l.advance [⟨c, reply v⟩])
    have e := hm.link
    rw [Link.advance_append] at e
    have e2 : es = [⟨c, reply v⟩] ++ fs := Link.advance_injective (h.symm.trans e)
    rw [e2] at hb
    have hb' := Bus.answers_cons hb
    exact ⟨v, fs, hb'.1, e2, rfl, hm.link, hb'.2⟩
  · rw [LinkOp.andThen_error hk] at h
    have e2 : [⟨c, .fault k⟩] = es := Link.advance_injective h
    rw [← e2] at hb
    exact absurd (Bus.answers_cons hb).1.symm (bus.replyTo_ne_fault c k)

/-! ## The devices that take part -/

/-- `x` and `y` have the same bits below position `i`. -/
def AgreeBelow (x y : Address) (i : Nat) : Prop := ∀ j < i, abit x j = abit y j

theorem AgreeBelow.symm {x y : Address} {i : Nat} (h : AgreeBelow x y i) : AgreeBelow y x i :=
  fun j hj => (h j hj).symm

theorem AgreeBelow.trans {x y z : Address} {i : Nat} (h : AgreeBelow x y i) (g : AgreeBelow y z i) :
    AgreeBelow x z i := fun j hj => (h j hj).trans (g j hj)

theorem AgreeBelow.mono {x y : Address} {i j : Nat} (h : AgreeBelow x y i) (hj : j ≤ i) : AgreeBelow x y j :=
  fun k hk => h k (Nat.lt_of_lt_of_le hk hj)

theorem AgreeBelow.succ {x y : Address} {i : Nat} (h : AgreeBelow x y i) (hi : abit x i = abit y i) :
    AgreeBelow x y (i + 1) := fun j hj => by
  rcases Nat.lt_succ_iff_lt_or_eq.1 hj with h' | h'
  · exact h j h'
  · subst h'; exact hi

/-- The bus inside a pass, before the first read of position `i`: the devices that agree with `c` below `i` are
searching at `i`, the others are silent (R55). -/
def Bus.AtPosition (bus : Bus) (c : Address) (i : Nat) : Prop :=
  ∀ d ∈ bus, (AgreeBelow d.addr c i ∧ d.mode = .searching i false) ∨ (¬ AgreeBelow d.addr c i ∧ d.mode = .idle)

/-- The addresses `xs` have a discrepancy at position `i` on the path of `c` (R118): two that agree with `c` below
`i` differ there. -/
def Discrepancy.at (xs : List Address) (c : Address) (i : Nat) : Prop :=
  (∃ x ∈ xs, AgreeBelow x c i ∧ abit x i = false) ∧ ∃ y ∈ xs, AgreeBelow y c i ∧ abit y i = true

theorem Bus.addresses_map (bus : Bus) (f : Device → Device) (h : ∀ d, (f d).addr = d.addr) :
    Bus.addresses (bus.map f) = bus.addresses := by
  simp [Bus.addresses, Function.comp_def, h]

theorem Device.afterRead_addr (d : Device) : d.afterRead.addr = d.addr := by
  simp only [Device.afterRead]; split <;> rfl

theorem Device.afterWrite_addr (b : Bool) (d : Device) : (d.afterWrite b).addr = d.addr := by
  simp only [Device.afterWrite]; split
  · split <;> rfl
  · rfl

theorem Device.afterTouch_addr (b : Byte) (d : Device) : (d.afterTouch b).addr = d.addr := by
  simp only [Device.afterTouch]
  split
  · rfl
  · rfl
  · split_ifs <;> rfl
  · split <;> rfl
  · rfl

/-- The first read of a position (R55): 1 exactly when every device taking part has 1. -/
theorem Bus.firstRead {bus : Bus} {c : Address} {i : Nat} (h : bus.AtPosition c i) :
    bus.all Device.lineBit = true ↔ ∀ x ∈ bus.addresses, AgreeBelow x c i → abit x i = true := by
  simp only [List.all_eq_true, Bus.addresses, List.mem_map]
  constructor
  · rintro hl x ⟨d, hd, rfl⟩ hx
    rcases h d hd with ⟨_, hm⟩ | ⟨hn, _⟩
    · simpa [Device.lineBit, hm] using hl d hd
    · exact absurd hx hn
  · intro hx d hd
    rcases h d hd with ⟨ha, hm⟩ | ⟨_, hm⟩
    · simpa [Device.lineBit, hm] using hx d.addr ⟨d, hd, rfl⟩ ha
    · simp [Device.lineBit, hm]

/-- The second read of a position (R55): 1 exactly when every device taking part has 0. -/
theorem Bus.secondRead {bus : Bus} {c : Address} {i : Nat} (h : bus.AtPosition c i) :
    (bus.after .readBit).all Device.lineBit = true ↔
      ∀ x ∈ bus.addresses, AgreeBelow x c i → abit x i = false := by
  simp only [Bus.after, List.all_map, List.all_eq_true, Bus.addresses, List.mem_map, Function.comp_apply]
  constructor
  · rintro hl x ⟨d, hd, rfl⟩ hx
    rcases h d hd with ⟨_, hm⟩ | ⟨hn, _⟩
    · simpa [Device.lineBit, Device.afterRead, hm] using hl d hd
    · exact absurd hx hn
  · intro hx d hd
    rcases h d hd with ⟨ha, hm⟩ | ⟨_, hm⟩
    · simpa [Device.lineBit, Device.afterRead, hm] using hx d.addr ⟨d, hd, rfl⟩ ha
    · simp [Device.lineBit, Device.afterRead, hm]

/-- After the write of a position the devices that agree with the bit driven are at the next one (R55). -/
theorem Bus.AtPosition.next {bus : Bus} {c : Address} {i : Nat} (h : bus.AtPosition c i) (hi : i < 63) (b : Bool) :
    (((bus.after .readBit).after .readBit).after (.writeBit b)).AtPosition (setAbit c i b) (i + 1) := by
  intro d' hd'
  simp only [Bus.after, List.map_map, List.mem_map, Function.comp_apply] at hd'
  obtain ⟨d, hd, rfl⟩ := hd'
  have hc : ∀ x : Address, AgreeBelow x (setAbit c i b) (i + 1) ↔ AgreeBelow x c i ∧ abit x i = b := by
    intro x
    constructor
    · intro hx
      refine ⟨fun j hj => ?_, ?_⟩
      · rw [hx j (by omega), abit_setAbit _ (by omega), if_neg (by omega)]
      · rw [hx i (by omega), abit_setAbit _ (by omega), if_pos rfl]
    · rintro ⟨hx, hb⟩ j hj
      rw [abit_setAbit _ (by omega)]
      split
      · next e => rw [e]; exact hb
      · exact hx j (by omega)
  rw [Device.afterWrite_addr, Device.afterRead_addr, Device.afterRead_addr, hc]
  rcases h d hd with ⟨ha, hm⟩ | ⟨hn, hm⟩
  · by_cases hb : abit d.addr i = b
    · exact .inl ⟨⟨ha, hb⟩, by simp [Device.afterWrite, Device.afterRead, hm, hb, hi]⟩
    · exact .inr ⟨fun h => hb h.2, by simp [Device.afterWrite, Device.afterRead, hm, hb]⟩
  · exact .inr ⟨fun h => hn h.1, by simp [Device.afterWrite, Device.afterRead, hm]⟩

/-! ## A pass -/

/-- What a pass from position `i` on leaves on a bus with the addresses `xs`: a device's address, which has at every
discrepancy the bit of the rule (R119), and the record of the last discrepancy resolved to 0. -/
structure PassOnBus (xs : List Address) (hi i : Nat) (ps ps' : Pass) : Prop where
  found : ps'.cand ∈ xs
  path  : AgreeBelow ps'.cand ps.cand i
  rule  : ∀ j, i ≤ j → j < 64 → Discrepancy.at xs ps'.cand j →
            abit ps'.cand j = if j + 1 < hi then abit ps.cand j else decide (j + 1 = hi)
  last  : ((∀ j, i ≤ j → j < 64 → ¬ (Discrepancy.at xs ps'.cand j ∧ abit ps'.cand j = false)) ∧ ps'.ld = ps.ld) ∨
          ∃ m, i ≤ m ∧ m < 64 ∧ Discrepancy.at xs ps'.cand m ∧ abit ps'.cand m = false ∧
            (∀ j, m < j → j < 64 → ¬ (Discrepancy.at xs ps'.cand j ∧ abit ps'.cand j = false)) ∧
            ps'.ld = .num (Fin.ofNat 65 (m + 1))
  lastFamily : ((∀ j, i ≤ j → j < 8 → ¬ (Discrepancy.at xs ps'.cand j ∧ abit ps'.cand j = false)) ∧ ps'.lfd = ps.lfd) ∨
          ∃ m, i ≤ m ∧ m < 8 ∧ Discrepancy.at xs ps'.cand m ∧ abit ps'.cand m = false ∧
            (∀ j, m < j → j < 8 → ¬ (Discrepancy.at xs ps'.cand j ∧ abit ps'.cand j = false)) ∧
            ps'.lfd = Fin.ofNat 65 (m + 1)

theorem Discrepancy.at_congr {xs : List Address} {c e : Address} {i : Nat} (h : AgreeBelow c e i) :
    Discrepancy.at xs c i ↔ Discrepancy.at xs e i := by
  have : ∀ x : Address, AgreeBelow x c i ↔ AgreeBelow x e i := fun x => ⟨fun g => g.trans h, fun g => g.trans h.symm⟩
  simp only [Discrepancy.at, this]

/-- A pass whose answers are those of a bus with a device taking part comes to its end and finds a device. -/
theorem passFrom_on_bus {p : Params} {hi : Nat} :
    ∀ {n i : Nat} {ps : Pass} {l : Link} {es : List LinkEvent} {bus : Bus}, i + n = 64 →
      (∃ x ∈ bus.addresses, AgreeBelow x ps.cand i) → (n ≠ 0 → bus.AtPosition ps.cand i) →
      (passFrom p hi n i ps l).2 = l.advance es → bus.answers es = true →
      ∃ ps', (passFrom p hi n i ps l).1 = .ok (some ps') ∧ PassOnBus bus.addresses hi i ps ps'
  | 0, i, ps, l, es, bus, hn, hx, _, _, _ => by
    obtain ⟨x, hx, ha⟩ := hx
    have e : x = ps.cand := address_ext fun j hj => ha j (by omega)
    refine ⟨ps, rfl, ⟨e ▸ hx, fun _ _ => rfl, fun j h1 h2 => by omega, .inl ⟨fun j h1 h2 => by omega, rfl⟩,
      .inl ⟨fun j h1 h2 => by omega, rfl⟩⟩⟩
  | n + 1, i, ps, l, es, bus, hn, hx, hp, he, hb => by
    have hp := hp (Nat.succ_ne_zero n)
    have hi63 : i < 64 := by omega
    have hm := makes_passFrom p (C := fun _ => True) trivial (fun _ => trivial) hi
    -- the two reads
    obtain ⟨a, es1, ha, rfl, e1, he1, hb1⟩ := ask_on_bus (n := 1 + (1 + 3 * n)) (C := fun _ => True)
      (fun a => LinkOp.makes_andThen (makes_readBit p trivial) fun b => by
        split
        · exact (LinkOp.makes_done p _ none).mono (by omega) (fun _ h => h)
        · exact LinkOp.makes_andThen (makes_writeBit p _ trivial) fun _ => hm n (i + 1) _) he hb
    obtain ⟨b, es2, hb', rfl, e2, he2, hb2⟩ := ask_on_bus (n := 1 + 3 * n) (C := fun _ => True)
      (fun b => by
        split
        · exact (LinkOp.makes_done p _ none).mono (by omega) (fun _ h => h)
        · exact LinkOp.makes_andThen (makes_writeBit p _ trivial) fun _ => hm n (i + 1) _) he1 hb1
    have hA : a = true ↔ ∀ x ∈ bus.addresses, AgreeBelow x ps.cand i → abit x i = true := by
      rw [← Bus.firstRead hp]; simp only [Bus.replyTo, Reply.bit.injEq] at ha; rw [ha]
    have hB : b = true ↔ ∀ x ∈ bus.addresses, AgreeBelow x ps.cand i → abit x i = false := by
      rw [← Bus.secondRead hp]; simp only [Bus.replyTo, Reply.bit.injEq] at hb'; rw [hb']
    obtain ⟨x, hx, hxa⟩ := hx
    have hab : (a && b) = false := by
      cases ha' : a <;> cases hb'' : b <;> simp_all
    simp only [hab, Bool.false_eq_true, if_false] at e2 he2
    -- the write
    obtain ⟨u, es3, _, rfl, e3, he3, hb3⟩ := ask_on_bus (C := fun _ => True) (fun _ => hm n (i + 1) _) he2 hb2
    set d := direction hi i ps.cand a b with hd
    have hstep : passFrom p hi (n + 1) i ps l = passFrom p hi n (i + 1) (ps.advance i a b d)
        (((l.advance [⟨.readBit, .bit a⟩]).advance [⟨.readBit, .bit b⟩]).advance [⟨.writeBit d, .nothing⟩]) :=
      e1.trans (e2.trans e3)
    -- a device goes on
    have hdisc : Discrepancy.at bus.addresses ps.cand i ↔ a = b := by
      constructor
      · rintro ⟨⟨y, hy, hya, hy0⟩, z, hz, hza, hz1⟩
        have : a ≠ true := fun h => by simp [hA.1 h y hy hya] at hy0
        have : b ≠ true := fun h => by simp [hB.1 h z hz hza] at hz1
        cases a <;> cases b <;> simp_all
      · intro heq
        have h0 : a ≠ true := fun h => by subst heq; simp [h] at hab
        have h1 : b ≠ true := fun h => h0 (heq.trans h)
        have h0' := mt hA.2 h0
        have h1' := mt hB.2 h1
        push Not at h0' h1'
        obtain ⟨y, hy, hya, hy0⟩ := h0'
        obtain ⟨z, hz, hza, hz1⟩ := h1'
        exact ⟨⟨y, hy, hya, by simpa using hy0⟩, z, hz, hza, by simpa using hz1⟩
    have hgo : ∃ y ∈ bus.addresses, AgreeBelow y ps.cand i ∧ abit y i = d := by
      by_cases heq : a = b
      · obtain ⟨⟨y, hy, hya, hy0⟩, z, hz, hza, hz1⟩ := hdisc.2 heq
        cases hdv : d
        · exact ⟨y, hy, hya, hy0⟩
        · exact ⟨z, hz, hza, hz1⟩
      · have hda : d = a := by simp [hd, direction, heq]
        refine ⟨x, hx, hxa, ?_⟩
        rw [hda]
        cases ha' : a
        · have : b = true := by cases b <;> simp_all
          exact hB.1 this x hx hxa
        · exact hA.1 ha' x hx hxa
    have haddr : (((bus.after .readBit).after .readBit).after (.writeBit d)).addresses = bus.addresses := by
      simp only [Bus.after]
      rw [Bus.addresses_map _ _ (Device.afterWrite_addr d), Bus.addresses_map _ _ Device.afterRead_addr,
        Bus.addresses_map _ _ Device.afterRead_addr]
    have hcand : ∀ y : Address, AgreeBelow y ps.cand i → abit y i = d → AgreeBelow y (setAbit ps.cand i d) (i + 1) := by
      intro y hy hyd j hj
      rw [abit_setAbit _ hi63]
      split
      · next e => rw [e]; exact hyd
      · exact hy j (by omega)
    obtain ⟨y, hy, hya, hyd⟩ := hgo
    obtain ⟨ps', hok, hps⟩ := passFrom_on_bus (p := p) (hi := hi) (n := n) (i := i + 1) (ps := ps.advance i a b d)
      (bus := ((bus.after .readBit).after .readBit).after (.writeBit d)) (by omega)
      ⟨y, haddr ▸ hy, hcand y hya hyd⟩ (fun h => hp.next (by omega) d) he3 hb3
    rw [haddr] at hps
    refine ⟨ps', by rw [hstep]; exact hok, ?_⟩
    -- from the rest to the whole
    have hci : abit ps'.cand i = d := by
      rw [hps.path i (by omega)]
      simp only [Pass.advance]
      rw [abit_setAbit _ hi63, if_pos rfl]
    have hpath : AgreeBelow ps'.cand ps.cand i := by
      intro j hj
      rw [hps.path j (by omega)]
      simp only [Pass.advance]
      rw [abit_setAbit _ hi63, if_neg (by omega)]
    have hdi : Discrepancy.at bus.addresses ps'.cand i ↔ a = b := (Discrepancy.at_congr hpath).trans hdisc
    refine ⟨hps.found, hpath, ?_, ?_, ?_⟩
    · intro j hij hj hdj
      rcases Nat.eq_or_lt_of_le hij with rfl | hlt
      · rw [hci, hd, direction, if_pos (hdi.1 hdj)]
      · rw [hps.rule j hlt hj hdj]
        simp only [Pass.advance]
        rw [abit_setAbit _ hi63, if_neg (show ¬ j = i by omega)]
    · rcases hps.last with ⟨hno, hld⟩ | ⟨m, h1, h2, h3, h4, h5, h6⟩
      · by_cases hr : a = b ∧ d = false
        · refine .inr ⟨i, Nat.le_refl i, hi63, hdi.2 hr.1, hci.trans hr.2, fun j hj => hno j hj, ?_⟩
          rw [hld]
          exact if_pos hr
        · refine .inl ⟨fun j hij hj hjr => ?_, ?_⟩
          · rcases Nat.eq_or_lt_of_le hij with rfl | hlt
            · exact hr ⟨hdi.1 hjr.1, hci.symm.trans hjr.2⟩
            · exact hno j hlt hj hjr
          · rw [hld]
            exact if_neg hr
      · exact .inr ⟨m, by omega, h2, h3, h4, h5, h6⟩
    · rcases hps.lastFamily with ⟨hno, hld⟩ | ⟨m, h1, h2, h3, h4, h5, h6⟩
      · by_cases hr : a = b ∧ d = false ∧ i < 8
        · refine .inr ⟨i, Nat.le_refl i, hr.2.2, hdi.2 hr.1, hci.trans hr.2.1, fun j hj => hno j hj, ?_⟩
          rw [hld]
          exact if_pos hr
        · refine .inl ⟨fun j hij hj hjr => ?_, ?_⟩
          · rcases Nat.eq_or_lt_of_le hij with rfl | hlt
            · exact hr ⟨hdi.1 hjr.1, hci.symm.trans hjr.2, hj⟩
            · exact hno j hlt hj hjr
          · rw [hld]
            exact if_neg hr
      · exact .inr ⟨m, by omega, h2, h3, h4, h5, h6⟩

/-! ## A search -/

theorem Bus.listening_of_reset {bus : Bus} : ∀ d ∈ bus.after .reset, d.mode = .listening := by
  intro d hd
  obtain ⟨e, _, rfl⟩ := List.mem_map.1 hd
  rfl

theorem Bus.atPosition_zero {bus : Bus} (h : ∀ d ∈ bus, d.mode = .listening) (c : Address) :
    (bus.after (.touchByte 0xF0)).AtPosition c 0 := by
  intro d hd
  obtain ⟨e, he, rfl⟩ := List.mem_map.1 hd
  refine .inl ⟨fun j hj => absurd hj (Nat.not_lt_zero j), ?_⟩
  simp [Device.afterTouch, h e he]

theorem Bus.addresses_after (bus : Bus) (c : LinkCall) : (bus.after c).addresses = bus.addresses := by
  cases c <;> simp only [Bus.after] <;> try rfl
  · exact Bus.addresses_map _ _ fun _ => rfl
  · exact Bus.addresses_map _ _ Device.afterRead_addr
  · exact Bus.addresses_map _ _ (Device.afterWrite_addr _)
  · exact Bus.addresses_map _ _ (Device.afterTouch_addr _)

/-- Steps 3 to 5 on a bus just reset, all of whose devices have valid addresses: a device is found. -/
theorem searchPass_on_bus {p : Params} {addr : Address} {ld : Discrepancy} {lfd : Fin 65} {l : Link}
    {es : List LinkEvent} {bus : Bus} (hne : bus ≠ []) (hv : bus.valid) (hm : ∀ d ∈ bus, d.mode = .listening)
    (he : (searchPass p false addr ld lfd l).2 = l.advance es) (hb : bus.answers es = true) :
    ∃ ps, (searchPass p false addr ld lfd l).1 = .ok (.found ps) ∧
      PassOnBus bus.addresses ld.hi 0 ⟨candidatePath ld addr, .none, lfd⟩ ps := by
  have hpass := makes_passFrom p (C := fun _ => True) trivial (fun _ => trivial) ld.hi 64 0
    ⟨candidatePath ld addr, .none, lfd⟩
  obtain ⟨v, fs, _, rfl, e1, he1, hb1⟩ := ask_on_bus (n := 192) (C := fun _ => True)
    (fun _ => LinkOp.makes_andThen (k := 0) hpass fun _ => LinkOp.makes_done p _ _) he hb
  obtain ⟨gs, hg⟩ := hpass (l.advance [⟨.touchByte (searchByte false), .byte v⟩])
  have hx : ∃ x ∈ (bus.after (.touchByte 0xF0)).addresses, AgreeBelow x (candidatePath ld addr) 0 := by
    obtain ⟨d, hd⟩ := List.exists_mem_of_ne_nil bus hne
    exact ⟨d.addr, by rw [Bus.addresses_after]; exact List.mem_map.2 ⟨d, hd, rfl⟩, fun j hj => by omega⟩
  have hgs : gs = fs := by
    rcases hq : passFrom p ld.hi 64 0 ⟨candidatePath ld addr, .none, lfd⟩
        (l.advance [⟨.touchByte (searchByte false), .byte v⟩]) with ⟨k | o, l'⟩
    · rw [hq] at hg
      rw [LinkOp.andThen_error hq] at he1
      exact Link.advance_injective (hg.link.symm.trans he1)
    · rw [hq] at hg
      rw [LinkOp.andThen_ok hq, LinkOp.done_apply] at he1
      exact Link.advance_injective (hg.link.symm.trans he1)
  subst hgs
  obtain ⟨ps, hok, hps⟩ := passFrom_on_bus (p := p) (bus := bus.after (.touchByte 0xF0)) rfl hx
    (fun _ => Bus.atPosition_zero hm _) hg.link hb1
  rw [Bus.addresses_after] at hps
  refine ⟨ps, ?_, hps⟩
  rw [searchPass, touchByte, e1]
  rcases hq : passFrom p ld.hi 64 0 ⟨candidatePath ld addr, .none, lfd⟩
        (l.advance [⟨.touchByte (searchByte false), .byte v⟩]) with ⟨r, l'⟩
  rw [hq] at hok
  simp only at hok
  subst hok
  rw [LinkOp.andThen_ok hq, LinkOp.done_apply]
  simp [hv _ hps.found]

/-- A whole search with a bus reset (R112), on a bus of such devices: a device is found, and the path to it is the
rule's. -/
theorem search_on_bus {p : Params} {addr : Address} {ld : Discrepancy} {lfd : Fin 65} {l : Link}
    {es : List LinkEvent} {bus : Bus} (hne : bus ≠ []) (hv : bus.valid)
    (he : (search p true false addr ld lfd l).2 = l.advance es) (hb : bus.answers es = true) :
    ∃ ps, (search p true false addr ld lfd l).1 = .ok (.found ps) ∧
      PassOnBus bus.addresses ld.hi 0 ⟨candidatePath ld addr, .none, lfd⟩ ps := by
  have hpass : ∀ b : Bool, LinkOp.Makes p (fun _ => True) 193
      (if b then searchPass p false addr ld lfd else LinkOp.done .noPresence) := fun b => by
    split
    · exact makes_searchPass p trivial (fun _ => trivial) (fun _ => trivial) _ _ _ _
    · exact (LinkOp.makes_done p _ _).mono (by omega) fun _ h => h
  have hlast : ∀ {bus : Bus} {l : Link} {es : List LinkEvent}, bus ≠ [] → bus.valid →
      ((linkReset p).andThen (fun b => if b then searchPass p false addr ld lfd else LinkOp.done .noPresence) l).2 =
        l.advance es → bus.answers es = true →
      ∃ ps, ((linkReset p).andThen
          (fun b => if b then searchPass p false addr ld lfd else LinkOp.done .noPresence) l).1 = .ok (.found ps) ∧
        PassOnBus bus.addresses ld.hi 0 ⟨candidatePath ld addr, .none, lfd⟩ ps := by
    intro bus l es hne hv he hb
    obtain ⟨v, fs, hr, rfl, e1, he1, hb1⟩ := ask_on_bus hpass he hb
    have hv1 : v = true := by
      have : v = !bus.isEmpty := by simpa [Bus.replyTo] using hr
      cases bus with
      | nil => exact absurd rfl hne
      | cons d ds => simpa using this
    subst hv1
    simp only [if_true] at e1 he1
    rw [linkReset, e1]
    have hne' : bus.after .reset ≠ [] := by simpa [Bus.after] using hne
    have hv' : (bus.after .reset).valid := by
      intro x hx
      rw [Bus.addresses_after] at hx
      exact hv x hx
    obtain ⟨ps, h1, h2⟩ := searchPass_on_bus hne' hv' Bus.listening_of_reset he1 hb1
    rw [Bus.addresses_after] at h2
    exact ⟨ps, h1, h2⟩
  unfold search at he ⊢
  by_cases hf : isAlarmClockFamily p (addrByte addr 0) = true
  · have e : ∀ l, ((searchReset p true addr).andThen
        (fun b => if b then searchPass p false addr ld lfd else LinkOp.done .noPresence) l) =
        (linkReset p).andThen (fun _ => (linkReset p).andThen
          (fun b => if b then searchPass p false addr ld lfd else LinkOp.done .noPresence)) l := by
      intro l
      simp only [searchReset, hf, if_true, LinkOp.andThen]
      rcases linkReset p l with ⟨k | x, l'⟩ <;> rfl
    rw [e] at he ⊢
    obtain ⟨v, fs, _, rfl, e1, he1, hb1⟩ := ask_on_bus (n := 194) (C := fun _ => True)
      (fun _ => LinkOp.makes_andThen (n := 1) (makes_linkReset p trivial) hpass) he hb
    rw [linkReset]
    change ∃ ps, ((ask p .reset (·.presence) .presence).andThen (fun _ => (linkReset p).andThen
      (fun b => if b then searchPass p false addr ld lfd else LinkOp.done .noPresence)) l).1 = _ ∧ _
    rw [e1]
    have hne' : bus.after .reset ≠ [] := by simpa [Bus.after] using hne
    have hv' : (bus.after .reset).valid := by
      intro x hx
      rw [Bus.addresses_after] at hx
      exact hv x hx
    obtain ⟨ps, h1, h2⟩ := hlast hne' hv' he1 hb1
    rw [Bus.addresses_after] at h2
    exact ⟨ps, h1, h2⟩
  · have e : searchReset p true addr = linkReset p := by simp [searchReset, hf]
    rw [e] at he ⊢
    exact hlast hne hv he hb

/-- NEXT with a reset on such a bus, the search not at its last device. -/
theorem next_on_bus {s t : State} {bus : Bus} (hne : bus ≠ []) (hv : bus.valid) (hl : s.ldf = false)
    (he : exec (.next true false) s = .next t) (hb : bus.answers t.link.trace = true) :
    ∃ ps, t = { s with addr := ps.cand, ld := ps.ld, lfd := ps.lfd, ldf := decide (ps.ld = .none), status := .ok,
                       res := true, link := t.link } ∧
      PassOnBus bus.addresses s.ld.hi 0 ⟨candidatePath s.ld s.addr, .none, s.lfd⟩ ps := by
  have ht : t = s.start.nextBody true false := by
    have : exec (.next true false) s = .next (s.start.nextBody true false) := rfl
    rw [he] at this
    injection this
  rw [State.nextBody_of_not_last (show s.start.ldf = false from hl)] at ht
  obtain ⟨es, hm⟩ := makes_search s.params (C := fun _ => True) true false (fun _ => trivial) trivial
    (fun _ => trivial) (fun _ => trivial) s.addr s.ld s.lfd s.start.link
  have hlink : t.link = s.start.link.advance es := by
    rw [ht, ← hm.link]
    rcases State.concludeSearch_cases (search s.params true false s.addr s.ld s.lfd s.start.link) s.start with
      ⟨_, e⟩ | ⟨_, e⟩ | ⟨_, _, e⟩ | ⟨_, _, e⟩ <;> exact congrArg State.link e
  have htr : t.link.trace = es := by rw [hlink]; exact List.nil_append es
  rw [htr] at hb
  obtain ⟨ps, hok, hps⟩ := search_on_bus hne hv hm.link hb
  refine ⟨ps, ?_, hps⟩
  rcases State.concludeSearch_cases (search s.params true false s.addr s.ld s.lfd s.start.link) s.start with
      ⟨h, e⟩ | ⟨h, e⟩ | ⟨ps', h, e⟩ | ⟨_, h, e⟩
  · rw [hok] at h; cases h
  · rw [hok] at h; cases h
  · rw [hok] at h
    injection h with h
    injection h with h
    subst h
    have e2 : t = _ := ht.trans e
    rw [hlink, ← hm.link, e2]
    have : ldfAfterPass ps.ld s.start.ldf = decide (ps.ld = .none) := by
      simp [ldfAfterPass, hl]
    rw [this]
    rfl
  · rw [hok] at h; cases h

end Sys2Proof.Machine
end

