-- ==== Sys2Proof/Laws/Crc.lean ====
section
/-! SUPPORT. The CRC steps are linear over exclusive or (spec 40 R90, R97): the law their other properties rest on. -/

namespace Sys2Proof.Machine

theorem crc8Bit_xor (c d : Byte) (x y : Bool) : crc8Bit (c ^^^ d) (x ^^ y) = crc8Bit c x ^^^ crc8Bit d y := by
  have hs : (c ^^^ d) >>> 1 = (c >>> 1) ^^^ (d >>> 1) := by
    apply BitVec.eq_of_getLsbD_eq; intro i _; simp
  simp only [crc8Bit, BitVec.getLsbD_xor, hs]
  cases c.getLsbD 0 <;> cases d.getLsbD 0 <;> cases x <;> cases y <;> simp <;>
    first
    | ac_rfl
    | (rw [BitVec.xor_comm (d >>> 1), BitVec.xor_assoc, ← BitVec.xor_assoc 140#8, BitVec.xor_self, BitVec.zero_xor])

theorem crc16Bit_xor (c d : Half) (x y : Bool) : crc16Bit (c ^^^ d) (x ^^ y) = crc16Bit c x ^^^ crc16Bit d y := by
  have hs : (c ^^^ d) >>> 1 = (c >>> 1) ^^^ (d >>> 1) := by
    apply BitVec.eq_of_getLsbD_eq; intro i _; simp
  simp only [crc16Bit, BitVec.getLsbD_xor, hs]
  cases c.getLsbD 0 <;> cases d.getLsbD 0 <;> cases x <;> cases y <;> simp <;>
    first
    | ac_rfl
    | (rw [BitVec.xor_comm (d >>> 1), BitVec.xor_assoc, ← BitVec.xor_assoc 40961#16, BitVec.xor_self, BitVec.zero_xor])

theorem crc8Step_xor (c d b e : Byte) : crc8Step (c ^^^ d) (b ^^^ e) = crc8Step c b ^^^ crc8Step d e := by
  have h : ∀ (ns : List Nat) (c d : Byte),
      ns.foldl (fun c n => crc8Bit c ((b ^^^ e).getLsbD n)) (c ^^^ d) =
        ns.foldl (fun c n => crc8Bit c (b.getLsbD n)) c ^^^ ns.foldl (fun c n => crc8Bit c (e.getLsbD n)) d := by
    intro ns
    induction ns with
    | nil => intro c d; rfl
    | cons n ns ih => intro c d; rw [List.foldl_cons, BitVec.getLsbD_xor, crc8Bit_xor]; exact ih _ _
  exact h _ c d

theorem crc16Step_xor (c d : Half) (b e : Byte) : crc16Step (c ^^^ d) (b ^^^ e) = crc16Step c b ^^^ crc16Step d e := by
  have h : ∀ (ns : List Nat) (c d : Half),
      ns.foldl (fun c n => crc16Bit c ((b ^^^ e).getLsbD n)) (c ^^^ d) =
        ns.foldl (fun c n => crc16Bit c (b.getLsbD n)) c ^^^ ns.foldl (fun c n => crc16Bit c (e.getLsbD n)) d := by
    intro ns
    induction ns with
    | nil => intro c d; rfl
    | cons n ns ih => intro c d; rw [List.foldl_cons, BitVec.getLsbD_xor, crc16Bit_xor]; exact ih _ _
  exact h _ c d

/-- The running value of a sum of two streams is the sum of the running values. -/
theorem crc8_xor : ∀ (bs es : List Byte) (c d : Byte), bs.length = es.length →
    crc8 (List.zipWith (· ^^^ ·) bs es) (c ^^^ d) = crc8 bs c ^^^ crc8 es d
  | [], [], c, d, _ => rfl
  | b :: bs, e :: es, c, d, h => by
    have := crc8_xor bs es (crc8Step c b) (crc8Step d e) (by simpa using h)
    rw [← crc8Step_xor] at this
    exact this

end Sys2Proof.Machine
end

