-- ==== Sys2Proof/Laws/Decode.lean ====
section
/-! SUPPORT. The laws of the command word (spec 30 R72): the fields of a word built from fields, and a word from its
fields. -/

namespace Sys2Proof

/-! ## The fields of a word built from fields -/

@[simp] theorem opcOf_wordOf (opc : BitVec 8) (r a : Bool) (imm : Half) : opcOf (wordOf opc r a imm) = opc := by
  apply BitVec.eq_of_getLsbD_eq
  intro i hi
  interval_cases i <;> (simp only [opcOf, wordOf, BitVec.getLsbD_extractLsb', BitVec.getLsbD_append, BitVec.getLsbD_ofBool]; simp)

@[simp] theorem zOf_wordOf (opc : BitVec 8) (r a : Bool) (imm : Half) : zOf (wordOf opc r a imm) = 0 := by
  apply BitVec.eq_of_getLsbD_eq
  intro i hi
  interval_cases i <;> (simp only [zOf, wordOf, BitVec.getLsbD_extractLsb', BitVec.getLsbD_append, BitVec.getLsbD_ofBool]; simp)

@[simp] theorem rOf_wordOf (opc : BitVec 8) (r a : Bool) (imm : Half) : rOf (wordOf opc r a imm) = r := by
  simp only [rOf, wordOf, BitVec.getLsbD_append, BitVec.getLsbD_ofBool]; simp

@[simp] theorem aOf_wordOf (opc : BitVec 8) (r a : Bool) (imm : Half) : aOf (wordOf opc r a imm) = a := by
  simp only [aOf, wordOf, BitVec.getLsbD_append, BitVec.getLsbD_ofBool]; simp

@[simp] theorem immOf_wordOf (opc : BitVec 8) (r a : Bool) (imm : Half) : immOf (wordOf opc r a imm) = imm := by
  apply BitVec.eq_of_getLsbD_eq
  intro i hi
  interval_cases i <;> (simp only [immOf, wordOf, BitVec.getLsbD_extractLsb', BitVec.getLsbD_append, BitVec.getLsbD_ofBool]; simp)

/-- A word with `z` zero is built from its fields. -/
theorem wordOf_fields {w : Word} (hz : zOf w = 0) : wordOf (opcOf w) (rOf w) (aOf w) (immOf w) = w := by
  have hz' : ∀ i < 6, w.getLsbD (18 + i) = false := by
    intro i hi
    have := congrArg (fun z : BitVec 6 => z.getLsbD i) hz
    simpa [zOf, BitVec.getLsbD_extractLsb', hi] using this
  have h18 := hz' 0 (by omega)
  have h19 := hz' 1 (by omega)
  have h20 := hz' 2 (by omega)
  have h21 := hz' 3 (by omega)
  have h22 := hz' 4 (by omega)
  have h23 := hz' 5 (by omega)
  apply BitVec.eq_of_getLsbD_eq
  intro i hi
  interval_cases i <;>
    (simp only [opcOf, rOf, aOf, immOf, wordOf, BitVec.getLsbD_extractLsb', BitVec.getLsbD_append, BitVec.getLsbD_ofBool]
     simp_all)

/-! ## The immediates -/

theorem immByte_low (b : Byte) : (immByte b).extractLsb' 0 8 = b := by
  apply BitVec.eq_of_getLsbD_eq
  intro i hi
  interval_cases i <;> (simp only [immByte, BitVec.getLsbD_extractLsb', BitVec.getLsbD_append]; simp)

theorem immByte_high (b : Byte) : (immByte b).extractLsb' 8 8 = 0 := by
  apply BitVec.eq_of_getLsbD_eq
  intro i hi
  interval_cases i <;> (simp only [immByte, BitVec.getLsbD_extractLsb', BitVec.getLsbD_append]; simp)

theorem immIndexByte_low (k : Fin 8) (b : Byte) : (immIndexByte k b).extractLsb' 0 8 = b := by
  apply BitVec.eq_of_getLsbD_eq
  intro i hi
  interval_cases i <;> (simp only [immIndexByte, BitVec.getLsbD_extractLsb', BitVec.getLsbD_append]; simp)

theorem immIndexByte_index (k : Fin 8) (b : Byte) : ((immIndexByte k b).extractLsb' 8 3).toFin = k := by
  have : (immIndexByte k b).extractLsb' 8 3 = BitVec.ofFin k := by
    apply BitVec.eq_of_getLsbD_eq
    intro i hi
    interval_cases i <;> (simp only [immIndexByte, BitVec.getLsbD_extractLsb', BitVec.getLsbD_append]; simp)
  rw [this]

theorem immIndexByte_top (k : Fin 8) (b : Byte) : (immIndexByte k b).extractLsb' 11 5 = 0 := by
  apply BitVec.eq_of_getLsbD_eq
  intro i hi
  interval_cases i <;> (simp only [immIndexByte, BitVec.getLsbD_extractLsb', BitVec.getLsbD_append]; simp)

/-- An immediate with a zero high byte is built from its low byte. -/
theorem immByte_of_high_zero {h : Half} (hz : h.extractLsb' 8 8 = 0) : immByte (h.extractLsb' 0 8) = h := by
  have hz' : ∀ i < 8, h.getLsbD (8 + i) = false := by
    intro i hi
    have := congrArg (fun z : BitVec 8 => z.getLsbD i) hz
    simpa [BitVec.getLsbD_extractLsb', hi] using this
  apply BitVec.eq_of_getLsbD_eq
  intro i hi
  by_cases h8 : i < 8
  · interval_cases i <;> (simp only [immByte, BitVec.getLsbD_extractLsb', BitVec.getLsbD_append]; simp)
  · have := hz' (i - 8) (by omega)
    rw [Nat.add_sub_cancel' (Nat.le_of_not_lt h8)] at this
    rw [this]
    interval_cases i <;> first | omega | (simp only [immByte, BitVec.getLsbD_extractLsb', BitVec.getLsbD_append]; simp)

/-- An immediate with bits 15:11 zero is built from its index and its byte. -/
theorem immIndexByte_of_top_zero {h : Half} (hz : h.extractLsb' 11 5 = 0) :
    immIndexByte (h.extractLsb' 8 3).toFin (h.extractLsb' 0 8) = h := by
  have e : (BitVec.ofFin (h.extractLsb' 8 3).toFin : BitVec 3) = h.extractLsb' 8 3 := rfl
  have hz' : ∀ i < 5, h.getLsbD (11 + i) = false := by
    intro i hi
    have := congrArg (fun z : BitVec 5 => z.getLsbD i) hz
    simpa [BitVec.getLsbD_extractLsb', hi] using this
  apply BitVec.eq_of_getLsbD_eq
  intro i hi
  rw [immIndexByte, e]
  by_cases h11 : i < 11
  · interval_cases i <;> (simp only [BitVec.getLsbD_extractLsb', BitVec.getLsbD_append]; simp)
  · have := hz' (i - 11) (by omega)
    rw [Nat.add_sub_cancel' (Nat.le_of_not_lt h11)] at this
    rw [this]
    interval_cases i <;> first | omega | (simp only [BitVec.getLsbD_extractLsb', BitVec.getLsbD_append]; simp)

end Sys2Proof
end

