-- ==== Sys2Proof/Laws/Memory.lean ====
section
/-! SUPPORT. The laws of BUF (spec 20 R40, R41): read after write, and every write keeps the canonical form and the
range of indices. -/

namespace Sys2Proof.Machine

theorem Memory.mem_store {m : Memory} {k : Nat} {v : Byte} {c : Host.Cell} (h : c ∈ m.store k v) :
    c = (k, v) ∨ c ∈ m := by
  induction m with
  | nil => simpa [Memory.store] using h
  | cons hd tl ih =>
    obtain ⟨a, u⟩ := hd
    simp only [Memory.store] at h
    split at h
    · simpa using h
    · split at h
      · simp only [List.mem_cons] at h ⊢
        exact h.imp id .inr
      · simp only [List.mem_cons] at h ⊢
        rcases h with h | h
        · exact .inr (.inl h)
        · exact (ih h).imp id .inr

theorem Memory.written_store_same (m : Memory) (k : Nat) (v : Byte) : (m.store k v).written k = some v := by
  induction m with
  | nil => simp [Memory.store, Memory.written]
  | cons hd tl ih =>
    obtain ⟨a, u⟩ := hd
    simp only [Memory.store]
    split
    · simp [Memory.written]
    · split
      · simp [Memory.written]
      · simp [Memory.written, *]

theorem Memory.written_store_other (m : Memory) {k j : Nat} (v : Byte) (h : j ≠ k) :
    (m.store k v).written j = m.written j := by
  induction m with
  | nil => simp [Memory.store, Memory.written, h]
  | cons hd tl ih =>
    obtain ⟨a, u⟩ := hd
    simp only [Memory.store]
    split
    · simp [Memory.written, h]
    · split
      · next hk => subst hk; simp [Memory.written, h]
      · simp [Memory.written, ih]

/-- A write keeps the canonical form. -/
theorem Memory.store_wf {m : Memory} (h : m.wf) (k : Nat) (v : Byte) : (m.store k v).wf := by
  induction m with
  | nil => simp [Memory.store, Memory.wf]
  | cons hd tl ih =>
    obtain ⟨a, u⟩ := hd
    simp only [Memory.wf, List.map_cons, List.pairwise_cons] at h ih ⊢
    simp only [Memory.store]
    split
    · next hk =>
      simp only [List.map_cons, List.pairwise_cons, List.mem_cons]
      exact ⟨fun x hx => hx.elim (fun e => e ▸ hk) fun hx => Nat.lt_trans hk (h.1 x hx), h⟩
    · split
      · next hk => subst hk; simpa using h
      · next h1 h2 =>
        simp only [List.map_cons, List.pairwise_cons]
        refine ⟨fun x hx => ?_, ih h.2⟩
        obtain ⟨c, hc, rfl⟩ := List.mem_map.1 hx
        rcases Memory.mem_store hc with rfl | hc
        · exact Nat.lt_of_le_of_ne (Nat.le_of_not_lt h1) (Ne.symm h2)
        · exact h.1 _ (List.mem_map_of_mem hc)

/-- A write at an index in range keeps every index in range. -/
theorem Memory.store_in_range {m : Memory} {n k : Nat} {v : Byte} (h : ∀ c ∈ m, c.1 < n) (hk : k < n) :
    ∀ c ∈ m.store k v, c.1 < n := by
  intro c hc
  rcases Memory.mem_store hc with rfl | hc
  · exact hk
  · exact h c hc

theorem Memory.read_store_same (r : Nat) (m : Memory) (k : Nat) (v : Byte) : (m.store k v).read r k = v := by
  simp [Memory.read, Memory.written_store_same]

theorem Memory.read_store_other (r : Nat) (m : Memory) {k j : Nat} (v : Byte) (h : j ≠ k) :
    (m.store k v).read r j = m.read r j := by
  simp [Memory.read, Memory.written_store_other m v h]

end Sys2Proof.Machine
end

