-- ==== Sys2Proof/Laws/Selector.lean ====
section
/-! SUPPORT. The laws of the selector's transfers (spec 42 R141, R144, R146, R148): what they do as functions of the
answers, and which link calls they make. -/

namespace Sys2Proof.Machine

/-! ## Sending bytes -/

/-- The events of sending bytes, `E j` being the echo of byte `j`. -/
def sentEvents (E : Nat → Byte) : List Byte → Nat → List LinkEvent
  | [], _ => []
  | v :: vs, j => ⟨.touchByte v, .byte (E j)⟩ :: sentEvents E vs (j + 1)

/-- Whether every echo is the byte sent. -/
def echoesMatch (E : Nat → Byte) : List Byte → Nat → Bool
  | [], _ => true
  | v :: vs, j => E j == v && echoesMatch E vs (j + 1)

theorem sentEvents_length (E : Nat → Byte) : ∀ (vs : List Byte) (j : Nat), (sentEvents E vs j).length = vs.length
  | [], _ => rfl
  | _ :: vs, j => by simp [sentEvents, sentEvents_length E vs (j + 1)]

theorem echoesMatch_iff (E : Nat → Byte) : ∀ (vs : List Byte) (j : Nat),
    echoesMatch E vs j = true ↔ ∀ k (h : k < vs.length), E (j + k) = vs[k]
  | [], j => by simp [echoesMatch]
  | v :: vs, j => by
    rw [echoesMatch, Bool.and_eq_true, beq_iff_eq, echoesMatch_iff E vs (j + 1)]
    constructor
    · rintro ⟨h0, h⟩ k hk
      cases k with
      | zero => exact h0
      | succ k =>
        have := h k (by simpa using hk)
        rw [Nat.add_right_comm, Nat.add_assoc] at this
        simpa using this
    · intro h
      refine ⟨h 0 (Nat.succ_pos _), fun k hk => ?_⟩
      have := h (k + 1) (by simpa using hk)
      rw [Nat.add_right_comm, Nat.add_assoc]
      simpa using this

/-- A transfer sends every byte, whatever the echoes (R141, D13). -/
theorem sendBytes_of_quiet {p : Params} {E : Nat → Byte} : ∀ {vs : List Byte} {l : Link} {j : Nat},
    l.Quiet p vs.length → (∀ k < vs.length, (l.answerAt k).byte = E (j + k)) →
    sendBytes p vs l = (.ok (echoesMatch E vs j), l.advance (sentEvents E vs j))
  | [], l, j, _, _ => by simp [sendBytes, echoesMatch, sentEvents]
  | v :: vs, l, j, hq, hE => by
    have h1 := touchByte_of_quiet (hq.mono (by simp : 1 ≤ (v :: vs).length)) v
    have h0 : (l.answerAt 0).byte = E j := by simpa using hE 0 (by simp)
    rw [h0] at h1
    have h2 := sendBytes_of_quiet (p := p) (E := E) (vs := vs) (l := l.log (.touchByte v) (.byte (E j))) (j := j + 1)
      (Link.Quiet.log _ _ (by simpa using hq)) (fun k hk => by
        rw [Link.answerAt_log, hE (k + 1) (by simpa using hk)]
        congr 1
        omega)
    rw [sendBytes, LinkOp.andThen_ok h1, LinkOp.andThen_ok h2, LinkOp.done_apply, Link.log_eq_advance,
      Link.advance_append]
    rfl

theorem makes_sendBytes (p : Params) {C : LinkCall → Prop} (h : ∀ v, C (.touchByte v)) : ∀ vs : List Byte,
    LinkOp.Makes p C vs.length (sendBytes p vs)
  | [] => LinkOp.makes_done p C true
  | v :: vs => by
    have : LinkOp.Makes p C (1 + (vs.length + 0)) (sendBytes p (v :: vs)) :=
      LinkOp.makes_andThen (makes_touchByte p v (h v)) fun e =>
        LinkOp.makes_andThen (makes_sendBytes p h vs) fun rest => LinkOp.makes_done p C _
    exact this.mono (by simp only [List.length_cons]; omega) (fun _ h => h)

theorem makes_accessOps (p : Params) {C : LinkCall → Prop} (hr : C .reset) (ht : ∀ v, C (.touchByte v))
    (addr : Address) : LinkOp.Makes p C 10 (accessOps p addr) := by
  refine LinkOp.makes_andThen (n := 1) (k := 9) (makes_linkReset p hr) fun presence => ?_
  split
  · exact LinkOp.makes_andThen (n := 9) (k := 0) (makes_sendBytes p ht (matchByte :: addrBytes addr))
      fun _ => LinkOp.makes_done p _ _
  · exact (LinkOp.makes_done p _ _).mono (by omega) (fun _ h => h)

theorem makes_odAccessOps (p : Params) {C : LinkCall → Prop} (hr : C .reset) (ht : ∀ v, C (.touchByte v))
    (hs : ∀ v, C (.setSpeed v)) (addr : Address) : LinkOp.Makes p C 12 (odAccessOps p addr) := by
  refine LinkOp.makes_andThen (n := 1) (k := 11) (makes_setSpeed p _ (hs _)) fun _ => ?_
  refine LinkOp.makes_andThen (n := 1) (k := 10) (makes_linkReset p hr) fun presence => ?_
  split
  · refine LinkOp.makes_andThen (n := 1) (k := 9) (makes_touchByte p _ (ht _)) fun e => ?_
    split
    · refine LinkOp.makes_andThen (n := 1) (k := 8) (makes_setSpeed p _ (hs _)) fun _ => ?_
      exact LinkOp.makes_andThen (n := 8) (k := 0) (makes_sendBytes p ht (addrBytes addr))
        fun _ => LinkOp.makes_done p _ _
    · exact (LinkOp.makes_done p _ _).mono (by omega) (fun _ h => h)
  · exact (LinkOp.makes_done p _ _).mono (by omega) (fun _ h => h)

/-! ## VERIFY -/

/-- The positions of `n` from `i` on whose pair is (t, not t), t the address bit (R144). -/
def matchCount (addr : Address) (A B : Nat → Bool) (n i : Nat) : Nat :=
  (List.range' i n).countP fun j => decide (A j = abit addr j ∧ B j = !abit addr j)

/-- The events of `n` positions of VERIFY from `i` on. -/
def verifyEvents (addr : Address) (A B : Nat → Bool) (n i : Nat) : List LinkEvent :=
  (List.range' i n).flatMap fun j =>
    [⟨.readBit, .bit (A j)⟩, ⟨.readBit, .bit (B j)⟩, ⟨.writeBit (abit addr j), .nothing⟩]

/-- VERIFY always runs all its positions (R144, D15). -/
theorem verifyFrom_of_quiet {p : Params} {addr : Address} {A B : Nat → Bool} : ∀ {n i cnt : Nat} {l : Link},
    l.Quiet p (3 * n) →
    (∀ j < n, (l.answerAt (3 * j)).bit = A (i + j) ∧ (l.answerAt (3 * j + 1)).bit = B (i + j)) →
    verifyFrom p addr n i cnt l =
      (.ok (cnt + matchCount addr A B n i), l.advance (verifyEvents addr A B n i))
  | 0, i, cnt, l, _, _ => by simp [verifyFrom, matchCount, verifyEvents]
  | n + 1, i, cnt, l, hq, hread => by
    have h0 := hread 0 (by omega)
    have h1 := readBit_of_quiet (hq.mono (by omega : 1 ≤ 3 * (n + 1)))
    rw [h0.1, Nat.add_zero] at h1
    have h2 := readBit_of_quiet ((Link.Quiet.log .readBit (.bit (A i)) (n := 3 * n + 2) hq).mono (by omega : 1 ≤ _))
    rw [Link.answerAt_log] at h2
    have h0' : (l.answerAt 1).bit = B i := h0.2
    rw [h0'] at h2
    have hq2 : ((l.log .readBit (.bit (A i))).log .readBit (.bit (B i))).Quiet p (3 * n + 1) :=
      Link.Quiet.log _ _ (Link.Quiet.log _ _ hq)
    have h3 := writeBit_of_quiet (hq2.mono (by omega : 1 ≤ _)) (abit addr i)
    rw [verifyFrom, LinkOp.andThen_ok h1, LinkOp.andThen_ok h2, LinkOp.andThen_ok h3]
    rw [verifyFrom_of_quiet (A := A) (B := B) (Link.Quiet.log _ _ hq2)]
    · simp only [Link.log_eq_advance, Link.advance_append]
      congr 1
      · congr 1
        rw [matchCount, matchCount, List.range'_succ, List.countP_cons]
        by_cases hm : A i = abit addr i ∧ B i = !abit addr i
        · simp [hm]
          omega
        · simp [hm]
    · intro j hj
      have := hread (j + 1) (by omega)
      simp only [Link.answerAt_log]
      have e1 : 3 * j + 1 + 1 + 1 = 3 * (j + 1) := by omega
      have e2 : 3 * j + 1 + 1 + 1 + 1 = 3 * (j + 1) + 1 := by omega
      have e3 : i + 1 + j = i + (j + 1) := by omega
      rw [e1, e3]
      exact this

theorem makes_verifyFrom (p : Params) {C : LinkCall → Prop} (hr : C .readBit) (hw : ∀ b, C (.writeBit b))
    (addr : Address) : ∀ n i cnt : Nat, LinkOp.Makes p C (3 * n) (verifyFrom p addr n i cnt)
  | 0, _, cnt => (LinkOp.makes_done p C cnt).mono (by omega) (fun _ h => h)
  | n + 1, i, cnt => by
    have h : LinkOp.Makes p C (1 + (1 + (1 + 3 * n))) (verifyFrom p addr (n + 1) i cnt) :=
      LinkOp.makes_andThen (makes_readBit p hr) fun a => LinkOp.makes_andThen (makes_readBit p hr) fun b =>
        LinkOp.makes_andThen (makes_writeBit p _ (hw _)) fun _ => makes_verifyFrom p hr hw addr n (i + 1) _
    exact h.mono (by omega) (fun _ h => h)

theorem makes_verifyOps (p : Params) {C : LinkCall → Prop} (a : Bool) (hreset : p.verifyDoesReset = true → C .reset)
    (hr : C .readBit) (hw : ∀ b, C (.writeBit b)) (ht : ∀ v, C (.touchByte v)) (addr : Address) :
    LinkOp.Makes p C 194 (verifyOps p a addr) := by
  refine LinkOp.makes_andThen (n := 1) (k := 193) ?_ fun presence => ?_
  · split
    · next h => exact makes_linkReset p (hreset h)
    · exact (LinkOp.makes_done p _ _).mono (by omega) (fun _ h => h)
  · split
    · refine LinkOp.makes_andThen (n := 1) (k := 192) (makes_touchByte p _ (ht _)) fun _ => ?_
      exact LinkOp.makes_andThen (n := 192) (k := 0) (makes_verifyFrom p hr hw addr 64 0 0)
        fun _ => LinkOp.makes_done p _ _
    · exact (LinkOp.makes_done p _ _).mono (by omega) (fun _ h => h)

/-! ## EXCHANGE -/

/-- What the loop of EXCHANGE does, link faults or not (R148, R183): it has made the transfers `es` of the bytes
from index `k` on, in order; the slots of the bytes that came back are overwritten and no others; and it ends
without a fault exactly when all `n` came back. -/
structure ExchangeMade (p : Params) (resets n k : Nat) (m : Memory) (l : Link)
    (o : Memory × (Except LinkFault Unit × Link)) (es : List LinkEvent) : Prop where
  link    : o.2.2 = l.advance es
  bound   : es.length ≤ n
  calls   : ∀ j (h : j < es.length), es[j].call = .touchByte (m.read resets (k + j))
  replies : ∀ j (h : j < es.length), es[j].reply = replyOf p es[j].call (l.answerAt j)
  value   : o.2.1 = .ok () → es.length = n ∧ (∀ e ∈ es, e.isFault = false) ∧
              ∀ j, o.1.read resets j = if k ≤ j ∧ j < k + n then (l.answerAt (j - k)).byte else m.read resets j
  fault   : ∀ f, o.2.1 = .error f → ∃ fs c, es = fs ++ [⟨c, .fault f⟩] ∧ (∀ e ∈ fs, e.isFault = false) ∧
              ∀ j, o.1.read resets j =
                if k ≤ j ∧ j < k + fs.length then (l.answerAt (j - k)).byte else m.read resets j
  wf      : m.wf → o.1.wf
  inRange : ∀ b, (∀ c ∈ m, c.1 < b) → k + n ≤ b → ∀ c ∈ o.1, c.1 < b

theorem exchangeFrom_made (p : Params) (resets : Nat) : ∀ (n k : Nat) (m : Memory) (l : Link),
    ∃ es, ExchangeMade p resets n k m l (exchangeFrom p resets n k m l) es
  | 0, k, m, l => by
    refine ⟨[], by simp [exchangeFrom], by simp, by simp, by simp, ?_, ?_, ?_, ?_⟩
    · intro _
      refine ⟨rfl, by simp, fun j => ?_⟩
      have : ¬ (k ≤ j ∧ j < k + 0) := by omega
      rw [if_neg this]
      rfl
    · intro f hf
      simp [exchangeFrom] at hf
    · exact fun h => h
    · exact fun b h _ => h
  | n + 1, k, m, l => by
    have hmake := makes_touchByte p (C := fun c => c = .touchByte (m.read resets k)) (m.read resets k) rfl l
    obtain ⟨es0, h0⟩ := hmake
    rcases hr : touchByte p (m.read resets k) l with ⟨r, l'⟩
    rw [hr] at h0
    cases r with
    | ok e =>
      have hone : es0 = [⟨.touchByte (m.read resets k), .byte e⟩] ∧ e = (l.answerAt 0).byte := by
        rw [touchByte, ask] at hr
        split at hr
        · simp at hr
        · simp only [Prod.mk.injEq, Except.ok.injEq] at hr
          have hl := h0.link
          simp only at hl
          rw [← hr.2, Link.log_eq_advance] at hl
          have := congrArg Link.trace hl
          simp only [Link.advance_trace, List.append_cancel_left_eq] at this
          exact ⟨by rw [← this, hr.1], by rw [← hr.1, Link.nextAnswer_eq]⟩
      obtain ⟨rfl, he⟩ := hone
      have hl' : l' = l.advance [⟨.touchByte (m.read resets k), .byte e⟩] := h0.link
      obtain ⟨es, h⟩ := exchangeFrom_made p resets n (k + 1) (m.store k e) l'
      have hx : exchangeFrom p resets (n + 1) k m l = exchangeFrom p resets n (k + 1) (m.store k e) l' := by
        rw [exchangeFrom, hr]
      rw [hx]
      refine ⟨⟨.touchByte (m.read resets k), .byte e⟩ :: es, ?_, ?_, ?_, ?_, ?_, ?_, ?_, ?_⟩
      · rw [h.link, hl', Link.advance_append]; rfl
      · simp only [List.length_cons]; exact Nat.succ_le_succ h.bound
      · intro j hj
        cases j with
        | zero => rfl
        | succ j =>
          have := h.calls j (by simpa using hj)
          rw [Memory.read_store_other _ _ _ (by omega : k + 1 + j ≠ k)] at this
          simpa [Nat.add_right_comm, Nat.add_assoc] using this
      · intro j hj
        cases j with
        | zero => simpa using h0.replies 0 (by simp)
        | succ j =>
          have := h.replies j (by simpa using hj)
          rw [hl', Link.answerAt_advance] at this
          simpa [Nat.add_comm] using this
      · intro hok
        obtain ⟨h1, h2, h3⟩ := h.value hok
        refine ⟨by simp [h1], ?_, fun j => ?_⟩
        · intro x hx
          rcases List.mem_cons.1 hx with rfl | hx
          · rfl
          · exact h2 x hx
        · rw [h3 j, hl', Link.answerAt_advance]
          by_cases hj : j = k
          · subst hj
            have h4 : ¬ (j + 1 ≤ j ∧ j < j + 1 + n) := by omega
            have h5 : j ≤ j ∧ j < j + (n + 1) := by omega
            rw [if_neg h4, if_pos h5, Memory.read_store_same, he, Nat.sub_self]
          · rw [Memory.read_store_other _ _ _ hj]
            by_cases h4 : k + 1 ≤ j ∧ j < k + 1 + n
            · have h5 : k ≤ j ∧ j < k + (n + 1) := by omega
              rw [if_pos h4, if_pos h5]
              have : [(⟨.touchByte (m.read resets k), .byte e⟩ : LinkEvent)].length + (j - (k + 1)) = j - k := by
                simp only [List.length_cons, List.length_nil]; omega
              rw [this]
            · have h5 : ¬ (k ≤ j ∧ j < k + (n + 1)) := by omega
              rw [if_neg h4, if_neg h5]
      · intro f hf
        obtain ⟨fs, c, rfl, h2, h3⟩ := h.fault f hf
        refine ⟨⟨.touchByte (m.read resets k), .byte e⟩ :: fs, c, rfl, ?_, fun j => ?_⟩
        · intro x hx
          rcases List.mem_cons.1 hx with rfl | hx
          · rfl
          · exact h2 x hx
        · have hlen : (⟨.touchByte (m.read resets k), .byte e⟩ :: fs : List LinkEvent).length = fs.length + 1 := rfl
          rw [h3 j, hl', Link.answerAt_advance, hlen]
          by_cases hj : j = k
          · subst hj
            have h4 : ¬ (j + 1 ≤ j ∧ j < j + 1 + fs.length) := by omega
            have h5 : j ≤ j ∧ j < j + (fs.length + 1) := by omega
            rw [if_neg h4, if_pos h5, Memory.read_store_same, he, Nat.sub_self]
          · rw [Memory.read_store_other _ _ _ hj]
            by_cases h4 : k + 1 ≤ j ∧ j < k + 1 + fs.length
            · have h5 : k ≤ j ∧ j < k + (fs.length + 1) := by omega
              rw [if_pos h4, if_pos h5]
              have : [(⟨.touchByte (m.read resets k), .byte e⟩ : LinkEvent)].length + (j - (k + 1)) = j - k := by
                simp only [List.length_cons, List.length_nil]; omega
              rw [this]
            · have h5 : ¬ (k ≤ j ∧ j < k + (fs.length + 1)) := by omega
              rw [if_neg h4, if_neg h5]
      · exact fun hw => h.wf (Memory.store_wf hw k e)
      · intro b hb hk
        exact h.inRange b (Memory.store_in_range hb (by omega)) (by omega)
    | error f =>
      have hx : exchangeFrom p resets (n + 1) k m l = (m, (.error f, l')) := by rw [exchangeFrom, hr]
      rw [hx]
      obtain ⟨fs, c, rfl, hfs⟩ := h0.fault f rfl
      have hlen : fs = [] := by
        have := h0.bound
        simp only [List.length_append, List.length_cons, List.length_nil] at this
        exact List.length_eq_zero_iff.1 (by omega)
      subst hlen
      have hc : c = .touchByte (m.read resets k) := h0.calls ⟨c, .fault f⟩ (by simp)
      subst hc
      refine ⟨[⟨.touchByte (m.read resets k), .fault f⟩], h0.link, by simp, ?_, ?_, ?_, ?_, fun h => h, fun b h _ => h⟩
      · intro j hj
        have : j = 0 := by simpa using hj
        subst this
        rfl
      · intro j hj
        exact h0.replies j hj
      · intro h
        simp at h
      · intro g hg
        have : f = g := by simpa using hg
        subst this
        refine ⟨[], _, rfl, by simp, fun j => ?_⟩
        have : ¬ (k ≤ j ∧ j < k + ([] : List LinkEvent).length) := by
          simp only [List.length_nil]; omega
        rw [if_neg this]

/-- Without a fault the loop of EXCHANGE moves all `n` bytes. -/
theorem exchangeFrom_of_quiet {p : Params} {resets : Nat} : ∀ {n k : Nat} {m : Memory} {l : Link},
    l.Quiet p n → (exchangeFrom p resets n k m l).2.1 = .ok ()
  | 0, _, _, _, _ => rfl
  | n + 1, k, m, l, hq => by
    rw [exchangeFrom, touchByte_of_quiet (hq.mono (by omega))]
    exact exchangeFrom_of_quiet (Link.Quiet.log _ _ hq)

end Sys2Proof.Machine
end

