-- ==== Sys2Proof/Laws/Exec.lean ====
section
/-! SUPPORT. What every command does on the link, said once (spec 20 R51, R52, R58; 41 R130; 42 R141 to R148): which
calls it makes, how many at most, and that each is answered by the next answer. -/

namespace Sys2Proof.Machine

/-- The command given in `s` made the calls `es` and left `t`: at most `n` calls, all in `C`, one answer for each. -/
structure State.Ran (C : LinkCall → Prop) (n : Nat) (s t : State) (es : List LinkEvent) : Prop where
  link    : t.link = s.link.command es
  bound   : es.length ≤ n
  calls   : ∀ e ∈ es, C e.call
  replies : ∀ j (h : j < es.length), es[j].reply = replyOf s.params es[j].call (s.answerAt j)

theorem State.Ran.mono {C D : LinkCall → Prop} {n k : Nat} {s t : State} {es : List LinkEvent}
    (h : State.Ran C n s t es) (hn : n ≤ k) (hC : ∀ c, C c → D c) : State.Ran D k s t es :=
  { h with bound := Nat.le_trans h.bound hn, calls := fun e he => hC _ (h.calls e he) }

/-- A command whose link is that of a sequence of calls. -/
theorem LinkOp.Made.ran {α : Type} {C : LinkCall → Prop} {n : Nat} {s t : State} {o : Except LinkFault α × Link}
    {es : List LinkEvent} (h : LinkOp.Made s.params C n s.start.link o es) (ht : t.link = o.2) :
    State.Ran C n s t es :=
  ⟨ht.trans h.link, h.bound, h.calls, h.replies⟩

/-- A command that makes no call. -/
theorem State.Ran.silent {C : LinkCall → Prop} {n : Nat} {s t : State} (h : t.link = s.start.link) :
    State.Ran C n s t [] := ⟨h, Nat.zero_le n, by simp, by simp⟩

/-- The calls a command makes. -/
def callsOf : Instr → LinkCall → Prop
  | .crc8Reset _, _ => False
  | .crc8Update _, _ => False
  | .crc8Check, _ => False
  | .crc16Reset _, _ => False
  | .crc16Update _, _ => False
  | .crc16Check, _ => False
  | .first r _, c => (r = true ∧ c = .reset) ∨ c = .readBit ∨ (∃ b, c = .writeBit b) ∨ ∃ v, c = .touchByte v
  | .next r _, c => (r = true ∧ c = .reset) ∨ c = .readBit ∨ (∃ b, c = .writeBit b) ∨ ∃ v, c = .touchByte v
  | .famSetup _, _ => False
  | .skipFam, _ => False
  | .access, c => c = .reset ∨ ∃ v, c = .touchByte v
  | .verify _, c => c = .reset ∨ c = .readBit ∨ (∃ b, c = .writeBit b) ∨ ∃ v, c = .touchByte v
  | .odAccess, c => c = .reset ∨ (∃ v, c = .setSpeed v) ∨ ∃ v, c = .touchByte v
  | .exchange r _, c => (r = true ∧ c = .reset) ∨ ∃ v, c = .touchByte v
  | .addrWr _ _, _ => False

/-- How many calls a command makes at most. -/
def maxCallsOf : Instr → Nat
  | .crc8Reset _ => 0
  | .crc8Update _ => 0
  | .crc8Check => 0
  | .crc16Reset _ => 0
  | .crc16Update _ => 0
  | .crc16Check => 0
  | .first _ _ => 195
  | .next _ _ => 195
  | .famSetup _ => 0
  | .skipFam => 0
  | .access => 10
  | .verify _ => 194
  | .odAccess => 13
  | .exchange _ len => 1 + len
  | .addrWr _ _ => 0

theorem ran_of_search (r a : Bool) (s u : State) (hl : u.link = s.start.link) (hp : u.params = s.params) :
    ∃ es, State.Ran (callsOf (.next r a)) 195 s (u.nextBody r a) es := by
  unfold State.nextBody
  split
  · exact ⟨[], State.Ran.silent hl⟩
  · obtain ⟨es, h⟩ := makes_search u.params (C := callsOf (.next r a)) r a (fun h => .inl ⟨h, rfl⟩) (.inr (.inl rfl))
      (fun b => .inr (.inr (.inl ⟨b, rfl⟩))) (fun v => .inr (.inr (.inr ⟨v, rfl⟩))) u.addr u.ld u.lfd u.link
    rw [hp, hl] at h
    refine ⟨es, h.ran ?_⟩
    rw [hp, hl]
    rcases State.concludeSearch_cases (search s.params r a u.addr u.ld u.lfd s.start.link) u with
      ⟨_, e⟩ | ⟨_, e⟩ | ⟨_, _, e⟩ | ⟨_, _, e⟩ <;> rw [e]

theorem ran_of_access (s : State) :
    ∃ es, State.Ran (callsOf .access) 10 s (s.start.conclude (accessOps s.params s.addr s.start.link)) es := by
  obtain ⟨es, h⟩ := makes_accessOps s.params (C := callsOf .access) (.inl rfl) (fun v => .inr ⟨v, rfl⟩) s.addr
    s.start.link
  exact ⟨es, h.ran (by rw [State.conclude_eq])⟩

theorem ran_of_verify (a : Bool) (s : State) :
    ∃ es, State.Ran (callsOf (.verify a)) 194 s
      (s.start.concludeVerify (verifyOps s.params a s.addr s.start.link)) es := by
  obtain ⟨es, h⟩ := makes_verifyOps s.params (C := callsOf (.verify a)) a (fun _ => .inl rfl) (.inr (.inl rfl))
    (fun b => .inr (.inr (.inl ⟨b, rfl⟩))) (fun v => .inr (.inr (.inr ⟨v, rfl⟩))) s.addr s.start.link
  obtain ⟨st, b, e, _⟩ := State.concludeVerify_frame (verifyOps s.params a s.addr s.start.link) s.start
  exact ⟨es, h.ran (by rw [e])⟩

/-- The closing `setSpeed` of ODACCESS (R146, R183): on every outcome but Ok there is one call more, whose own outcome
is ignored. -/
theorem closeSpeed_made {p : Params} {C : LinkCall → Prop} {n : Nat} {l : Link} {o : Except LinkFault Status × Link}
    {es : List LinkEvent} (h : LinkOp.Made p C n l o es) :
    (o.1 = .ok .ok ∧ closeSpeed p o = o) ∨
    (o.1 ≠ .ok .ok ∧ (closeSpeed p o).1 = o.1 ∧
      (closeSpeed p o).2 = l.advance (es ++ [⟨.setSpeed .normal, replyOf p (.setSpeed .normal) (l.answerAt es.length)⟩])) := by
  obtain ⟨r, l'⟩ := o
  have hl : l' = l.advance es := h.link
  subst hl
  have key : (setSpeed p .normal (l.advance es)).2 =
      l.advance (es ++ [⟨.setSpeed .normal, replyOf p (.setSpeed .normal) (l.answerAt es.length)⟩]) := by
    obtain ⟨fs, g⟩ := makes_setSpeed p (C := fun c => c = .setSpeed .normal) .normal rfl (l.advance es)
    have hg := g.link
    cases hf : faultOf p (.setSpeed .normal) (l.advance es).nextAnswer with
    | none =>
      rw [setSpeed, ask, hf]
      simp only [Link.log_eq_advance, Link.advance_append]
      rw [Link.nextAnswer_eq, Link.answerAt_advance, Nat.add_zero] at hf
      simp only [replyOf, hf, Link.nextAnswer_eq, Link.answerAt_advance, Nat.add_zero]
    | some k =>
      rw [setSpeed, ask, hf]
      simp only [Link.log_eq_advance, Link.advance_append]
      rw [Link.nextAnswer_eq, Link.answerAt_advance, Nat.add_zero] at hf
      simp only [replyOf, hf]
  cases r with
  | ok st =>
    cases st
    · exact .inl ⟨rfl, rfl⟩
    all_goals exact .inr ⟨by simp, rfl, key⟩
  | error k => exact .inr ⟨by simp, rfl, key⟩

theorem ran_of_odAccess (s : State) :
    ∃ es, State.Ran (callsOf .odAccess) 13 s
      (s.start.conclude (closeSpeed s.params (odAccessOps s.params s.addr s.start.link))) es := by
  obtain ⟨es, h⟩ := makes_odAccessOps s.params (C := callsOf .odAccess) (.inl rfl) (fun v => .inr (.inr ⟨v, rfl⟩))
    (fun v => .inr (.inl ⟨v, rfl⟩)) s.addr s.start.link
  rcases closeSpeed_made h with ⟨_, e⟩ | ⟨_, _, e⟩
  · rw [e]
    exact ⟨es, (h.ran (by rw [State.conclude_eq])).mono (by omega) (fun _ h => h)⟩
  · refine ⟨es ++ [⟨.setSpeed .normal, replyOf s.params (.setSpeed .normal) (s.answerAt es.length)⟩], ?_, ?_, ?_, ?_⟩
    · rw [State.conclude_eq]
      exact e
    · have := h.bound
      simp only [List.length_append, List.length_cons, List.length_nil]
      omega
    · intro x hx
      rcases List.mem_append.1 hx with hx | hx
      · exact h.calls x hx
      · rw [List.mem_singleton.1 hx]
        exact .inr (.inl ⟨.normal, rfl⟩)
    · intro j hj
      by_cases hj' : j < es.length
      · have := h.replies j hj'
        rw [State.start_answerAt] at this
        simpa [List.getElem_append, hj'] using this
      · have e2 : j = es.length := by
          simp only [List.length_append, List.length_cons, List.length_nil] at hj
          omega
        subst e2
        simp

theorem ran_of_exchangeBody (r : Bool) (len : Nat) (s : State) {u : State} {es0 : List LinkEvent}
    (hp : u.params = s.params) (h0 : State.Ran (callsOf (.exchange r len)) 1 s u es0) :
    ∃ es, State.Ran (callsOf (.exchange r len)) (1 + len) s (u.exchangeBody len) es := by
  obtain ⟨es, h⟩ := exchangeFrom_made u.params u.resets len 0 u.buf u.link
  refine ⟨es0 ++ es, ?_, ?_, ?_, ?_⟩
  · have hl : (u.exchangeBody len).link = u.link.advance es := by
      rw [State.exchangeBody, ← h.link]
      rcases State.concludeExchange_cases (exchangeFrom u.params u.resets len 0 u.buf u.link) u with
        ⟨_, e⟩ | ⟨_, _, e⟩ <;> rw [e]
    rw [hl, h0.link]
    exact Link.advance_append s.start.link es0 es
  · rw [List.length_append]
    exact Nat.add_le_add h0.bound h.bound
  · intro x hx
    rcases List.mem_append.1 hx with hx | hx
    · exact h0.calls x hx
    · obtain ⟨j, hj, rfl⟩ := List.getElem_of_mem hx
      exact .inr ⟨_, h.calls j hj⟩
  · intro j hj
    by_cases hj' : j < es0.length
    · simpa [List.getElem_append, hj'] using h0.replies j hj'
    · have hk : j - es0.length < es.length := by rw [List.length_append] at hj; omega
      have := h.replies (j - es0.length) hk
      rw [h0.link, hp] at this
      have e : (s.link.command es0).answerAt (j - es0.length) = s.answerAt j := by
        have := Link.answerAt_advance s.start.link es0 (j - es0.length)
        rw [Nat.add_sub_cancel' (Nat.le_of_not_lt hj')] at this
        exact this
      rw [e] at this
      simpa [List.getElem_append, hj'] using this

theorem ran_of_exchange (r : Bool) (len : Nat) (s : State) :
    ∃ t es, execExchange r len s = .next t ∧ State.Ran (callsOf (.exchange r len)) (1 + len) s t es := by
  rcases execExchange_cases r len s with ⟨_, e⟩ | ⟨_, hr, k, l, hl, e⟩ | ⟨_, hr, l, hl, e⟩ | ⟨_, hr, l, hl, e⟩ | ⟨_, _, e⟩
  · exact ⟨_, [], e, State.Ran.silent rfl⟩
  · obtain ⟨es, h⟩ := makes_linkReset s.params (C := callsOf (.exchange r len)) (.inl ⟨hr, rfl⟩) s.start.link
    rw [hl] at h
    exact ⟨_, es, e, (h.ran rfl).mono (by omega) (fun _ h => h)⟩
  · obtain ⟨es, h⟩ := makes_linkReset s.params (C := callsOf (.exchange r len)) (.inl ⟨hr, rfl⟩) s.start.link
    rw [hl] at h
    exact ⟨_, es, e, (h.ran rfl).mono (by omega) (fun _ h => h)⟩
  · obtain ⟨es0, h⟩ := makes_linkReset s.params (C := callsOf (.exchange r len)) (.inl ⟨hr, rfl⟩) s.start.link
    rw [hl] at h
    obtain ⟨es, h1⟩ := ran_of_exchangeBody r len s (u := s.start.setLink l) rfl (h.ran rfl)
    exact ⟨_, es, e, h1⟩
  · obtain ⟨es, h1⟩ := ran_of_exchangeBody r len s (u := s.start) rfl (State.Ran.silent rfl)
    exact ⟨_, es, e, h1⟩

/-- Every command answers a next state, and what it did on the link. -/
theorem exec_ran (i : Instr) (s : State) : ∃ t es, exec i s = .next t ∧ State.Ran (callsOf i) (maxCallsOf i) s t es := by
  cases i with
  | crc8Reset seed => exact ⟨_, [], rfl, State.Ran.silent rfl⟩
  | crc8Update b => exact ⟨_, [], rfl, State.Ran.silent rfl⟩
  | crc8Check => exact ⟨_, [], rfl, State.Ran.silent rfl⟩
  | crc16Reset seed => exact ⟨_, [], rfl, State.Ran.silent rfl⟩
  | crc16Update b => exact ⟨_, [], rfl, State.Ran.silent rfl⟩
  | crc16Check => exact ⟨_, [], rfl, State.Ran.silent rfl⟩
  | first r a =>
    obtain ⟨es, h⟩ := ran_of_search r a s (s.start.setSearch (.num 0) 0 false) rfl rfl
    exact ⟨_, es, rfl, h⟩
  | next r a =>
    obtain ⟨es, h⟩ := ran_of_search r a s s.start rfl rfl
    exact ⟨_, es, rfl, h⟩
  | famSetup code => exact ⟨_, [], rfl, State.Ran.silent rfl⟩
  | skipFam => exact ⟨_, [], rfl, State.Ran.silent rfl⟩
  | access =>
    obtain ⟨es, h⟩ := ran_of_access s
    exact ⟨_, es, rfl, h⟩
  | verify a =>
    obtain ⟨es, h⟩ := ran_of_verify a s
    exact ⟨_, es, rfl, h⟩
  | odAccess =>
    obtain ⟨es, h⟩ := ran_of_odAccess s
    exact ⟨_, es, rfl, h⟩
  | exchange r len => exact ran_of_exchange r len s
  | addrWr idx b => exact ⟨_, [], rfl, State.Ran.silent rfl⟩

end Sys2Proof.Machine
end

