-- ==== Sys2Proof/Laws/PerInstr.lean ====
section
/-! SUPPORT. One statement per command, about its encoding: the word of a command matches the command's own row of the
opcode map (spec 30 R75). -/

namespace Sys2Proof.Laws.EncodedWord

/-- The encoded word matches the row of R75 the command belongs to. -/
def Statement (i : Instr) : Prop := matchesRow (encode i) (opcodeMap.getD i.rowIndex.val (0, 0)) = true

/-- A word built from fields matches a row when the row's match is built from the same fields under its mask. -/
theorem matchesRow_of_bits {w m k : Word} (h : ∀ i < 32, (w.getLsbD i && k.getLsbD i) = m.getLsbD i) :
    matchesRow w (m, k) = true := by
  simp only [matchesRow, beq_iff_eq]
  apply BitVec.eq_of_getLsbD_eq
  intro i hi
  rw [BitVec.getLsbD_and]
  exact h i hi

theorem crc8Reset (seed : Byte) : Statement (.crc8Reset seed) := by
  apply matchesRow_of_bits
  intro i hi
  interval_cases i <;> simp only [encode, wordOf, immByte, BitVec.getLsbD_append, BitVec.getLsbD_ofBool] <;> simp

theorem crc8Update (b : Byte) : Statement (.crc8Update b) := by
  apply matchesRow_of_bits
  intro i hi
  interval_cases i <;> simp only [encode, wordOf, immByte, BitVec.getLsbD_append, BitVec.getLsbD_ofBool] <;> simp

theorem crc8Check : Statement .crc8Check := by rfl

theorem crc16Reset (seed : Half) : Statement (.crc16Reset seed) := by
  apply matchesRow_of_bits
  intro i hi
  interval_cases i <;> simp only [encode, wordOf, BitVec.getLsbD_append, BitVec.getLsbD_ofBool] <;> simp

theorem crc16Update (b : Byte) : Statement (.crc16Update b) := by
  apply matchesRow_of_bits
  intro i hi
  interval_cases i <;> simp only [encode, wordOf, immByte, BitVec.getLsbD_append, BitVec.getLsbD_ofBool] <;> simp

theorem crc16Check : Statement .crc16Check := by rfl

theorem first (r a : Bool) : Statement (.first r a) := by cases r <;> cases a <;> rfl

theorem next (r a : Bool) : Statement (.next r a) := by cases r <;> cases a <;> rfl

theorem famSetup (code : Byte) : Statement (.famSetup code) := by
  apply matchesRow_of_bits
  intro i hi
  interval_cases i <;> simp only [encode, wordOf, immByte, BitVec.getLsbD_append, BitVec.getLsbD_ofBool] <;> simp

theorem skipFam : Statement .skipFam := by rfl

theorem access : Statement .access := by rfl

theorem verify (a : Bool) : Statement (.verify a) := by cases a <;> rfl

theorem odAccess : Statement .odAccess := by rfl

theorem exchange (r : Bool) (len : Nat) : Statement (.exchange r len) := by
  apply matchesRow_of_bits
  intro i hi
  interval_cases i <;> simp only [encode, wordOf, BitVec.getLsbD_append, BitVec.getLsbD_ofBool] <;> simp

theorem addrWr (idx : Fin 8) (b : Byte) : Statement (.addrWr idx b) := by
  apply matchesRow_of_bits
  intro i hi
  interval_cases i <;>
    simp only [encode, wordOf, immIndexByte, BitVec.getLsbD_append, BitVec.getLsbD_ofBool] <;> simp

end Sys2Proof.Laws.EncodedWord
end

