-- ==== Sys2Proof/Machine/Assembler.lean ====
section
/-! DEFINITION. The assembler's side of the command set: the text of a command (spec 30 R79) and the pseudo-commands
(30 R80). No part of the machine: what the host writes before it gives a word. -/

namespace Sys2Proof.Machine

/-! ## The text of a command (R79) -/

/-- A flag is written as 0 or 1. -/
def flagText (b : Bool) : String := if b then "1" else "0"

/-- The operands in order, the flags in the order `r, a`. DESIGN CHOICE (log 16): numbers in decimal. -/
def operandTexts : Instr → List String
  | .crc8Reset seed => [toString seed.toNat]
  | .crc8Update b => [toString b.toNat]
  | .crc8Check => []
  | .crc16Reset seed => [toString seed.toNat]
  | .crc16Update b => [toString b.toNat]
  | .crc16Check => []
  | .first r a => [flagText r, flagText a]
  | .next r a => [flagText r, flagText a]
  | .famSetup code => [toString code.toNat]
  | .skipFam => []
  | .access => []
  | .verify a => [flagText a]
  | .odAccess => []
  | .exchange r len => [flagText r, toString len]
  | .addrWr idx b => [toString idx.val, toString b.toNat]

/-- One command as a line of text: "the mnemonic of rule R75 in capitals, operands separated by commas". DESIGN CHOICE
(log 16): one space after the mnemonic and one after each comma. -/
def asmText (i : Instr) : String :=
  match operandTexts i with
  | [] => i.mnemonic
  | ops => i.mnemonic ++ " " ++ String.intercalate ", " ops

/-- The value of a digit in a base. DESIGN CHOICE (log 16): a hexadecimal digit in either case. -/
def digitValue (base : Nat) (c : Char) : Option Nat :=
  let n := c.toNat
  let v := if 48 ≤ n ∧ n ≤ 57 then n - 48 else if 65 ≤ n ∧ n ≤ 70 then n - 55 else if 97 ≤ n ∧ n ≤ 102 then n - 87 else base
  if v < base then some v else none

/-- A number in a base, most significant digit first. -/
def digitsValue (base : Nat) : Nat → List Char → Option Nat
  | acc, [] => some acc
  | acc, c :: cs =>
    match digitValue base c with
    | some v => digitsValue base (acc * base + v) cs
    | none => none

/-- A number "in decimal or `0x` hexadecimal" (R79). DESIGN CHOICE (log 16): leading zeros are
allowed. -/
def parseNumber : List Char → Option Nat
  | [] => none
  | '0' :: 'x' :: c :: cs => digitsValue 16 0 (c :: cs)
  | cs => digitsValue 10 0 cs

/-- A number below a bound. -/
def parseBelow (bound : Nat) (cs : List Char) : Option Nat :=
  match parseNumber cs with
  | some n => if n < bound then some n else none
  | none => none

/-- A flag, 0 or 1. DESIGN CHOICE (log 16): in any spelling of that number, `01` and `0x1` too. -/
def parseFlag (cs : List Char) : Option Bool := (parseBelow 2 cs).map (· == 1)

/-- A byte. -/
def parseByte (cs : List Char) : Option Byte := (parseBelow 256 cs).map (BitVec.ofNat 8)

/-- The pieces between commas. -/
def splitCommas : List Char → List (List Char)
  | [] => [[]]
  | c :: cs =>
    match splitCommas cs with
    | [] => [[c]]
    | p :: ps => if c = ',' then [] :: p :: ps else (c :: p) :: ps

/-- Without the blanks. DESIGN CHOICE (log 16; R79 is silent on blanks): spaces and tabs among the operands are
dropped wherever they stand, inside a number too, so `1 2` reads as 12. -/
def dropBlanks (cs : List Char) : List Char := cs.filter (fun c => !(c == ' ' || c == '\t'))

/-- The command of a mnemonic and its operands, each without blanks. -/
def parseOperands (mnemonic : List Char) (ops : List (List Char)) : Option Instr :=
  match String.ofList mnemonic, ops with
  | "CRC8.RESET", [x] => (parseByte x).map .crc8Reset
  | "CRC8.UPDATE", [x] => (parseByte x).map .crc8Update
  | "CRC8.CHECK", [] => some .crc8Check
  | "CRC16.RESET", [x] => (parseBelow 65536 x).map fun n => .crc16Reset (BitVec.ofNat 16 n)
  | "CRC16.UPDATE", [x] => (parseByte x).map .crc16Update
  | "CRC16.CHECK", [] => some .crc16Check
  | "FIRST", [r, a] => (parseFlag r).bind fun r => (parseFlag a).map fun a => .first r a
  | "NEXT", [r, a] => (parseFlag r).bind fun r => (parseFlag a).map fun a => .next r a
  | "FAMSETUP", [x] => (parseByte x).map .famSetup
  | "SKIPFAM", [] => some .skipFam
  | "ACCESS", [] => some .access
  | "VERIFY", [a] => (parseFlag a).map .verify
  | "ODACCESS", [] => some .odAccess
  | "EXCHANGE", [r, n] => (parseFlag r).bind fun r => (parseBelow 65536 n).map fun n => .exchange r n
  | "ADDRWR", [k, x] => (parseBelow 8 k).bind fun k => (parseByte x).map fun b => .addrWr (Fin.ofNat 8 k) b
  | _, _ => none

/-- One line of assembler text (R79): "A comment runs from `;` to the end of the line". DESIGN CHOICE (log 16; R79 is
silent on blanks): spaces may stand before the mnemonic and the first space after it ends it; a tab before it or right
after it is refused; a line without a command is refused. -/
def parseLine (line : List Char) : Option Instr :=
  let text := (line.takeWhile (· != ';')).dropWhile (· == ' ')
  let mnemonic := text.takeWhile (· != ' ')
  let rest := dropBlanks (text.dropWhile (· != ' '))
  parseOperands mnemonic (match rest with
    | [] => []
    | cs => splitCommas cs)

/-! ## The pseudo-commands (R80) -/

/-- A command as the host's access. -/
def give (i : Instr) : HostAccess := .command (encode i)

/-- `SETADDR b0, ..., b7`: eight ADDRWR, for the bytes of an address. -/
def pseudoSetAddr (x : Address) : List HostAccess :=
  (List.finRange 8).map fun k => give (.addrWr k (addrByte x k.val))

/-- `ACCESSADDR b0, ..., b7`: SETADDR, then ACCESS. -/
def pseudoAccessAddr (x : Address) : List HostAccess := pseudoSetAddr x ++ [give .access]

/-- `READ r, n`: 0xFF in `BUF[0..n-1]`, then EXCHANGE. -/
def pseudoRead (r : Bool) (n : Nat) : List HostAccess :=
  (List.range n).map (fun k => .writeBuf k 0xFF) ++ [give (.exchange r n)]

/-- `CRC8.BLOCK seed, b0, ..., bn-1`. -/
def pseudoCrc8Block (seed : Byte) (bytes : List Byte) : List HostAccess :=
  give (.crc8Reset seed) :: bytes.map fun b => give (.crc8Update b)

/-- `CRC16.BLOCK seed, b0, ..., bn-1`. -/
def pseudoCrc16Block (seed : Half) (bytes : List Byte) : List HostAccess :=
  give (.crc16Reset seed) :: bytes.map fun b => give (.crc16Update b)

/-- The host's loop of `ENUMERATE`: NEXT repeated while `RES = 1`, at most `fuel` times, with the addresses read
after each command that gave one. -/
def enumerateFrom (r a : Bool) : (fuel : Nat) → State → List Address × State
  | 0, s => ([], s)
  | fuel + 1, s =>
    if s.res then
      match exec (.next r a) s with
      | .next t => (s.addr :: (enumerateFrom r a fuel t).1, (enumerateFrom r a fuel t).2)
      | .fault _ => ([s.addr], s)
      | .refused _ => ([s.addr], s)
    else ([], s)

/-- `ENUMERATE r, a`: "`FIRST r, a` ; then `NEXT r, a` repeated while `RES = 1`". The repetition is the host's (R81),
bounded here by `fuel`. -/
def pseudoEnumerate (r a : Bool) (fuel : Nat) (s : State) : List Address × State :=
  match exec (.first r a) s with
  | .next t => enumerateFrom r a fuel t
  | .fault _ => ([], s)
  | .refused _ => ([], s)

end Sys2Proof.Machine
end

