-- ==== Sys2Proof/Tests/Slice0.lean ====
section
/-! SUPPORT. Tests, their expected results from spec 95_test_vectors.md and 30 R76, and for every statement of
Obligations.lean that has hypotheses a witness that meets them. -/

namespace Sys2Proof.Machine

/-! ## Helpers -/

/-- The reset state of an instance with MAX_BLOCK_LEN 32 and `isAlarmClockFamily` false everywhere (95). -/
def t0 : State := { State.reset with params := ⟨32, [], false, true⟩ }

/-- The same with LINK_FAULT_CHANNEL = 1. -/
def tf : State := { State.reset with params := ⟨32, [], true, true⟩ }

/-- A state with the far side's next answers written down. -/
def feed (s : State) (as : List Answer) : State := { s with link := { s.link with answers := as } }

/-- The state an outcome leaves. -/
def after (o : Host.Outcome State Fault Refusal) : State :=
  match o with
  | .next t => t
  | .fault _ => t0
  | .refused _ => t0

theorem exec_first_after (r a : Bool) (s : State) : exec (.first r a) s = .next (after (exec (.first r a) s)) := rfl
theorem exec_next_after (r a : Bool) (s : State) : exec (.next r a) s = .next (after (exec (.next r a) s)) := rfl

def here : Answer := { presence := true }
def seen (v : Byte) : Answer := { byte := v }
def adapterFault : Answer := { fault := some .adapterFault }
def shortCircuit : Answer := { fault := some .shortCircuit }

/-- The answers of one search position, the pair read being (a, b). -/
def pair (a b : Bool) : List Answer := [{ bit := a }, { bit := b }, {}]

/-- The answers of positions written as 95 section 3.1 writes them: three digits, the two bits read and the bit
written. -/
def positions (ds : List Nat) : List Answer := ds.flatMap fun d => pair (d / 100 == 1) (d / 10 % 10 == 1)

/-- The answers of a pass that yields `x` with discrepancies at the positions `ds`. -/
def passOf (x : Address) (ds : List Nat) : List Answer :=
  (List.range 64).flatMap fun i => if ds.contains i then pair false false else pair (abit x i) (!abit x i)

/-- The answers of a search with one bus reset. -/
def searchAnswers (as : List Answer) : List Answer := here :: seen 0xF0 :: as

/-- The bits a trace drives. -/
def driven (es : List LinkEvent) : List Bool :=
  es.filterMap fun e => match e.call with
    | .writeBit b => some b
    | _ => none

/- The addresses of 95 section 0, written byte 7 first. -/
def addrA : Address := 0x49F6E5D4C3B2A110
def addrB : Address := 0x7566554433221101
def addrC : Address := 0xF40000000000011D
def addrD : Address := 0xC576E5D4C3B2A110
def addrQ : Address := 0x9504050607080904
def addrZ : Address := 0x8006050403020100

/-- A healthy device. -/
def device (x : Address) : Device := { addr := x, alarming := false, script := [], mode := .idle }

/-- The bus {A, B, C} of 95 section 1.2. -/
def busABC : Bus := [device addrA, device addrB, device addrC]

/-! ## Words and well-formedness -/

/-- R74: a length above 65535 has no word. -/
theorem test_wf_refuses_long_length : (Instr.exchange true 65536).wf = false := by decide

theorem test_wf_takes_longest_length : (Instr.exchange true 65535).wf = true := by decide

/- One word per format, field by field (R72, R76): opc, z, r, a, imm. -/
theorem test_decode_crc8_reset : decode 0b00010000_000000_0_0_0000000000000000 = .ok (.crc8Reset 0) := by decide
theorem test_decode_crc8_update : decode 0b00010001_000000_0_0_0000000001011110 = .ok (.crc8Update 0x5E) := by decide
theorem test_decode_crc8_check : decode 0b00010010_000000_0_0_0000000000000000 = .ok .crc8Check := by decide
theorem test_decode_crc16_reset : decode 0b00011000_000000_0_0_0001001000110100 = .ok (.crc16Reset 0x1234) := by decide
theorem test_decode_crc16_update : decode 0b00011001_000000_0_0_0000000010101010 = .ok (.crc16Update 0xAA) := by decide
theorem test_decode_crc16_check : decode 0b00011010_000000_0_0_0000000000000000 = .ok .crc16Check := by decide
theorem test_decode_first : decode 0b00100000_000000_1_0_0000000000000000 = .ok (.first true false) := by decide
theorem test_decode_next : decode 0b00100001_000000_0_1_0000000000000000 = .ok (.next false true) := by decide
theorem test_decode_famsetup : decode 0b00100010_000000_0_0_0000000000010000 = .ok (.famSetup 0x10) := by decide
theorem test_decode_skipfam : decode 0b00100011_000000_0_0_0000000000000000 = .ok .skipFam := by decide
theorem test_decode_access : decode 0b00110000_000000_0_0_0000000000000000 = .ok .access := by decide
theorem test_decode_verify : decode 0b00110001_000000_0_1_0000000000000000 = .ok (.verify true) := by decide
theorem test_decode_odaccess : decode 0b00110010_000000_0_0_0000000000000000 = .ok .odAccess := by decide
theorem test_decode_exchange : decode 0b00110011_000000_1_0_0000000000001001 = .ok (.exchange true 9) := by decide
theorem test_decode_addrwr : decode 0b00110100_000000_0_0_00000_111_01001001 = .ok (.addrWr 7 0x49) := by decide

/-- 95 section 5: the illegal words. -/
theorem test_illegal_words : (([0x00000000, 0xFFFFFFFF, 0x13000000, 0x30020000, 0x30000001, 0x11000100, 0x20020001,
    0x20040000, 0x31020000, 0x33010003, 0x34000849, 0x18010000] : List Word).all fun w =>
    decide ((decode w).toOption = none ∧ (after (runWord w t0)).status = .illegalCommand)) = true := by decide +kernel

/-- R75's table is spec/opcode_table.json's, and no two rows share a word. -/
theorem test_rows_do_not_overlap :
    opcodeMap.Pairwise fun x y => (x.1 ^^^ y.1) &&& x.2 &&& y.2 ≠ 0 := by decide

/-- R79: a line of assembler text. -/
theorem test_asm_line : parseLine ['A', 'D', 'D', 'R', 'W', 'R', ' ', '7', ',', ' ', '0', 'x', '4', '9', ' ', ';', ' ', 'x']
    = some (.addrWr 7 0x49) := by decide +kernel

/-! ## The CRC engines (95 section 2) -/

theorem test_crc8_reset : (after (exec (.crc8Reset 0x5A) t0)).crc8 = 0x5A := by decide
theorem test_crc8_update : (after (exec (.crc8Update 0x01) t0)).crc8 = 0x5E := by decide
theorem test_crc8_update_last : (after (exec (.crc8Update 0x49) { t0 with crc8 := 0x49 })).crc8 = 0x00 := by decide
theorem test_crc8_check_fails : (after (exec .crc8Check { t0 with crc8 := 0x01 })).status = .crcFailure := by decide
theorem test_crc16_reset : (after (exec (.crc16Reset 0x1234) t0)).crc16 = 0x1234 := by decide
theorem test_crc16_update : (after (exec (.crc16Update 0x01) t0)).crc16 = 0xC0C1 := by decide
theorem test_crc16_update_high : (after (exec (.crc16Update 0x00) { t0 with crc16 := 0xFFFF })).crc16 = 0x40BF := by
  decide
theorem test_crc16_check : (after (exec .crc16Check { t0 with crc16 := 0xB001 })).res = true := by decide
theorem test_crc16_check_fails : (after (exec .crc16Check { t0 with crc16 := 0xE272 })).status = .crcFailure := by decide

/-- 95 section 2.1, 2.2: running values over A and over "123456789". -/
theorem test_crc_runs : crc8 (addrBytes addrA) = 0x00 ∧ crc8 ((addrBytes addrB).take 6) = 0x8F ∧
    crc16 [0x31, 0x32, 0x33, 0x34, 0x35, 0x36, 0x37, 0x38, 0x39] = 0xBB3D ∧ crc16Trailer 0xBB3D = [0xC2, 0x44] := by
  decide +kernel

/-! ## The enumerator (95 section 3) -/

/-- 95 section 3.1, pass 1 as it is printed. -/
def pass1 : List Nat :=
  [000, 010, 010, 010, 101, 010, 010, 010, 101, 010, 010, 010, 010, 101, 010, 101] ++
  [010, 101, 010, 010, 101, 101, 010, 101, 101, 101, 010, 010, 010, 010, 101, 101] ++
  [010, 010, 101, 010, 101, 010, 101, 101, 101, 010, 101, 010, 010, 101, 101, 101] ++
  [010, 101, 101, 010, 101, 101, 101, 101, 101, 010, 010, 101, 010, 010, 101, 010]

/-- 95 section 1.2 line 1 and section 3.1 pass 1: FIRST yields A. -/
theorem test_first_yields_A :
    let t := after (exec (.first true false) (feed t0 (searchAnswers (positions pass1))))
    t.addr = addrA ∧ t.ld = .num 1 ∧ t.lfd = 1 ∧ t.ldf = false ∧ t.res = true ∧ t.link.calls = 194 ∧
      driven t.link.trace = pass1.map fun d => d % 10 == 1 := by decide +kernel

/-- 95 section 3.5 case a. -/
theorem test_first_on_empty_bus :
    let t := after (exec (.first true false) (feed t0 [{}]))
    t.status = .noPresence ∧ t.ld = .num 0 ∧ t.link.trace = [⟨.reset, .presence false⟩] := by decide

/-- 95 section 3.2 line 2: the discrepancy at 0, below HI, is recorded again (decision D8). -/
theorem test_next_records_below_hi :
    let t := after (exec (.next true false)
      (feed { t0 with addr := addrD, ld := .num 56, lfd := 1 } (searchAnswers (passOf addrA [0, 55]))))
    t.addr = addrA ∧ t.ld = .num 1 ∧ t.lfd = 1 ∧ t.ldf = false := by decide +kernel

/-- 95 section 3.1 pass 3: no record; `LFD` keeps what it held. -/
theorem test_next_at_the_last_device :
    let t := after (exec (.next true false)
      (feed { t0 with addr := addrB, ld := .num 3, lfd := 3 } (searchAnswers (passOf addrC [0, 2]))))
    t.addr = addrC ∧ t.ld = .none ∧ t.lfd = 3 ∧ t.ldf = true ∧ t.res = true := by decide +kernel

/-- 95 section 3.3. -/
theorem test_famsetup :
    let t := after (exec (.famSetup 0x10) t0)
    t.addr = 0x10 ∧ t.ld = .num 64 ∧ t.lfd = 0 ∧ t.ldf = false ∧ t.res = true := by decide

/-- 95 section 3.4 line 2 and line 6. -/
theorem test_skipfam : (after (exec .skipFam { t0 with ld := .num 56, lfd := 1 })).ld = .num 1 := by decide
theorem test_skipfam_at_zero : (after (exec .skipFam { t0 with ld := .none, lfd := 0, ldf := true })).ld = .num 0 := by
  decide

/-! ## The selector (95 section 4) -/

/-- 95 section 4.1 step 1, and the noisy echo of the third address byte: all nine bytes are still sent. -/
theorem test_access : (after (exec .access (feed { t0 with addr := addrA }
    (here :: seen 0x55 :: (addrBytes addrA).map seen)))).status = .ok := by decide
theorem test_access_noisy :
    let t := after (exec .access (feed { t0 with addr := addrA }
      [here, seen 0x55, seen 0x10, seen 0xA1, seen 0xB0, seen 0xC3, seen 0xD4, seen 0xE5, seen 0xF6, seen 0x49]))
    t.status = .echoMismatch ∧ t.link.calls = 10 := by decide

/-- 95 section 4.2, bus {A}: 7 matches are too few, 8 are enough. -/
theorem test_verify_seven : (after (exec (.verify false) (feed { t0 with addr := 0x49F6E5D4C3B2A190 }
    (searchAnswers ((passOf addrA []).take 24 ++ (List.replicate 57 (pair true true)).flatten))))).res = false := by
  decide +kernel
theorem test_verify_eight : (after (exec (.verify false) (feed { t0 with addr := 0x49F6E5D4C3B2A010 }
    (searchAnswers ((passOf addrA []).take 27 ++ (List.replicate 56 (pair true true)).flatten))))).res = true := by
  decide +kernel

/-- 95 section 4.4, lines 1 and 3. -/
theorem test_odaccess :
    let t := after (exec .odAccess (feed { t0 with addr := addrA }
      ([{}, here, seen 0x69, { speed := .overdrive }] ++ (addrBytes addrA).map seen)))
    t.status = .ok ∧ t.link.calls = 12 := by decide
theorem test_odaccess_command_echo :
    let t := after (exec .odAccess (feed { t0 with addr := addrA } [{}, here, seen 0x29, {}]))
    t.status = .echoMismatch ∧ t.link.trace = [⟨.setSpeed .normal, .speed .normal⟩, ⟨.reset, .presence true⟩,
      ⟨.touchByte 0x69, .byte 0x29⟩, ⟨.setSpeed .normal, .speed .normal⟩] := by decide

/-- 95 section 4.1 step 2, and the over-long exchange. -/
theorem test_exchange :
    let t := after (exec (.exchange false 3) (feed { t0 with buf := [(0, 0xBE), (1, 0xFF), (2, 0xFF)] }
      [seen 0xBE, seen 0x12, seen 0x34]))
    t.buf = [(0, 0xBE), (1, 0x12), (2, 0x34)] ∧ t.link.trace = [⟨.touchByte 0xBE, .byte 0xBE⟩,
      ⟨.touchByte 0xFF, .byte 0x12⟩, ⟨.touchByte 0xFF, .byte 0x34⟩] := by decide
theorem test_exchange_too_long : (after (exec (.exchange true 33) t0)).status = .lengthExceeded := by decide

/-- 95 section 4.5. -/
theorem test_addrwr : (after (exec (.addrWr 7 0x49) { t0 with addr := 0x00F6E5D4C3B2A110 })).addr = addrA := by decide
theorem test_addrwr_zero_family : (after (exec (.addrWr 0 0x00) { t0 with addr := addrA })).addr = 0x49F6E5D4C3B2A100 := by
  decide

/-- 95 program P1: the register port at its end. -/
theorem test_register_port :
    let s := { t0 with ld := .resetSentinel, status := .endOfSearch }
    s.regRead 0x00 = 0x07 ∧ s.regRead 0x01 = 0x00 ∧ s.regRead 0x02 = 0xFF ∧ s.regRead 0x03 = 0x00 := by decide

/-! ## Witnesses: the encoding -/

theorem witness_DecodeOfEncode : (Instr.exchange true 65535).wf = true ∧ (Instr.addrWr 7 0xFF).wf = true := by decide
theorem witness_EncodeOfDecode : decode 0x3302FFFF = .ok (.exchange true 65535) := by decide
theorem witness_WordIsTheCommandOfItsMatchingRow :
    (0x340007FF : Word) &&& 0xFFFFF800 = 0x34000000 ∧ decode 0x340007FF = .ok (.addrWr 7 0xFF) := by decide
theorem witness_OperandsAreTheirFields :
    decode 0x1800FFFF = .ok (.crc16Reset 0xFFFF) ∧ t0.params.maxBlockLen < 33 := by decide

/-! ## Witnesses: steps and reset -/

theorem witness_StepRunsTheDecodedCommand :
    { t0 with host := [.command 0x23000000, .hardReset] }.host = .command 0x23000000 :: [.hardReset] ∧
    decode 0x23000000 = .ok .skipFam ∧ decodeTableWord 32 0x23000000 = some .skipFam := ⟨rfl, by decide, by decide⟩
theorem witness_IllegalWord : (∀ k : Fin 15, matchesRow 0x30020000 (opcodeMap.get k) = false) ∧
    { t0 with host := [.command 0x30020000] }.host = .command 0x30020000 :: [] := ⟨by decide, rfl⟩
theorem witness_IdleCoreWaits : State.reset.host = [] := rfl
theorem witness_ResetValuesOfTheSpec : { t0 with host := [.hardReset], ld := .num 3 }.host = .hardReset :: [] := rfl
theorem witness_HardResetDuringACommand :
    { t0 with host := [.commandCut 0x30000000 4] }.host = .commandCut 0x30000000 4 :: [] := rfl
theorem witness_StepKeepsTheInvariant : { t0 with host := [.command 0x22000010] }.Inv ∧
    step { t0 with host := [.command 0x22000010] } = .next (after (exec (.famSetup 0x10) t0)) :=
  ⟨⟨by decide, by decide, by decide, by decide, by decide, by decide, by decide, by decide⟩, rfl⟩
theorem witness_NoneInLd : ({ t0 with ld := .none, ldf := true }.ld = .none →
      { t0 with ld := .none, ldf := true }.ldf = true) ∧
    step { t0 with ld := .none, ldf := true, host := [.readReg 0] } =
      .next { t0 with ld := .none, ldf := true, readData := some 0 } ∧
    { t0 with ld := .none, ldf := true, readData := some 0 }.ld = .none := ⟨fun _ => rfl, rfl, rfl⟩
theorem witness_StepFaultsOnlyOnBufIndexOutOfRange :
    { t0 with host := [.readBuf 32] }.host = .readBuf 32 :: [] ∧ { t0 with host := [.writeBuf 33 1] }.host =
      .writeBuf 33 1 :: [] ∧ t0.params.maxBlockLen ≤ 32 := by decide

/-! ## Witnesses: the CRC engines -/

theorem witness_Crc16Residual : { t0 with crc16 := 0xE272 }.crc16 ≠ 0xB001 := by decide
theorem witness_Crc8SingleBit : (63 : Nat) < 64 ∧ addrValid addrA = true ∧
    ∀ j < 64, abit 0xC9F6E5D4C3B2A110 j = (abit addrA j ^^ decide (j = 63)) := by decide +kernel

theorem witness_CrcRegistersArePrivate :
    match Instr.first true false with
    | .crc8Reset _ => False | .crc8Update _ => False | .crc8Check => False
    | .crc16Reset _ => False | .crc16Update _ => False | .crc16Check => False
    | .first _ _ => True | .next _ _ => True | .famSetup _ => True | .skipFam => True
    | .access => True | .verify _ => True | .odAccess => True | .exchange _ _ => True | .addrWr _ _ => True :=
  True.intro

/-! ## Witnesses: the enumerator -/

/-- A search that yields A from the reset state. -/
def sA : State := feed t0 (searchAnswers (passOf addrA [0]))

/-- A search standing at A that yields B (95 section 3.1 pass 2). -/
def sB : State := feed { t0 with addr := addrA, ld := .num 1, lfd := 1 } (searchAnswers (passOf addrB [0, 2]))

theorem witness_NextAfterTheLastDevice : { t0 with addr := addrC, ld := .none, ldf := true }.ldf = true := rfl

/-- Both resets of a search from an address of the alarming-clock family (95 section 3.7), present and not. -/
theorem witness_SearchResetsTheBusFirst :
    let p : Params := ⟨32, [0x04, 0x84], false, true⟩
    let s := { t0 with params := p, addr := addrQ }
    s.ldf = false ∧ s.resetCalls true = 2 ∧ t0.resetCalls true = 1 ∧ (feed s [here, {}]).Quiet 2 ∧
      ((feed s [here, {}]).answerAt 1).presence = false ∧ ((feed s [{}, here]).answerAt 1).presence = true :=
  ⟨rfl, by decide, by decide, .inl rfl, by decide, by decide⟩

theorem witness_NextYields :
    sB.ldf = false ∧ (∀ n, sB.ld = .num n → 1 = n.val) ∧ ((∀ n, sB.ld ≠ .num n) → 1 = 0) ∧
    sB.Quiet (sB.resetCalls true + 193) ∧ (true = true → (sB.answerAt (sB.resetCalls true - 1)).presence = true) ∧
    (∀ i < 64, ¬ (sB.readA true i = true ∧ sB.readB true i = true)) ∧
    (∀ i < 64, abit addrB i = if sB.readA true i = sB.readB true i
      then (if i + 1 < 1 then abit sB.addr i else decide (i + 1 = 1)) else sB.readA true i) ∧
    addrByte addrB 0 ≠ 0 ∧ crc8 ((addrBytes addrB).take 7) 0 = addrByte addrB 7 := by
  refine ⟨rfl, ?_, fun h => absurd rfl (h 1), .inl rfl, ?_, ?_, ?_, ?_, ?_⟩
  · intro n h; cases h; rfl
  all_goals decide +kernel

theorem witness_FirstYields :
    sA.Quiet (sA.resetCalls true + 193) ∧ (true = true → (sA.answerAt (sA.resetCalls true - 1)).presence = true) ∧
    (∀ i < 64, ¬ (sA.readA true i = true ∧ sA.readB true i = true)) ∧
    (∀ i < 64, abit addrA i = if sA.readA true i = sA.readB true i then false else sA.readA true i) ∧
    addrByte addrA 0 ≠ 0 ∧ crc8 ((addrBytes addrA).take 7) 0 = addrByte addrA 7 := by
  refine ⟨.inl rfl, ?_, ?_, ?_, ?_, ?_⟩ <;> decide +kernel

/-- 95 section 3.5 case e: bus {A}, A drops at position 20. -/
def sDrop : State := feed t0 (searchAnswers ((passOf addrA []).take 60 ++ pair true true))

theorem witness_NextStops :
    sDrop.ldf = false ∧ (∀ n, sDrop.ld = .num n → 0 = n.val) ∧ ((∀ n, sDrop.ld ≠ .num n) → 0 = 0) ∧ 20 < 64 ∧
    sDrop.Quiet (sDrop.resetCalls true + 1 + 3 * 20 + 2) ∧
    (true = true → (sDrop.answerAt (sDrop.resetCalls true - 1)).presence = true) ∧
    (∀ i < 20, ¬ (sDrop.readA true i = true ∧ sDrop.readB true i = true)) ∧
    sDrop.readA true 20 = true ∧ sDrop.readB true 20 = true ∧
    (∀ i < 20, abit addrA i = if sDrop.readA true i = sDrop.readB true i
      then (if i + 1 < 0 then abit sDrop.addr i else decide (i + 1 = 0)) else sDrop.readA true i) := by
  refine ⟨rfl, ?_, fun _ => rfl, by decide, .inl rfl, ?_, ?_, ?_, ?_, ?_⟩
  · intro n h; cases h
  all_goals decide +kernel

/-- 95 section 3.5 case f: bus {Z}, family 0x00 with a good CRC. -/
def sZ : State := feed t0 (searchAnswers (passOf addrZ []))

theorem witness_OnlyValidAddresses :
    sZ.ldf = false ∧ (∀ n, sZ.ld = .num n → 0 = n.val) ∧ ((∀ n, sZ.ld ≠ .num n) → 0 = 0) ∧
    sZ.Quiet (sZ.resetCalls true + 193) ∧ (true = true → (sZ.answerAt (sZ.resetCalls true - 1)).presence = true) ∧
    (∀ i < 64, ¬ (sZ.readA true i = true ∧ sZ.readB true i = true)) ∧
    (∀ i < 64, abit addrZ i = if sZ.readA true i = sZ.readB true i
      then (if i + 1 < 0 then abit sZ.addr i else decide (i + 1 = 0)) else sZ.readA true i) ∧
    (addrByte addrZ 0 = 0 ∨ crc8 ((addrBytes addrZ).take 7) 0 ≠ addrByte addrZ 7) := by
  refine ⟨rfl, ?_, fun _ => rfl, .inl rfl, ?_, ?_, ?_, ?_⟩
  · intro n h; cases h
  all_goals decide +kernel

theorem witness_OnlyValidAddresses_yields : (after (exec (.first true false) sA)).res = true := by decide +kernel

theorem witness_EmptySearch : t0.ld = .resetSentinel := rfl

theorem witness_FirstForgets :
    isAlarmClockFamily sA.params (addrByte addrB 0) = isAlarmClockFamily sA.params (addrByte sA.addr 0) ∧
    exec (.first true false) sA = .next (after (exec (.first true false) sA)) ∧
    (after (exec (.first true false) sA)).status ≠ .noPresence := by
  refine ⟨?_, exec_first_after _ _ _, ?_⟩ <;> decide +kernel

theorem busABC_valid : busABC.valid := by
  intro x hx
  have : x = addrA ∨ x = addrB ∨ x = addrC := by simpa [busABC, device, Bus.addresses] using hx
  rcases this with rfl | rfl | rfl <;> decide +kernel

/-- The run of 95 section 1.2: FIRST, then NEXT, on the bus {A, B, C}. -/
def runABC : Nat → State
  | 0 => feed t0 (searchAnswers (passOf addrA [0]) ++ searchAnswers (passOf addrB [0, 2]) ++
      searchAnswers (passOf addrC [0, 2]))
  | 1 => after (exec (.first true false) (runABC 0))
  | k + 2 => after (exec (.next true false) (runABC (k + 1)))

theorem runABC_trace_1 : busABC.answers (runABC 1).link.trace = true := by decide +kernel
theorem runABC_trace_2 : busABC.answers (runABC 2).link.trace = true := by decide +kernel
theorem runABC_trace_3 : busABC.answers (runABC 3).link.trace = true := by decide +kernel
theorem runABC_trace_4 : busABC.answers (runABC 4).link.trace = true := by decide +kernel

theorem witness_EnumerationYields :
    busABC ≠ [] ∧ busABC.valid ∧ busABC.addresses.Nodup ∧
    exec (.first true false) (runABC 0) = .next (runABC 1) ∧
    (∀ k, 1 ≤ k → k ≤ busABC.length → exec (.next true false) (runABC k) = .next (runABC (k + 1))) ∧
    (∀ k, 1 ≤ k → k ≤ busABC.length + 1 → busABC.answers (runABC k).link.trace = true) := by
  refine ⟨by decide, busABC_valid, by decide, exec_first_after _ _ _, ?_, ?_⟩
  · intro k h1 _
    cases k with
    | zero => omega
    | succ k => exact exec_next_after _ _ _
  · intro k h1 h2
    have h2 : k ≤ 4 := h2
    have : k = 1 ∨ k = 2 ∨ k = 3 ∨ k = 4 := by omega
    rcases this with rfl | rfl | rfl | rfl
    · exact runABC_trace_1
    · exact runABC_trace_2
    · exact runABC_trace_3
    · exact runABC_trace_4

theorem witness_FirstFinds : busABC ≠ [] ∧ busABC.valid ∧
    exec (.first true false) (runABC 0) = .next (runABC 1) ∧ busABC.answers (runABC 1).link.trace = true :=
  ⟨by decide, busABC_valid, exec_first_after _ _ _, runABC_trace_1⟩

theorem standsAt_A : StandsAt busABC.addresses addrA 1 :=
  ⟨by decide, by decide, by decide, ⟨by decide, addrB, by decide, by decide, by decide⟩, by
    intro i h1 h2 hu
    obtain ⟨_, y, hy, h3, _⟩ := hu
    have : y = addrA ∨ y = addrB ∨ y = addrC := by simpa [busABC, device, Bus.addresses] using hy
    have h0 := h3 0 (by omega)
    rcases this with rfl | rfl | rfl
    · simp_all
    · revert h0; decide
    · revert h0; decide⟩

theorem sB_trace : busABC.answers (after (exec (.next true false) sB)).link.trace = true := by decide +kernel

theorem witness_NextFinds : busABC.valid ∧ sB.ldf = false ∧ sB.ld = .num 1 ∧ StandsAt busABC.addresses sB.addr 1 ∧
    exec (.next true false) sB = .next (after (exec (.next true false) sB)) ∧
    busABC.answers (after (exec (.next true false) sB)).link.trace = true :=
  ⟨busABC_valid, rfl, rfl, standsAt_A, exec_next_after _ _ _, sB_trace⟩

/-- 95 section 3.3, FAMSETUP 0x1D on {A, B, C}: C at once. -/
def sFam : State := feed t0 (searchAnswers (passOf addrC [0, 2]))

theorem sFam_trace : busABC.answers
    (after (exec (.next true false) (after (exec (.famSetup 0x1D) sFam)))).link.trace = true := by decide +kernel

theorem witness_FamilySearch : busABC.valid ∧ (∃ y ∈ busABC.addresses, addrByte y 0 = 0x1D) ∧
    exec (.famSetup 0x1D) sFam = .next (after (exec (.famSetup 0x1D) sFam)) ∧
    exec (.next true false) (after (exec (.famSetup 0x1D) sFam)) =
      .next (after (exec (.next true false) (after (exec (.famSetup 0x1D) sFam)))) ∧
    busABC.answers (after (exec (.next true false) (after (exec (.famSetup 0x1D) sFam)))).link.trace = true :=
  ⟨busABC_valid, ⟨addrC, by decide, by decide⟩, rfl, exec_next_after _ _ _, sFam_trace⟩

/-! ## Witnesses: the selector -/

/-- 95 section 4.1: an empty bus; nine good echoes; a noisy one. -/
theorem witness_Access :
    (feed t0 [{}]).Quiet 1 ∧ ((feed t0 [{}]).answerAt 0).presence = false ∧
    (let s := feed { t0 with addr := addrA } (here :: seen 0x55 :: (addrBytes addrA).map seen)
     let sent : Nat → Byte := fun k => if k = 0 then 0x55 else addrByte addrA (k - 1)
     sent 0 = 0x55 ∧ (∀ k < 8, sent (k + 1) = addrByte s.addr k) ∧ s.Quiet 10 ∧ (s.answerAt 0).presence = true ∧
       ∀ k < 9, (s.answerAt (k + 1)).byte = sent k) ∧
    (let s := feed { t0 with addr := addrA }
       [here, seen 0x55, seen 0x10, seen 0xA1, seen 0xB0, seen 0xC3, seen 0xD4, seen 0xE5, seen 0xF6, seen 0x49]
     let sent : Nat → Byte := fun k => if k = 0 then 0x55 else addrByte addrA (k - 1)
     s.Quiet 10 ∧ (s.answerAt 0).presence = true ∧ ∃ k < 9, (s.answerAt (k + 1)).byte ≠ sent k) :=
  ⟨.inl rfl, by decide, ⟨rfl, by decide, .inl rfl, by decide, by decide⟩, .inl rfl, by decide, 3, by decide, by decide⟩

/-- Both settings of VERIFY_DOES_RESET, and an empty bus. -/
theorem witness_Verify :
    ((1 : Nat) = (if t0.params.verifyDoesReset then 1 else 0) ∧ t0.params.verifyDoesReset = true ∧
      (feed t0 [{}]).Quiet 1 ∧ ((feed t0 [{}]).answerAt 0).presence = false ∧
      (feed t0 (searchAnswers (passOf addrA []))).Quiet (1 + 193) ∧
      ((feed t0 (searchAnswers (passOf addrA []))).answerAt 0).presence = true) ∧
    (let s := { t0 with params := ⟨32, [], false, false⟩ }
     (0 : Nat) = (if s.params.verifyDoesReset then 1 else 0) ∧ s.Quiet (0 + 193) ∧
       (s.params.verifyDoesReset = true → (s.answerAt 0).presence = true)) :=
  ⟨⟨rfl, rfl, .inl rfl, by decide, .inl rfl, by decide⟩, rfl, .inl rfl, fun h => by cases h⟩

/-- 95 section 4.4, its four lines. -/
theorem witness_OdAccess :
    (let s := feed t0 [{}, {}, {}]
     s.Quiet 3 ∧ (s.answerAt 1).presence = false) ∧
    (let s := feed t0 [{}, here, seen 0x29, {}]
     s.Quiet 4 ∧ (s.answerAt 1).presence = true ∧ (s.answerAt 2).byte ≠ 0x69) ∧
    (let s := feed { t0 with addr := addrA }
       ([{}, here, seen 0x69, { speed := .overdrive }] ++ (addrBytes addrA).map seen)
     s.Quiet 12 ∧ (s.answerAt 1).presence = true ∧ (s.answerAt 2).byte = 0x69 ∧
       ∀ k < 8, (s.answerAt (4 + k)).byte = addrByte s.addr k) ∧
    (let s := feed { t0 with addr := addrA } [{}, here, seen 0x69, {}, seen 0x10, seen 0xA1, seen 0xB0, seen 0xC3,
       seen 0xD4, seen 0xE5, seen 0xF6, seen 0x49, {}]
     s.Quiet 13 ∧ (s.answerAt 1).presence = true ∧ (s.answerAt 2).byte = 0x69 ∧
       ∃ k < 8, (s.answerAt (4 + k)).byte ≠ addrByte s.addr k) :=
  ⟨⟨.inl rfl, by decide⟩, ⟨.inl rfl, by decide, by decide⟩, ⟨.inl rfl, by decide, by decide, by decide⟩,
    .inl rfl, by decide, by decide, 2, by decide, by decide⟩

/-- 95 section 4.1: 33 bytes, an empty bus, and 32 bytes after a reset. -/
theorem witness_Exchange :
    (1 : Nat) = (if true then 1 else 0) ∧ t0.params.maxBlockLen < 33 ∧
    (1 ≤ t0.params.maxBlockLen ∧ (feed t0 [{}]).Quiet 1 ∧ ((feed t0 [{}]).answerAt 0).presence = false) ∧
    (32 ≤ t0.params.maxBlockLen ∧ (feed t0 [here]).Quiet (1 + 32) ∧
      (true = true → ((feed t0 [here]).answerAt 0).presence = true)) :=
  ⟨rfl, by decide, ⟨by decide, .inl rfl, by decide⟩, by decide, .inl rfl, fun _ => rfl⟩

theorem witness_SelectorLeavesTheSearchAlone :
    Instr.access = .access ∧ (∃ a, Instr.verify true = .verify a) ∧ Instr.odAccess = .odAccess ∧
      ∃ r len, Instr.exchange true 65535 = .exchange r len :=
  ⟨rfl, ⟨true, rfl⟩, rfl, true, 65535, rfl⟩

theorem witness_OnlyExchangeTouchesTheBuffer : ∀ r len, Instr.first true false ≠ .exchange r len := by
  intro r len h; cases h

/-! ## Witnesses: statuses and link faults -/

theorem witness_ResultFollowsStatus :
    (∀ a, Instr.access ≠ .verify a) ∧ (after (exec (.crc8Reset 0) t0)).status = .ok ∧
    (after (exec (.crc8Reset 0) t0)).res = true := by
  refine ⟨?_, by decide, by decide⟩
  intro a h; cases h

theorem witness_LinkTrace : 1 < (after (exec .odAccess (feed t0 [{}, {}, {}]))).link.trace.length := by decide

/-- A fault at the first call, inside a search, in ACCESS, at both ends of ODACCESS, and in EXCHANGE after one byte. -/
theorem witness_FaultedCommandStops :
    (after (exec (.first true false) (feed tf [shortCircuit]))).link.trace =
      [] ++ ⟨.reset, .fault .shortCircuit⟩ :: [] ∧
    (after (exec (.next true false) (feed tf [here, adapterFault]))).link.trace =
      [⟨.reset, .presence true⟩] ++ ⟨.touchByte 0xF0, .fault .adapterFault⟩ :: [] ∧
    (after (exec .access (feed tf [adapterFault]))).link.trace = [] ++ ⟨.reset, .fault .adapterFault⟩ :: [] ∧
    (after (exec (.verify false) (feed tf [adapterFault]))).link.trace = [] ++ ⟨.reset, .fault .adapterFault⟩ :: [] ∧
    (after (exec .odAccess (feed tf [adapterFault, {}]))).link.trace =
      [] ++ ⟨.setSpeed .normal, .fault .adapterFault⟩ :: [⟨.setSpeed .normal, .speed .normal⟩] ∧
    (after (exec .odAccess (feed tf [{}, {}, adapterFault]))).link.trace =
      [⟨.setSpeed .normal, .speed .normal⟩, ⟨.reset, .presence false⟩] ++
        ⟨.setSpeed .normal, .fault .adapterFault⟩ :: [] ∧
    (after (exec (.exchange false 2) (feed { tf with buf := [(0, 1), (1, 2)] } [seen 7, adapterFault]))).link.trace =
      [⟨.touchByte 1, .byte 7⟩] ++ ⟨.touchByte 2, .fault .adapterFault⟩ :: [] := by decide

theorem witness_LinkFaultsNeedTheChannel :
    t0.params.linkFaultChannel = false ∧ tf.params.linkFaultChannel = true ∧
    0 < (after (exec .access (feed tf [shortCircuit]))).link.trace.length ∧
    ((feed tf [shortCircuit]).answerAt 0).fault = some .shortCircuit ∧
    ((feed tf [adapterFault]).answerAt 0).fault = some .adapterFault := by decide

theorem witness_StatusesEachCommandCanEndWith :
    tf.params.linkFaultChannel = true ∧ (after (exec .access (feed tf [shortCircuit]))).status = .shortCircuit := by
  decide

/-! ## Witnesses: the host's ports -/

theorem witness_RegisterPort :
    { t0 with host := [.readReg 0x0F] }.host = .readReg 0x0F :: [] ∧ (0x0F : Byte).toNat = 0x08 + 7 ∧
    (0x08 : Byte).toNat = 0x08 + 0 ∧ (0x10 : Nat) ≤ (0x10 : Byte).toNat ∧ t0.regRead 0x10 = 0x00 ∧
    t0.regRead 0x05 = 0x00 := by decide

/-- 60 R170 and 10 R15: the last status code, the largest number of `LD` and `NONE`, as the port shows them. -/
theorem witness_RegisterPort_codes :
    { t0 with host := [.readReg 0x00], status := .illegalCommand }.status = .illegalCommand ∧
    { t0 with status := .illegalCommand }.regRead 0x00 = 0x09 ∧
    { t0 with host := [.readReg 0x02], ld := .num 64 }.ld = .num 64 ∧ { t0 with ld := .num 64 }.regRead 0x02 = 0x40 ∧
    { t0 with ld := .num 0 }.regRead 0x02 = 0x00 ∧ { t0 with ld := .none }.regRead 0x02 = 0xFE := by decide

theorem witness_BufferPort :
    { t0 with host := [.readBuf 31] }.host = .readBuf 31 :: [] ∧ 31 < t0.params.maxBlockLen ∧
    { t0 with host := [.writeBuf 31 9] }.host = .writeBuf 31 9 :: [] ∧ t0.params.maxBlockLen ≤ 32 := by decide

end Sys2Proof.Machine
end

/-! PROOFS about the state: what a step keeps, `NONE` in `LD` (spec 10 R17, R18) and the register port (R24). -/

namespace Sys2Proof.Machine

/-! ## Steps -/

/-- The step rule: what every access of the host keeps, every step keeps. -/
theorem step_keeps {P : State → Prop}
    (host : ∀ s rest, P s → P { s with host := rest })
    (command : ∀ i s t, P s → exec i s = .next t → P t)
    (illegal : ∀ s, P s → P s.illegal)
    (answer : ∀ s v, P s → P { s with readData := some v })
    (write : ∀ s k v, k < s.params.maxBlockLen → P s → P (s.setBuf (s.buf.store k v)))
    (hardReset : ∀ s, P s → P s.hardReset)
    (cut : ∀ n s t, P s → P (s.cutAfter n t))
    {s t : State} (hs : P s) (h : step s = .next t) : P t := by
  cases hh : s.host with
  | nil =>
    rw [step_of_host_nil hh] at h
    cases h
    exact hs
  | cons x rest =>
    rw [step_of_host_cons hh] at h
    have hu := host s rest hs
    cases x with
    | command w =>
      cases hd : decode w with
      | ok i => exact command i _ t hu (runWord_of_decode hd _ ▸ h)
      | error e =>
        cases (runWord_of_illegal hd _).symm.trans h
        exact illegal _ hu
    | readReg number =>
      cases h
      exact answer _ _ hu
    | readBuf k =>
      simp only [serve, hostReadBuf] at h
      split at h <;> cases h
      exact answer _ _ hu
    | writeBuf k v =>
      simp only [serve, hostWriteBuf] at h
      split at h <;> cases h
      next hk => exact write _ k v hk hu
    | hardReset =>
      cases h
      exact hardReset _ hu
    | commandCut w n =>
      simp only [serve, runWordCut] at h
      split at h <;> cases h
      exact cut n _ _ hu

theorem State.exchangeBody_frame (len : Nat) (s : State) :
    ∃ m l st b, s.exchangeBody len = { s with buf := m, link := l, status := st, res := b } := by
  rcases State.concludeExchange_cases (exchangeFrom s.params s.resets len 0 s.buf s.link) s with
    ⟨_, e⟩ | ⟨_, _, e⟩ <;> exact ⟨_, _, _, _, e⟩

/-- EXCHANGE changes nothing but `BUF`, the link, `STATUS` and `RES` (R148). -/
theorem execExchange_frame (r : Bool) (len : Nat) (s : State) :
    ∃ m l st b, execExchange r len s = .next { s with buf := m, link := l, status := st, res := b } := by
  rcases execExchange_cases r len s with ⟨_, e⟩ | ⟨_, _, _, _, _, e⟩ | ⟨_, _, _, _, e⟩ | ⟨_, _, l, _, e⟩ | ⟨_, _, e⟩
  · exact ⟨_, _, _, _, e⟩
  · exact ⟨_, _, _, _, e⟩
  · exact ⟨_, _, _, _, e⟩
  · obtain ⟨m, l', st, b, hb⟩ := (s.start.setLink l).exchangeBody_frame len
    exact ⟨m, l', st, b, by rw [e, hb]; rfl⟩
  · obtain ⟨m, l', st, b, hb⟩ := s.start.exchangeBody_frame len
    exact ⟨m, l', st, b, by rw [e, hb]; rfl⟩

/-! ## `NONE` in `LD` -/

/-- R18: "`LD = NONE` implies `LDF = 1`", of one state. -/
def State.NoneIsLast (s : State) : Prop := s.ld = .none → s.ldf = true

/-- A search leaves `NONE` only with `LDF` set, whatever it found before. -/
theorem State.noneIsLast_concludeSearch (o : Except LinkFault SearchEnd × Link) (s : State) :
    (s.concludeSearch o).NoneIsLast := by
  rcases State.concludeSearch_cases o s with ⟨_, e⟩ | ⟨_, e⟩ | ⟨ps, _, e⟩ | ⟨k, _, e⟩ <;> rw [e]
  · exact nofun
  · exact nofun
  · exact fun h => if_pos h
  · exact nofun

theorem State.noneIsLast_nextBody (r a : Bool) (s : State) : (s.nextBody r a).NoneIsLast := by
  cases hl : s.ldf with
  | true =>
    rw [State.nextBody_of_last hl]
    exact nofun
  | false =>
    rw [State.nextBody_of_not_last hl]
    exact State.noneIsLast_concludeSearch _ s

/-- The commands of the enumerator establish it; the others leave `LD` and `LDF` as they are. -/
theorem exec_keeps_noneIsLast (i : Instr) (s t : State) (hs : s.NoneIsLast) (h : exec i s = .next t) :
    t.NoneIsLast := by
  cases i with
  | first r a => cases h; exact State.noneIsLast_nextBody r a _
  | next r a => cases h; exact State.noneIsLast_nextBody r a _
  | famSetup code => cases h; exact nofun
  | skipFam => cases h; exact nofun
  | access => cases h; rw [State.conclude_eq]; exact hs
  | odAccess => cases h; rw [State.conclude_eq]; exact hs
  | verify a =>
    cases h
    obtain ⟨st, b, e, _⟩ := State.concludeVerify_frame (verifyOps s.params a s.addr s.start.link) s.start
    rw [e]
    exact hs
  | exchange r len =>
    obtain ⟨m, l, st, b, e⟩ := execExchange_frame r len s
    cases e.symm.trans h
    exact hs
  | crc8Reset _ => cases h; exact hs
  | crc8Update _ => cases h; exact hs
  | crc8Check => cases h; exact hs
  | crc16Reset _ => cases h; exact hs
  | crc16Update _ => cases h; exact hs
  | crc16Check => cases h; exact hs
  | addrWr _ _ => cases h; exact hs

theorem step_keeps_noneIsLast {s t : State} (hs : s.NoneIsLast) (h : step s = .next t) : t.NoneIsLast :=
  step_keeps (fun _ _ hs => hs) exec_keeps_noneIsLast (fun _ hs => hs) (fun _ _ hs => hs) (fun _ _ _ _ hs => hs)
    (fun _ _ => nofun) (fun _ _ _ _ => nofun) hs h

/-- `search` looks at `LD` through `HI` alone when `HI = 0`: no old path is forced (R16, R18). -/
theorem search_of_hi_zero {c d : Discrepancy} (hc : c.hi = 0) (hd : d.hi = 0) (p : Params) (r a : Bool) (x : Address)
    (lfd : Fin 65) : search p r a x c lfd = search p r a x d lfd := by
  rw [search, search, searchPass_forgets hc hd]

/-- Every end of a search writes `LD`, so the old one does not show. -/
theorem State.concludeSearch_forgets_ld (d : Discrepancy) (o : Except LinkFault SearchEnd × Link) (s : State) :
    ({ s with ld := d } : State).concludeSearch o = s.concludeSearch o := by
  obtain ⟨_ | _ | _ | _, _⟩ := o <;> rfl

/-- The body of NEXT makes no difference between the values of `LD` with `HI = 0` (R16, R18). -/
theorem State.nextBody_of_hi_zero {d : Discrepancy} (r a : Bool) {s : State} (hs : s.ld.hi = 0) (hd : d.hi = 0) :
    ({ s with ld := d } : State).nextBody r a = s.nextBody r a := by
  simp only [State.nextBody, State.concludeSearch_forgets_ld]
  rw [search_of_hi_zero hd hs]
  rfl

theorem exec_next_of_hi_zero {d : Discrepancy} (r a : Bool) {s : State} (hs : s.ld.hi = 0) (hd : d.hi = 0) :
    exec (.next r a) s = exec (.next r a) { s with ld := d } :=
  congrArg Host.Outcome.next (State.nextBody_of_hi_zero r a (s := s.start) hs hd).symm

/-- Settles O14: every command of the enumerator that leaves `NONE` sets `LDF` (`step_keeps_noneIsLast`), and a pass
from `NONE` has `HI = 0`, as one from 0 (`exec_next_of_hi_zero`). -/
theorem noneInLdImpliesLastDevice : Obligations.NoneInLdImpliesLastDevice :=
  ⟨nofun, fun _ _ => step_keeps_noneIsLast,
    fun r a s hs => exec_next_of_hi_zero r a (by rw [hs]; rfl) rfl⟩

/-! ## The register port -/

theorem step_of_readReg {s : State} {number : Byte} {rest : List HostAccess} (h : s.host = .readReg number :: rest) :
    step s = .next { s with host := rest, readData := some (s.regRead number) } := step_of_host_cons h

@[simp] theorem State.regRead_status (s : State) : s.regRead 0x00 = s.status.code.setWidth 8 := rfl
@[simp] theorem State.regRead_flags (s : State) : s.regRead 0x01 = flagBit s.ldf 0 ||| flagBit s.res 1 := rfl
@[simp] theorem State.regRead_ld (s : State) : s.regRead 0x02 = s.ld.code := rfl
@[simp] theorem State.regRead_lfd (s : State) : s.regRead 0x03 = BitVec.ofNat 8 s.lfd.val := rfl
@[simp] theorem State.regRead_crc8 (s : State) : s.regRead 0x04 = s.crc8 := rfl
@[simp] theorem State.regRead_crc16_low (s : State) : s.regRead 0x06 = s.crc16.extractLsb' 0 8 := rfl
@[simp] theorem State.regRead_crc16_high (s : State) : s.regRead 0x07 = s.crc16.extractLsb' 8 8 := rfl

theorem State.regRead_addr (s : State) {number : Byte} {k : Nat} (hk : k < 8) (h : number.toNat = 0x08 + k) :
    s.regRead number = addrByte s.addr k := by
  rw [State.regRead, h]
  interval_cases k <;> rfl

/-- The numbers with no register answer 0. -/
theorem State.regRead_unmapped (s : State) {number : Byte} (h : number = 0x05 ∨ 0x10 ≤ number.toNat) :
    s.regRead number = 0x00 := by
  rcases h with rfl | h
  · rfl
  · obtain ⟨n, hn⟩ := Nat.exists_eq_add_of_le' h
    rw [State.regRead, hn]
    rfl

theorem flagBit_getLsbD (b : Bool) {k : Nat} (hk : k < 8) (n : Nat) :
    (flagBit b k).getLsbD n = (b && decide (n = k)) := by
  cases b with
  | false => simp [flagBit]
  | true =>
    have h : flagBit true k = BitVec.ofNat 8 (2 ^ k) := by simp [flagBit, Nat.one_shiftLeft]
    rw [h, BitVec.getLsbD_ofNat, Nat.testBit_two_pow]
    by_cases e : n = k
    · simp [e, hk]
    · simp [e, Ne.symm e]

/-- A number 0 to 64 keeps its value in the 8 bits of its register. -/
theorem toNat_ofNat_fin65 (n : Fin 65) : (BitVec.ofNat 8 n.val).toNat = n.val := by
  rw [BitVec.toNat_ofNat]
  omega

/-- Settles O58: the answer is `regRead` (`step_of_readReg`), read off register by register. -/
theorem registerPortReadsTheMap : Obligations.RegisterPortReadsTheMap := by
  intro s number rest h
  refine ⟨s.regRead number, step_of_readReg h, ?status, ?flags, ?ld, ?lfd, ?crc8, ?crc16Low, ?crc16High,
    fun k hk => s.regRead_addr hk, s.regRead_unmapped⟩
  case status =>
    rintro rfl
    rw [State.regRead_status]
    refine ⟨?_, ?_, ?_, ?_, ?_, ?_, ?_, ?_, ?_, ?_⟩ <;> (intro e; rw [e]; rfl)
  case flags =>
    rintro rfl
    simp only [State.regRead_flags, BitVec.getLsbD_or, flagBit_getLsbD _ (by decide : 0 < 8),
      flagBit_getLsbD _ (by decide : 1 < 8)]
    refine ⟨by simp, by simp, fun n hn => ?_⟩
    have h0 : n ≠ 0 := by omega
    have h1 : n ≠ 1 := by omega
    simp [h0, h1]
  case ld =>
    rintro rfl
    rw [State.regRead_ld]
    refine ⟨fun n e => ?_, fun e => ?_, fun e => ?_⟩ <;> rw [e]
    · exact toNat_ofNat_fin65 n
    · rfl
    · rfl
  case lfd => rintro rfl; exact toNat_ofNat_fin65 s.lfd
  case crc8 => rintro rfl; rfl
  case crc16Low => rintro rfl; rfl
  case crc16High => rintro rfl; rfl

end Sys2Proof.Machine

/-! PROOFS about `BUF`: no command but EXCHANGE reads or writes it (spec 20 R42). -/

namespace Sys2Proof.Machine

/-! ## The ends of commands commute with a change of `BUF` -/

theorem State.concludeSearch_setBuf (m : Memory) (o : Except LinkFault SearchEnd × Link) (s : State) :
    (s.setBuf m).concludeSearch o = (s.concludeSearch o).setBuf m := by
  obtain ⟨_ | _ | _ | _, _⟩ := o <;> rfl

theorem State.conclude_setBuf (m : Memory) (o : Except LinkFault Status × Link) (s : State) :
    (s.setBuf m).conclude o = (s.conclude o).setBuf m := by
  rw [State.conclude_eq, State.conclude_eq]
  rfl

theorem State.concludeVerify_setBuf (m : Memory) (o : Except LinkFault (Option Nat) × Link) (s : State) :
    (s.setBuf m).concludeVerify o = (s.concludeVerify o).setBuf m := by
  obtain ⟨_ | _ | _, _⟩ := o <;> rfl

theorem State.nextBody_setBuf (m : Memory) (r a : Bool) (s : State) :
    (s.setBuf m).nextBody r a = (s.nextBody r a).setBuf m := by
  cases h : s.ldf with
  | true => rw [State.nextBody_of_last h, State.nextBody_of_last (s := s.setBuf m) h]; rfl
  | false =>
    rw [State.nextBody_of_not_last h, State.nextBody_of_not_last (s := s.setBuf m) h]
    exact State.concludeSearch_setBuf m _ s

/-! ## The commands -/

/-- R42, that `BUF` is not read: a command other than EXCHANGE, run over another buffer, leaves the same state over
that buffer. The link calls are made from `ADDR`, the search registers and the operands alone. -/
theorem exec_setBuf {i : Instr} (hi : ∀ r len, i ≠ .exchange r len) {s t : State} (h : exec i s = .next t)
    (m : Memory) : exec i (s.setBuf m) = .next (t.setBuf m) := by
  cases i with
  | first r a =>
    cases h
    exact congrArg Host.Outcome.next (State.nextBody_setBuf m r a (s.start.setSearch (.num 0) 0 false))
  | next r a => cases h; exact congrArg Host.Outcome.next (State.nextBody_setBuf m r a s.start)
  | access => cases h; exact congrArg Host.Outcome.next (State.conclude_setBuf m _ s.start)
  | verify a => cases h; exact congrArg Host.Outcome.next (State.concludeVerify_setBuf m _ s.start)
  | odAccess => cases h; exact congrArg Host.Outcome.next (State.conclude_setBuf m _ s.start)
  | exchange r len => exact absurd rfl (hi r len)
  | crc8Reset _ => cases h; rfl
  | crc8Update _ => cases h; rfl
  | crc8Check => cases h; rfl
  | crc16Reset _ => cases h; rfl
  | crc16Update _ => cases h; rfl
  | crc16Check => cases h; rfl
  | famSetup _ => cases h; rfl
  | skipFam => cases h; rfl
  | addrWr _ _ => cases h; rfl

/-- R42, that `BUF` is not written: run over the buffer it has (`exec_setBuf`), the command leaves that buffer. -/
theorem exec_keeps_buf {i : Instr} (hi : ∀ r len, i ≠ .exchange r len) {s t : State} (h : exec i s = .next t) :
    t.buf = s.buf := by
  have ht : Host.Outcome.next t = .next (t.setBuf s.buf) := h.symm.trans (exec_setBuf hi h s.buf)
  rw [Host.Outcome.next.inj ht, State.setBuf_buf]

/-- Settles O50: every command answers a next state (`exec_ran`); it keeps `BUF` (`exec_keeps_buf`) and its run does
not depend on it (`exec_setBuf`). -/
theorem onlyExchangeTouchesTheBuffer : Obligations.OnlyExchangeTouchesTheBuffer := by
  intro i s m hi
  obtain ⟨t, _, h, _⟩ := exec_ran i s
  exact ⟨t, h, exec_keeps_buf hi h, exec_setBuf hi h m⟩

end Sys2Proof.Machine

/-! PROOFS about the encoding: every word decoded is the word of its command, and the rows of the opcode map are the
decoder's cases (spec 30 R72 to R78). -/

namespace Sys2Proof

/-! ## A word and its command -/

theorem whenZero_eq_ok_iff {u : Bool} {i j : Instr} : whenZero u i = .ok j ↔ u = true ∧ i = j := by
  cases u <;> simp [whenZero]

/-- A word whose `z` is zero, from what its other fields are known to be. -/
theorem wordOf_eq_of_fields {w : Word} {opc : BitVec 8} {r a : Bool} {imm : Half} (ho : opcOf w = opc)
    (hz : zOf w = 0) (hr : rOf w = r) (ha : aOf w = a) (hi : immOf w = imm) : wordOf opc r a imm = w := by
  rw [← ho, ← hr, ← ha, ← hi, wordOf_fields hz]

section
variable {w : Word} {opc : BitVec 8} {j : Instr} (ho : opcOf w = opc)
include ho

theorem decodeN_eq_ok {i : Instr} (h : decodeN w i = .ok j) : i = j ∧ wordOf opc false false 0 = w := by
  simp only [decodeN, whenZero_eq_ok_iff, Bool.and_eq_true, beq_iff_eq, Bool.not_eq_true'] at h
  obtain ⟨⟨⟨⟨hz, hr⟩, ha⟩, hi⟩, hj⟩ := h
  exact ⟨hj, wordOf_eq_of_fields ho hz hr ha hi⟩

theorem decodeB_eq_ok {i : Byte → Instr} (h : decodeB w i = .ok j) :
    ∃ b, i b = j ∧ wordOf opc false false (immByte b) = w := by
  simp only [decodeB, whenZero_eq_ok_iff, Bool.and_eq_true, beq_iff_eq, Bool.not_eq_true'] at h
  obtain ⟨⟨⟨⟨hz, hr⟩, ha⟩, hi⟩, hj⟩ := h
  exact ⟨_, hj, wordOf_eq_of_fields ho hz hr ha (immByte_of_high_zero hi).symm⟩

theorem decodeH_eq_ok {i : Half → Instr} (h : decodeH w i = .ok j) :
    ∃ v, i v = j ∧ wordOf opc false false v = w := by
  simp only [decodeH, whenZero_eq_ok_iff, Bool.and_eq_true, beq_iff_eq, Bool.not_eq_true'] at h
  obtain ⟨⟨⟨hz, hr⟩, ha⟩, hj⟩ := h
  exact ⟨_, hj, wordOf_eq_of_fields ho hz hr ha rfl⟩

theorem decodeS_eq_ok {i : Bool → Bool → Instr} (h : decodeS w i = .ok j) :
    ∃ r a, i r a = j ∧ wordOf opc r a 0 = w := by
  simp only [decodeS, whenZero_eq_ok_iff, Bool.and_eq_true, beq_iff_eq] at h
  obtain ⟨⟨hz, hi⟩, hj⟩ := h
  exact ⟨_, _, hj, wordOf_eq_of_fields ho hz rfl rfl hi⟩

theorem decodeV_eq_ok {i : Bool → Instr} (h : decodeV w i = .ok j) : ∃ a, i a = j ∧ wordOf opc false a 0 = w := by
  simp only [decodeV, whenZero_eq_ok_iff, Bool.and_eq_true, beq_iff_eq, Bool.not_eq_true'] at h
  obtain ⟨⟨⟨hz, hr⟩, hi⟩, hj⟩ := h
  exact ⟨_, hj, wordOf_eq_of_fields ho hz hr rfl hi⟩

theorem decodeX_eq_ok {i : Bool → Nat → Instr} (h : decodeX w i = .ok j) :
    ∃ r, ∃ v : Half, i r v.toNat = j ∧ wordOf opc r false v = w := by
  simp only [decodeX, whenZero_eq_ok_iff, Bool.and_eq_true, beq_iff_eq, Bool.not_eq_true'] at h
  obtain ⟨⟨hz, ha⟩, hj⟩ := h
  exact ⟨_, _, hj, wordOf_eq_of_fields ho hz rfl ha rfl⟩

theorem decodeW_eq_ok {i : Fin 8 → Byte → Instr} (h : decodeW w i = .ok j) :
    ∃ k b, i k b = j ∧ wordOf opc false false (immIndexByte k b) = w := by
  simp only [decodeW, whenZero_eq_ok_iff, Bool.and_eq_true, beq_iff_eq, Bool.not_eq_true'] at h
  obtain ⟨⟨⟨⟨hz, hr⟩, ha⟩, hi⟩, hj⟩ := h
  exact ⟨_, _, hj, wordOf_eq_of_fields ho hz hr ha (immIndexByte_of_top_zero hi).symm⟩

end

/-- A command decoded is well formed, and the word it is decoded from is its own: one case per `opc` of R75. -/
theorem wf_and_encode_of_decode {w : Word} {i : Instr} (h : decode w = .ok i) : i.wf = true ∧ encode i = w := by
  have opc {n : BitVec 8} (hn : (opcOf w).toNat = n.toNat) : opcOf w = n := BitVec.eq_of_toNat_eq hn
  unfold decode at h
  split at h
  case h_1 hn => obtain ⟨_, rfl, e⟩ := decodeB_eq_ok (opc (n := 0x10) hn) h; exact ⟨rfl, e⟩
  case h_2 hn => obtain ⟨_, rfl, e⟩ := decodeB_eq_ok (opc (n := 0x11) hn) h; exact ⟨rfl, e⟩
  case h_3 hn => obtain ⟨rfl, e⟩ := decodeN_eq_ok (opc (n := 0x12) hn) h; exact ⟨rfl, e⟩
  case h_4 hn => obtain ⟨_, rfl, e⟩ := decodeH_eq_ok (opc (n := 0x18) hn) h; exact ⟨rfl, e⟩
  case h_5 hn => obtain ⟨_, rfl, e⟩ := decodeB_eq_ok (opc (n := 0x19) hn) h; exact ⟨rfl, e⟩
  case h_6 hn => obtain ⟨rfl, e⟩ := decodeN_eq_ok (opc (n := 0x1A) hn) h; exact ⟨rfl, e⟩
  case h_7 hn => obtain ⟨_, _, rfl, e⟩ := decodeS_eq_ok (opc (n := 0x20) hn) h; exact ⟨rfl, e⟩
  case h_8 hn => obtain ⟨_, _, rfl, e⟩ := decodeS_eq_ok (opc (n := 0x21) hn) h; exact ⟨rfl, e⟩
  case h_9 hn => obtain ⟨_, rfl, e⟩ := decodeB_eq_ok (opc (n := 0x22) hn) h; exact ⟨rfl, e⟩
  case h_10 hn => obtain ⟨rfl, e⟩ := decodeN_eq_ok (opc (n := 0x23) hn) h; exact ⟨rfl, e⟩
  case h_11 hn => obtain ⟨rfl, e⟩ := decodeN_eq_ok (opc (n := 0x30) hn) h; exact ⟨rfl, e⟩
  case h_12 hn => obtain ⟨_, rfl, e⟩ := decodeV_eq_ok (opc (n := 0x31) hn) h; exact ⟨rfl, e⟩
  case h_13 hn => obtain ⟨rfl, e⟩ := decodeN_eq_ok (opc (n := 0x32) hn) h; exact ⟨rfl, e⟩
  case h_14 hn =>
    obtain ⟨_, v, rfl, e⟩ := decodeX_eq_ok (opc (n := 0x33) hn) h
    exact ⟨decide_eq_true (Nat.le_of_lt_succ v.isLt), by rw [encode, BitVec.ofNat_toNat, BitVec.setWidth_eq, e]⟩
  case h_15 hn => obtain ⟨_, _, rfl, e⟩ := decodeW_eq_ok (opc (n := 0x34) hn) h; exact ⟨rfl, e⟩
  case h_16 => exact nomatch h

theorem encode_of_decode {w : Word} {i : Instr} (h : decode w = .ok i) : encode i = w :=
  (wf_and_encode_of_decode h).2

theorem decode_injective {w v : Word} {i : Instr} (hw : decode w = .ok i) (hv : decode v = .ok i) : w = v :=
  (encode_of_decode hw).symm.trans (encode_of_decode hv)

/-! ## A word and its row of the opcode map -/

/-- A word from its fields, `z` any value: the masks of R75 have it all ones. -/
theorem append_fields (w : Word) :
    opcOf w ++ zOf w ++ BitVec.ofBool (rOf w) ++ BitVec.ofBool (aOf w) ++ immOf w = w := by
  apply BitVec.eq_of_getLsbD_eq
  intro i hi
  interval_cases i <;>
    (simp only [opcOf, zOf, rOf, aOf, immOf, BitVec.getLsbD_extractLsb', BitVec.getLsbD_append, BitVec.getLsbD_ofBool]
     simp)

theorem append_eq_append_iff {n m : Nat} {x x' : BitVec n} {y y' : BitVec m} :
    x ++ y = x' ++ y' ↔ x = x' ∧ y = y' := by
  constructor
  · intro h
    have hx := congrArg (BitVec.extractLsb' m n) h
    have hy := congrArg (BitVec.extractLsb' 0 m) h
    simp only [BitVec.extractLsb'_append_eq_left, BitVec.extractLsb'_append_eq_right] at hx hy
    exact ⟨hx, hy⟩
  · rintro ⟨rfl, rfl⟩
    rfl

/-- A mask of R75: `opc` and `z` are always compared, `r`, `a` and the bits of `imm` when the format has no operand
there. -/
def rowMask (r a : Bool) (imm : Half) : Word :=
  BitVec.allOnes 8 ++ BitVec.allOnes 6 ++ BitVec.ofBool r ++ BitVec.ofBool a ++ imm

theorem and_rowMask (w : Word) (r a : Bool) (imm : Half) : w &&& rowMask r a imm =
    opcOf w ++ zOf w ++ BitVec.ofBool (rOf w && r) ++ BitVec.ofBool (aOf w && a) ++ (immOf w &&& imm) := by
  conv_lhs => rw [← append_fields w]
  refine BitVec.and_append.trans ?_
  simp only [BitVec.and_append, BitVec.and_allOnes, BitVec.ofBool_and_ofBool]

/-- `w & mask == match`, field by field. -/
theorem matchesRow_rowMask_iff {w : Word} {opc : BitVec 8} {r a : Bool} {imm : Half} :
    matchesRow w (wordOf opc false false 0, rowMask r a imm) = true ↔
      opcOf w = opc ∧ zOf w = 0 ∧ (rOf w && r) = false ∧ (aOf w && a) = false ∧ immOf w &&& imm = 0 := by
  rw [matchesRow, beq_iff_eq, and_rowMask]
  refine append_eq_append_iff.trans ?_
  simp only [append_eq_append_iff, BitVec.ofBool_eq_iff_eq, and_assoc]

/-- The high bits of an immediate are zero when they are under a mask that holds just them. -/
theorem and_highMask_eq_zero_iff {n m : Nat} {x : BitVec (n + m)} :
    x &&& (BitVec.allOnes n ++ 0#m) = 0#n ++ 0#m ↔ x.extractLsb' m n = 0 := by
  have e : x.extractLsb' m n ++ x.extractLsb' 0 m = x := BitVec.extractLsb'_append_extractLsb'
  rw [← e, BitVec.and_append, append_eq_append_iff, e]
  simp

section
variable {w : Word} {opc : BitVec 8}

theorem decodeN_of_matchesRow (h : matchesRow w (wordOf opc false false 0, rowMask true true 0xFFFF) = true)
    (i : Instr) : opcOf w = opc ∧ decodeN w i = .ok i := by
  obtain ⟨ho, hz, hr, ha, hi⟩ := matchesRow_rowMask_iff.1 h
  rw [Bool.and_true] at hr ha
  replace hi : immOf w = 0 := BitVec.and_allOnes.symm.trans hi
  exact ⟨ho, by simp [decodeN, whenZero, hz, hr, ha, hi]⟩

theorem decodeB_of_matchesRow (h : matchesRow w (wordOf opc false false 0, rowMask true true 0xFF00) = true)
    (i : Byte → Instr) : opcOf w = opc ∧ decodeB w i = .ok (i (immLow w)) := by
  obtain ⟨ho, hz, hr, ha, hi⟩ := matchesRow_rowMask_iff.1 h
  rw [Bool.and_true] at hr ha
  replace hi : immHigh w = 0 := (and_highMask_eq_zero_iff (n := 8) (m := 8)).1 hi
  exact ⟨ho, by simp [decodeB, whenZero, hz, hr, ha, hi]⟩

theorem decodeH_of_matchesRow (h : matchesRow w (wordOf opc false false 0, rowMask true true 0) = true)
    (i : Half → Instr) : opcOf w = opc ∧ decodeH w i = .ok (i (immOf w)) := by
  obtain ⟨ho, hz, hr, ha, _⟩ := matchesRow_rowMask_iff.1 h
  rw [Bool.and_true] at hr ha
  exact ⟨ho, by simp [decodeH, whenZero, hz, hr, ha]⟩

theorem decodeS_of_matchesRow (h : matchesRow w (wordOf opc false false 0, rowMask false false 0xFFFF) = true)
    (i : Bool → Bool → Instr) : opcOf w = opc ∧ decodeS w i = .ok (i (rOf w) (aOf w)) := by
  obtain ⟨ho, hz, _, _, hi⟩ := matchesRow_rowMask_iff.1 h
  replace hi : immOf w = 0 := BitVec.and_allOnes.symm.trans hi
  exact ⟨ho, by simp [decodeS, whenZero, hz, hi]⟩

theorem decodeV_of_matchesRow (h : matchesRow w (wordOf opc false false 0, rowMask true false 0xFFFF) = true)
    (i : Bool → Instr) : opcOf w = opc ∧ decodeV w i = .ok (i (aOf w)) := by
  obtain ⟨ho, hz, hr, _, hi⟩ := matchesRow_rowMask_iff.1 h
  rw [Bool.and_true] at hr
  replace hi : immOf w = 0 := BitVec.and_allOnes.symm.trans hi
  exact ⟨ho, by simp [decodeV, whenZero, hz, hr, hi]⟩

theorem decodeX_of_matchesRow (h : matchesRow w (wordOf opc false false 0, rowMask false true 0) = true)
    (i : Bool → Nat → Instr) : opcOf w = opc ∧ decodeX w i = .ok (i (rOf w) (immOf w).toNat) := by
  obtain ⟨ho, hz, _, ha, _⟩ := matchesRow_rowMask_iff.1 h
  rw [Bool.and_true] at ha
  exact ⟨ho, by simp [decodeX, whenZero, hz, ha]⟩

theorem decodeW_of_matchesRow (h : matchesRow w (wordOf opc false false 0, rowMask true true 0xF800) = true)
    (i : Fin 8 → Byte → Instr) : opcOf w = opc ∧ decodeW w i = .ok (i (idxOf w).toFin (immLow w)) := by
  obtain ⟨ho, hz, hr, ha, hi⟩ := matchesRow_rowMask_iff.1 h
  rw [Bool.and_true] at hr ha
  replace hi : immTop w = 0 := (and_highMask_eq_zero_iff (n := 5) (m := 11)).1 hi
  exact ⟨ho, by simp [decodeW, whenZero, hz, hr, ha, hi]⟩

end

/-- A word that matches a row decodes to a command of that row: the row's match is the `opc` and its mask is that of
its format (R73, R75). -/
theorem decode_of_matchesRow {w : Word} {k : Fin 15} (h : matchesRow w (opcodeMap.get k) = true) :
    ∃ i, decode w = .ok i ∧ i.rowIndex = k := by
  match k with
  | 0 =>
    obtain ⟨ho, hd⟩ := decodeB_of_matchesRow (opc := 0x10) h .crc8Reset
    exact ⟨_, by rw [decode, ho]; exact hd, rfl⟩
  | 1 =>
    obtain ⟨ho, hd⟩ := decodeB_of_matchesRow (opc := 0x11) h .crc8Update
    exact ⟨_, by rw [decode, ho]; exact hd, rfl⟩
  | 2 =>
    obtain ⟨ho, hd⟩ := decodeN_of_matchesRow (opc := 0x12) h .crc8Check
    exact ⟨_, by rw [decode, ho]; exact hd, rfl⟩
  | 3 =>
    obtain ⟨ho, hd⟩ := decodeH_of_matchesRow (opc := 0x18) h .crc16Reset
    exact ⟨_, by rw [decode, ho]; exact hd, rfl⟩
  | 4 =>
    obtain ⟨ho, hd⟩ := decodeB_of_matchesRow (opc := 0x19) h .crc16Update
    exact ⟨_, by rw [decode, ho]; exact hd, rfl⟩
  | 5 =>
    obtain ⟨ho, hd⟩ := decodeN_of_matchesRow (opc := 0x1A) h .crc16Check
    exact ⟨_, by rw [decode, ho]; exact hd, rfl⟩
  | 6 =>
    obtain ⟨ho, hd⟩ := decodeS_of_matchesRow (opc := 0x20) h .first
    exact ⟨_, by rw [decode, ho]; exact hd, rfl⟩
  | 7 =>
    obtain ⟨ho, hd⟩ := decodeS_of_matchesRow (opc := 0x21) h .next
    exact ⟨_, by rw [decode, ho]; exact hd, rfl⟩
  | 8 =>
    obtain ⟨ho, hd⟩ := decodeB_of_matchesRow (opc := 0x22) h .famSetup
    exact ⟨_, by rw [decode, ho]; exact hd, rfl⟩
  | 9 =>
    obtain ⟨ho, hd⟩ := decodeN_of_matchesRow (opc := 0x23) h .skipFam
    exact ⟨_, by rw [decode, ho]; exact hd, rfl⟩
  | 10 =>
    obtain ⟨ho, hd⟩ := decodeN_of_matchesRow (opc := 0x30) h .access
    exact ⟨_, by rw [decode, ho]; exact hd, rfl⟩
  | 11 =>
    obtain ⟨ho, hd⟩ := decodeV_of_matchesRow (opc := 0x31) h .verify
    exact ⟨_, by rw [decode, ho]; exact hd, rfl⟩
  | 12 =>
    obtain ⟨ho, hd⟩ := decodeN_of_matchesRow (opc := 0x32) h .odAccess
    exact ⟨_, by rw [decode, ho]; exact hd, rfl⟩
  | 13 =>
    obtain ⟨ho, hd⟩ := decodeX_of_matchesRow (opc := 0x33) h .exchange
    exact ⟨_, by rw [decode, ho]; exact hd, rfl⟩
  | 14 =>
    obtain ⟨ho, hd⟩ := decodeW_of_matchesRow (opc := 0x34) h .addrWr
    exact ⟨_, by rw [decode, ho]; exact hd, rfl⟩

open Sys2Proof.Laws in
/-- The word of a command matches the row of the command: the laws of Laws/PerInstr.lean, for any command. -/
theorem matchesRow_encode (i : Instr) : matchesRow (encode i) (opcodeMap.get i.rowIndex) = true :=
  match i with
  | .crc8Reset seed => EncodedWord.crc8Reset seed
  | .crc8Update b => EncodedWord.crc8Update b
  | .crc8Check => EncodedWord.crc8Check
  | .crc16Reset seed => EncodedWord.crc16Reset seed
  | .crc16Update b => EncodedWord.crc16Update b
  | .crc16Check => EncodedWord.crc16Check
  | .first r a => EncodedWord.first r a
  | .next r a => EncodedWord.next r a
  | .famSetup code => EncodedWord.famSetup code
  | .skipFam => EncodedWord.skipFam
  | .access => EncodedWord.access
  | .verify a => EncodedWord.verify a
  | .odAccess => EncodedWord.odAccess
  | .exchange r len => EncodedWord.exchange r len
  | .addrWr idx b => EncodedWord.addrWr idx b

/-- R75: "a word w is the command when `w & mask == match`". -/
theorem matchesRow_iff_decode {w : Word} {k : Fin 15} :
    matchesRow w (opcodeMap.get k) = true ↔ ∃ i, decode w = .ok i ∧ i.rowIndex = k := by
  refine ⟨decode_of_matchesRow, ?_⟩
  rintro ⟨i, hi, rfl⟩
  exact encode_of_decode hi ▸ matchesRow_encode i

/-- A word that matches no row is illegal. -/
theorem decode_of_no_row {w : Word} (h : ∀ k : Fin 15, matchesRow w (opcodeMap.get k) = false) :
    ∃ e, decode w = .error e := by
  cases hd : decode w with
  | error e => exact ⟨e, rfl⟩
  | ok i => exact absurd (matchesRow_iff_decode.2 ⟨i, hd, rfl⟩) (by rw [h]; exact Bool.false_ne_true)

/-! ## The rows of R75 with their mnemonics -/

/-- The mnemonics of R75, in the order of `opcodeMap`. -/
def rowMnemonic : Fin 15 → String :=
  [ "CRC8.RESET", "CRC8.UPDATE", "CRC8.CHECK", "CRC16.RESET", "CRC16.UPDATE", "CRC16.CHECK", "FIRST", "NEXT",
    "FAMSETUP", "SKIPFAM", "ACCESS", "VERIFY", "ODACCESS", "EXCHANGE", "ADDRWR" ].get

theorem rowMnemonic_injective : Function.Injective rowMnemonic := by
  unfold Function.Injective
  decide

theorem mnemonic_eq_rowMnemonic (i : Instr) : i.mnemonic = rowMnemonic i.rowIndex := by cases i <;> rfl

theorem mnemonic_eq_iff {i : Instr} {k : Fin 15} : i.mnemonic = rowMnemonic k ↔ i.rowIndex = k := by
  rw [mnemonic_eq_rowMnemonic, rowMnemonic_injective.eq_iff]

/-- A row of R75: `opc`, mnemonic, match and mask, the `opc` being the top byte of the match. -/
def specRow (k : Fin 15) : Byte × String × Word × Word :=
  (opcOf (opcodeMap.get k).1, rowMnemonic k, (opcodeMap.get k).1, (opcodeMap.get k).2)

/-- Every mask compares the whole `opc`. -/
theorem opcOf_mask (k : Fin 15) : opcOf (opcodeMap.get k).2 = BitVec.allOnes 8 := by
  revert k
  decide

theorem opcOf_of_matchesRow {w : Word} {k : Fin 15} (h : w &&& (opcodeMap.get k).2 = (opcodeMap.get k).1) :
    opcOf w = opcOf (opcodeMap.get k).1 := by
  rw [← h, opcOf, opcOf, BitVec.extractLsb'_and, ← opcOf, ← opcOf, opcOf_mask, BitVec.and_allOnes]

/-- Settles O4: a row's words are those that decode to a command of its row (`matchesRow_iff_decode`), which is to say
of its mnemonic (`mnemonic_eq_iff`). -/
theorem wordIsTheCommandOfItsMatchingRow : Obligations.WordIsTheCommandOfItsMatchingRow := by
  refine ⟨?_, fun w v i => decode_injective⟩
  change ∀ x ∈ (List.finRange 15).map specRow, _
  rw [List.forall_mem_map]
  intro k _ w
  refine ⟨?_, opcOf_of_matchesRow⟩
  simp only [specRow, mnemonic_eq_iff, ← matchesRow_iff_decode, matchesRow, beq_iff_eq]

/-- Settles O5: the row is that of the command decoded, and no other, since `decode` gives one command. -/
theorem everyWordIsOneCommandOrIllegal : Obligations.EveryWordIsOneCommandOrIllegal := by
  intro w
  by_cases h : ∀ k : Fin 15, matchesRow w (opcodeMap.get k) = false
  · exact .inr ⟨h, decode_of_no_row h⟩
  · obtain ⟨k, hk⟩ := not_forall.1 h
    rw [Bool.not_eq_false] at hk
    obtain ⟨i, hi, hik⟩ := matchesRow_iff_decode.1 hk
    refine .inl ⟨k, hk, fun j hj => ?_, i, hi, hik⟩
    obtain ⟨i', hi', hij⟩ := matchesRow_iff_decode.1 hj
    cases hi.symm.trans hi'
    exact hij.symm.trans hik

/-- Settles O1: a closed table, each example evaluated. -/
theorem specEncodingExamplesDecode : Obligations.SpecEncodingExamplesDecode := by
  unfold Obligations.SpecEncodingExamplesDecode
  decide

end Sys2Proof

namespace Sys2Proof.Machine

/-! ## Operands -/

/-- R74: the length check comes first and ends the command. -/
theorem exec_exchange_of_long {s : State} {len : Nat} (h : s.params.maxBlockLen < len) (r : Bool) :
    exec (.exchange r len) s = .next (s.start.fail .lengthExceeded) :=
  congrArg Host.Outcome.next (if_pos h)

/-- `imm[7:0]` as bits of the word. -/
theorem immLow_eq_extractLsb' (w : Word) : immLow w = w.extractLsb' 0 8 :=
  BitVec.extractLsb'_extractLsb'_of_le (by decide)

/-- `imm[10:8]` as bits of the word. -/
theorem idxOf_eq_extractLsb' (w : Word) : idxOf w = w.extractLsb' 8 3 :=
  BitVec.extractLsb'_extractLsb'_of_le (by decide)

theorem byte_wordOf_immByte (opc : BitVec 8) (r a : Bool) (b : Byte) :
    (wordOf opc r a (immByte b)).extractLsb' 0 8 = b := by
  rw [← immLow_eq_extractLsb', immLow, immOf_wordOf, immByte_low]

theorem byte_wordOf_immIndexByte (opc : BitVec 8) (r a : Bool) (k : Fin 8) (b : Byte) :
    (wordOf opc r a (immIndexByte k b)).extractLsb' 0 8 = b := by
  rw [← immLow_eq_extractLsb', immLow, immOf_wordOf, immIndexByte_low]

theorem index_wordOf_immIndexByte (opc : BitVec 8) (r a : Bool) (k : Fin 8) (b : Byte) :
    ((wordOf opc r a (immIndexByte k b)).extractLsb' 8 3).toNat = k.val := by
  rw [← idxOf_eq_extractLsb', idxOf, immOf_wordOf, ← BitVec.val_toFin, immIndexByte_index]

/-- Settles O6: a word decoded is the word of its command (`wf_and_encode_of_decode`), so its fields are read off the
encoder's `wordOf`. -/
theorem operandsAreTheirFields : Obligations.OperandsAreTheirFields := by
  refine ⟨fun w i h => ?_, fun r len s hlen => ⟨_, exec_exchange_of_long hlen r, rfl⟩⟩
  obtain ⟨hwf, rfl⟩ := wf_and_encode_of_decode h
  cases i with
  | crc8Reset seed => exact (byte_wordOf_immByte ..).symm
  | crc8Update b => exact (byte_wordOf_immByte ..).symm
  | crc8Check => trivial
  | crc16Reset seed => exact (immOf_wordOf ..).symm
  | crc16Update b => exact (byte_wordOf_immByte ..).symm
  | crc16Check => trivial
  | first r a => exact ⟨(rOf_wordOf ..).symm, (aOf_wordOf ..).symm⟩
  | next r a => exact ⟨(rOf_wordOf ..).symm, (aOf_wordOf ..).symm⟩
  | famSetup code => exact (byte_wordOf_immByte ..).symm
  | skipFam => trivial
  | access => trivial
  | verify a => exact (aOf_wordOf ..).symm
  | odAccess => trivial
  | exchange r len =>
    have hlen : len ≤ 65535 := of_decide_eq_true hwf
    have himm : (immOf (encode (.exchange r len))).toNat = len := by
      rw [encode, immOf_wordOf, BitVec.toNat_ofNat, Nat.mod_eq_of_lt (Nat.lt_succ_of_le hlen)]
    exact ⟨(rOf_wordOf ..).symm, himm.symm, hlen⟩
  | addrWr idx b => exact ⟨(index_wordOf_immIndexByte ..).symm, (byte_wordOf_immIndexByte ..).symm⟩

/-! ## Illegal words -/

/-- Settles O8: such a word decodes to no command (`decode_of_no_row`), and an illegal word ends the step. -/
theorem illegalWordChangesStatusAndResultOnly : Obligations.IllegalWordChangesStatusAndResultOnly := by
  intro s w rest hw hs
  obtain ⟨e, he⟩ := decode_of_no_row hw
  rw [step_of_host_cons hs, serve, runWord_of_illegal he]
  rfl

end Sys2Proof.Machine

/-! PROOFS about the CRC engines: their six commands (spec 40 R94 to R102), the steps and their tables (R91, R98), the
validity of an address (R92), the residual of a framed payload (R103), and that no other command touches `CRC8` or
`CRC16` (R104). -/

namespace Sys2Proof.Machine

/-! ## The six commands -/

/-- Settles O17: the meaning of CRC8.RESET, read off. -/
theorem crc8ResetWritesTheSeed : Obligations.Crc8ResetWritesTheSeed := fun _ _ => rfl

/-- Settles O18: the meaning of CRC8.UPDATE, read off. -/
theorem crc8UpdateTakesOneStep : Obligations.Crc8UpdateTakesOneStep := fun _ _ => rfl

theorem exec_crc8Check (s : State) :
    exec .crc8Check s = .next (s.start.endWith (if s.crc8 = crc8Residual then .ok else .crcFailure)) := rfl

/-- Settles O19, by the two outcomes of the test; `RES` follows the status. -/
theorem crc8CheckTestsTheResidual : Obligations.Crc8CheckTestsTheResidual := by
  intro s
  rw [exec_crc8Check, crc8Residual]
  split <;> rfl

/-- Settles O20: the meaning of CRC16.RESET, read off. -/
theorem crc16ResetWritesTheSeed : Obligations.Crc16ResetWritesTheSeed := fun _ _ => rfl

/-- Settles O21: the meaning of CRC16.UPDATE, read off. -/
theorem crc16UpdateTakesOneStep : Obligations.Crc16UpdateTakesOneStep := fun _ _ => rfl

theorem exec_crc16Check (s : State) :
    exec .crc16Check s = .next (s.start.endWith (if s.crc16 = crc16Residual then .ok else .crcFailure)) := rfl

/-- Settles O22, by the two outcomes of the test; `RES` follows the status. -/
theorem crc16CheckTestsTheResidual : Obligations.Crc16CheckTestsTheResidual := by
  intro s
  rw [exec_crc16Check, crc16Residual]
  split <;> rfl

/-! ## The steps over the register's own bits

A turn whose data bit is the register's low bit only shifts. Hence a step over the register's own low byte only shifts
it out, and by linearity (`crc8Step_xor`, `crc16Step_xor`) what a step adds depends on the register's low byte against
the data byte alone. -/

theorem crc8Bit_low (c : Byte) : crc8Bit c (c.getLsbD 0) = c >>> 1 := by simp [crc8Bit]

theorem crc16Bit_low (c : Half) : crc16Bit c (c.getLsbD 0) = c >>> 1 := by simp [crc16Bit]

/-- R92: `crc8_step(c, c) = 0x00`. -/
theorem crc8Step_self (c : Byte) : crc8Step c c = 0 := by
  have h : ∀ n, (List.range n).foldl (fun r k => crc8Bit r (c.getLsbD k)) c = c >>> n := by
    intro n
    induction n with
    | zero => simp
    | succ n ih =>
      have hlow : c.getLsbD n = (c >>> n).getLsbD 0 := by simp
      rw [List.range_succ, List.foldl_concat, ih, hlow, crc8Bit_low, BitVec.shiftRight_add]
  exact (h 8).trans (BitVec.ushiftRight_eq_zero (Nat.le_refl 8))

/-- R98: the register's low byte only shifts the high one down. -/
theorem crc16Step_low (c : Half) : crc16Step c (c.setWidth 8) = c >>> 8 := by
  have h : ∀ n ≤ 8, (List.range n).foldl (fun r k => crc16Bit r ((c.setWidth 8).getLsbD k)) c = c >>> n := by
    intro n
    induction n with
    | zero => simp
    | succ n ih =>
      intro hn
      have hlow : (c.setWidth 8).getLsbD n = (c >>> n).getLsbD 0 := by simp [show n < 8 from hn]
      rw [List.range_succ, List.foldl_concat, ih (by omega), hlow, crc16Bit_low, BitVec.shiftRight_add]
  exact h 8 (Nat.le_refl 8)

theorem crc8Step_eq (c b : Byte) : crc8Step c b = crc8Step 0 (c ^^^ b) := by
  have h := crc8Step_xor c 0#8 c (c ^^^ b)
  simpa [crc8Step_self, ← BitVec.xor_assoc] using h

theorem crc16Step_eq (c : Half) (b : Byte) :
    crc16Step c b = (c >>> 8) ^^^ crc16Step 0 (c.setWidth 8 ^^^ b) := by
  have h := crc16Step_xor c 0#16 (c.setWidth 8) (c.setWidth 8 ^^^ b)
  rwa [crc16Step_low, ← BitVec.xor_assoc, BitVec.xor_self, BitVec.xor_zero, BitVec.zero_xor] at h

/-! ## The tables -/

theorem crc8Table_eq : crc8Table = (List.range 256).map fun x => crc8Step 0 (BitVec.ofNat 8 x) := by
  decide +kernel

theorem crc16Table_eq : crc16Table = (List.range 256).map fun x => crc16Step 0 (BitVec.ofNat 8 x) := by
  decide +kernel

theorem crc8Table_getElem? (x : Byte) : crc8Table[x.toNat]? = some (crc8Step 0 x) := by
  simp [crc8Table_eq, List.getElem?_range x.isLt]

theorem crc16Table_getElem? (x : Byte) : crc16Table[x.toNat]? = some (crc16Step 0 x) := by
  simp [crc16Table_eq, List.getElem?_range x.isLt]

/-- Settles O23: the table is the steps from 0 (`crc8Table_eq`), and a step depends on `c ^ b` alone (`crc8Step_eq`). -/
theorem crc8StepIsItsTable : Obligations.Crc8StepIsItsTable :=
  ⟨by rw [crc8Table_eq]; simp, crc8Table_getElem?, fun c b => by rw [crc8Table_getElem?, ← crc8Step_eq]⟩

/-- R98: `(c ^ b) & 0xFF` is the register's low byte against the data byte. -/
theorem crc16Index_eq (c : Half) (b : Byte) :
    ((c ^^^ b.setWidth 16) &&& 0xFF).toNat = (c.setWidth 8 ^^^ b).toNat :=
  calc ((c ^^^ b.setWidth 16) &&& 0xFF).toNat
    _ = (c ^^^ b.setWidth 16).toNat % 2 ^ 8 := Nat.and_two_pow_sub_one_eq_mod _ 8
    _ = ((c ^^^ b.setWidth 16).setWidth 8).toNat := (BitVec.toNat_setWidth 8 _).symm
    _ = (c.setWidth 8 ^^^ b).toNat := by
      rw [BitVec.setWidth_xor, BitVec.setWidth_setWidth_of_le b (by decide), BitVec.setWidth_eq]

/-- Settles O24: the table is the steps from 0 (`crc16Table_eq`), and a step is the register's high byte against the
step from 0 over the table's index (`crc16Step_eq`, `crc16Index_eq`). -/
theorem crc16StepIsItsTable : Obligations.Crc16StepIsItsTable :=
  ⟨by rw [crc16Table_eq]; simp, crc16Table_getElem?, fun c b =>
    ⟨crc16Step 0 (c.setWidth 8 ^^^ b), by rw [crc16Index_eq, crc16Table_getElem?], crc16Step_eq c b⟩⟩

/-! ## The validity of an address -/

/-- A turn with a zero data bit loses nothing: bit 7 of the register tells whether the polynomial was mixed in. -/
theorem eq_zero_of_crc8Bit_false {c : Byte} (h : crc8Bit c false = 0) : c = 0 := by
  have hlow : c.getLsbD 0 = false := by
    cases h0 : c.getLsbD 0 with
    | false => rfl
    | true =>
      have h7 : (crc8Bit c false).getLsbD 7 = true := by simp [crc8Bit, h0]
      simp [h] at h7
  have hhigh : c >>> 1 = 0 := by rw [← crc8Bit_low, hlow, h]
  apply BitVec.eq_of_getLsbD_eq
  intro i hi
  cases i with
  | zero => simpa using hlow
  | succ i => simpa [Nat.add_comm] using congrArg (BitVec.getLsbD · i) hhigh

/-- Nor does a step over a zero byte (`eq_zero_of_crc8Bit_false`, turn by turn). -/
theorem eq_zero_of_crc8Step_zero {c : Byte} (h : crc8Step c 0 = 0) : c = 0 := by
  have key : ∀ (ns : List Nat) (c : Byte), ns.foldl (fun c n => crc8Bit c ((0 : Byte).getLsbD n)) c = 0 → c = 0 := by
    intro ns
    induction ns with
    | nil => exact fun _ h => h
    | cons n ns ih => exact fun c h => eq_zero_of_crc8Bit_false (by simpa using ih _ h)
  exact key _ c h

/-- A byte takes the register to zero exactly when it is the register's value. -/
theorem crc8Step_eq_zero_iff {c b : Byte} : crc8Step c b = 0 ↔ c = b := by
  constructor
  · intro h
    have hz : crc8Step (c ^^^ b) 0 = 0 := by
      rw [crc8Step_eq] at h ⊢
      simpa using h
    exact BitVec.xor_eq_zero_iff.1 (eq_zero_of_crc8Step_zero hz)
  · rintro rfl
    exact crc8Step_self c

/-- R92: the eighth step takes byte 7 over the running value of bytes 0 to 6. -/
theorem crc8_addrBytes (x : Address) :
    crc8 (addrBytes x) = crc8Step (crc8 ((addrBytes x).take 7)) (addrByte x 7) := by
  have h : addrBytes x = (addrBytes x).take 7 ++ [addrByte x 7] := rfl
  exact (congrArg (List.foldl crc8Step 0) h).trans (List.foldl_concat ..)

/-- Settles O25: byte 7 takes the running value of bytes 0 to 6 to zero exactly when it is that value
(`crc8Step_eq_zero_iff`). -/
theorem addressValidityInItsTwoForms : Obligations.AddressValidityInItsTwoForms :=
  ⟨fun _ _ => rfl, crc8Step_self, fun x =>
    ⟨by rw [addrValid, crc8Residual, beq_iff_eq], by rw [crc8_addrBytes]; exact crc8Step_eq_zero_iff⟩⟩

/-! ## The residual of a framed payload -/

/-- The register's own two bytes, low byte first, shift it out. -/
theorem crc16Step_own_bytes (c : Half) :
    crc16Step (crc16Step c (c.extractLsb' 0 8)) (c.extractLsb' 8 8) = 0 := by
  have hlow : c.extractLsb' 0 8 = c.setWidth 8 := (BitVec.setWidth_eq_extractLsb' (by decide)).symm
  have hhigh : c.extractLsb' 8 8 = (c >>> 8).setWidth 8 := rfl
  rw [hlow, crc16Step_low, hhigh, crc16Step_low, ← BitVec.shiftRight_add]
  exact BitVec.ushiftRight_eq_zero (Nat.le_refl 16)

/-- R99, R103: the two complement bytes are the register's own two bytes with every bit turned; by linearity the first
leave 0 and the second what two bytes 0xFF make of a register at 0. -/
theorem crc16_crc16Trailer (c : Half) : crc16 (crc16Trailer c) c = crc16Residual :=
  calc crc16Step (crc16Step c ((~~~c).extractLsb' 0 8)) ((~~~c).extractLsb' 8 8)
    _ = crc16Step (crc16Step (c ^^^ 0#16) (c.extractLsb' 0 8 ^^^ 0xFF)) (c.extractLsb' 8 8 ^^^ 0xFF) := by
      rw [← BitVec.xor_allOnes, BitVec.extractLsb'_xor, BitVec.extractLsb'_xor, BitVec.xor_zero]
      rfl
    _ = crc16Step (crc16Step c (c.extractLsb' 0 8)) (c.extractLsb' 8 8) ^^^
          crc16Step (crc16Step 0#16 0xFF) 0xFF := by rw [crc16Step_xor, crc16Step_xor]
    _ = crc16Residual := by
      have h : crc16Step 0#16 0xFF = 0x4040 := rfl
      rw [crc16Step_own_bytes, h]
      rfl

/-- Settles O26: the running value of the payload meets its own trailer (`crc16_crc16Trailer`); any other residual fails
the check (`crc16CheckTestsTheResidual`). -/
theorem crc16ResidualOfEveryFramedPayload : Obligations.Crc16ResidualOfEveryFramedPayload := by
  refine ⟨fun seed payload => ?_, fun s h => ⟨_, crc16CheckTestsTheResidual s, ?_⟩⟩
  · rw [List.foldl_append]
    exact crc16_crc16Trailer _
  · rw [if_neg h]
    exact ⟨rfl, rfl⟩

/-! ## No other command touches the registers -/

/-- Both CRC registers. -/
def State.setCrcs (c : Byte) (d : Half) (s : State) : State := (s.setCrc8 c).setCrc16 d

@[simp] theorem State.setCrcs_crc8 (c : Byte) (d : Half) (s : State) : (s.setCrcs c d).crc8 = c := rfl
@[simp] theorem State.setCrcs_crc16 (c : Byte) (d : Half) (s : State) : (s.setCrcs c d).crc16 = d := rfl
@[simp] theorem State.setCrcs_params (c : Byte) (d : Half) (s : State) : (s.setCrcs c d).params = s.params := rfl
@[simp] theorem State.setCrcs_link (c : Byte) (d : Half) (s : State) : (s.setCrcs c d).link = s.link := rfl
@[simp] theorem State.setCrcs_start (c : Byte) (d : Half) (s : State) :
    (s.setCrcs c d).start = s.start.setCrcs c d := rfl

/-! ### The ends of commands commute with a change of the CRC registers -/

section
variable (c : Byte) (d : Half)

theorem State.concludeSearch_setCrcs (o : Except LinkFault SearchEnd × Link) (s : State) :
    (s.setCrcs c d).concludeSearch o = (s.concludeSearch o).setCrcs c d := by
  obtain ⟨_ | _ | _ | _, _⟩ := o <;> rfl

theorem State.conclude_setCrcs (o : Except LinkFault Status × Link) (s : State) :
    (s.setCrcs c d).conclude o = (s.conclude o).setCrcs c d := by
  rw [State.conclude_eq, State.conclude_eq]
  rfl

theorem State.concludeVerify_setCrcs (o : Except LinkFault (Option Nat) × Link) (s : State) :
    (s.setCrcs c d).concludeVerify o = (s.concludeVerify o).setCrcs c d := by
  obtain ⟨_ | _ | _, _⟩ := o <;> rfl

theorem State.concludeExchange_setCrcs (o : Memory × (Except LinkFault Unit × Link)) (s : State) :
    (s.setCrcs c d).concludeExchange o = (s.concludeExchange o).setCrcs c d := by
  obtain ⟨_, _ | _, _⟩ := o <;> rfl

theorem State.nextBody_setCrcs (r a : Bool) (s : State) :
    (s.setCrcs c d).nextBody r a = (s.nextBody r a).setCrcs c d := by
  cases h : s.ldf with
  | true => rw [State.nextBody_of_last h, State.nextBody_of_last (s := s.setCrcs c d) h]; rfl
  | false =>
    rw [State.nextBody_of_not_last h, State.nextBody_of_not_last (s := s.setCrcs c d) h]
    exact State.concludeSearch_setCrcs c d _ s

theorem State.exchangeBody_setCrcs (len : Nat) (s : State) :
    (s.setCrcs c d).exchangeBody len = (s.exchangeBody len).setCrcs c d :=
  State.concludeExchange_setCrcs c d _ s

end

/-! ### The commands -/

/-- R104, of one command: run over other CRC registers, it leaves the same state over those. -/
def CrcBlind (i : Instr) : Prop :=
  ∀ s t c d, exec i s = .next t → exec i (s.setCrcs c d) = .next (t.setCrcs c d)

/-- EXCHANGE chooses its way by its operands, `MAX_BLOCK_LEN` and the link alone. -/
theorem crcBlind_exchange (r : Bool) (len : Nat) : CrcBlind (.exchange r len) := by
  intro s t c d h
  by_cases hlen : s.params.maxBlockLen < len
  · cases (exec_exchange_of_long hlen r).symm.trans h
    exact exec_exchange_of_long (s := s.setCrcs c d) hlen r
  · have hlen' : ¬ (s.setCrcs c d).params.maxBlockLen < len := hlen
    simp only [exec, execExchange, if_neg hlen, if_neg hlen'] at h ⊢
    cases h
    cases r with
    | false => exact congrArg Host.Outcome.next (State.exchangeBody_setCrcs c d len s.start)
    | true =>
      rw [State.setCrcs_params, State.setCrcs_start, State.setCrcs_link]
      rcases linkReset s.params s.start.link with ⟨_ | _ | _, l⟩
      · rfl
      · rfl
      · exact congrArg Host.Outcome.next (State.exchangeBody_setCrcs c d len (s.start.setLink l))

/-- A command that does not read the registers does not write them either: run over the registers it has, it leaves
those. -/
theorem CrcBlind.keeps {i : Instr} (hi : CrcBlind i) {s t : State} (h : exec i s = .next t) :
    t.crc8 = s.crc8 ∧ t.crc16 = s.crc16 := by
  have ht : Host.Outcome.next t = .next (t.setCrcs s.crc8 s.crc16) := h.symm.trans (hi s t s.crc8 s.crc16 h)
  rw [Host.Outcome.next.inj ht]
  exact ⟨State.setCrcs_crc8 .., State.setCrcs_crc16 ..⟩

/-- Settles O28: each of the nine commands is blind to the registers, by the end it comes to; hence it keeps them
(`CrcBlind.keeps`). -/
theorem crcRegistersArePrivate : Obligations.CrcRegistersArePrivate := by
  intro i s c d hi
  obtain ⟨t, _, h, _⟩ := exec_ran i s
  have hb : CrcBlind i := by
    cases i with
    | first r a =>
      rintro s t c d ⟨⟩
      exact congrArg Host.Outcome.next (State.nextBody_setCrcs c d r a (s.start.setSearch (.num 0) 0 false))
    | next r a => rintro s t c d ⟨⟩; exact congrArg Host.Outcome.next (State.nextBody_setCrcs c d r a s.start)
    | famSetup code => rintro s t c d ⟨⟩; rfl
    | skipFam => rintro s t c d ⟨⟩; rfl
    | access => rintro s t c d ⟨⟩; exact congrArg Host.Outcome.next (State.conclude_setCrcs c d _ s.start)
    | verify a => rintro s t c d ⟨⟩; exact congrArg Host.Outcome.next (State.concludeVerify_setCrcs c d _ s.start)
    | odAccess => rintro s t c d ⟨⟩; exact congrArg Host.Outcome.next (State.conclude_setCrcs c d _ s.start)
    | exchange r len => exact crcBlind_exchange r len
    | addrWr idx b => rintro s t c d ⟨⟩; rfl
    | crc8Reset _ => exact hi.elim
    | crc8Update _ => exact hi.elim
    | crc8Check => exact hi.elim
    | crc16Reset _ => exact hi.elim
    | crc16Update _ => exact hi.elim
    | crc16Check => exact hi.elim
  obtain ⟨h8, h16⟩ := hb.keeps h
  exact ⟨t, h, h8, h16, hb s t c d h⟩

end Sys2Proof.Machine

/-! PROOFS about the enumerator's commands: what FIRST, FAMSETUP and SKIPFAM write (spec 41 R111, R123, R124), NEXT
after the last device (R113), and how many link calls a command makes (R130). -/

namespace Sys2Proof.Machine

/-- Settles O29: the two meanings clear the same registers before the same body. -/
theorem firstIsNextAfterClearing : Obligations.FirstIsNextAfterClearing := fun _ _ _ => rfl

/-- From `HI = 0`, with no family record and not at the last device, there is nothing for FIRST to clear (R16, R111). -/
theorem exec_next_eq_first {s : State} (hd : s.ld.hi = 0) (hfam : s.lfd = 0) (hlast : s.ldf = false) (r a : Bool) :
    exec (.next r a) s = exec (.first r a) s := by
  rw [firstIsNextAfterClearing, exec_next_of_hi_zero r a hd (d := .num 0) rfl, ← hfam, ← hlast]

/-- R113: NEXT after the last device. -/
theorem exec_next_of_last {s : State} (h : s.ldf = true) (r a : Bool) :
    exec (.next r a) s = .next (s.start.ssEmpty.fail .endOfSearch) :=
  congrArg Host.Outcome.next (State.nextBody_of_last (s := s.start) h r a)

/-- Settles O30: what `exec_next_of_last` leaves is the empty search, from which NEXT is FIRST
(`exec_next_eq_first`). -/
theorem nextAfterTheLastDeviceEmptiesTheSearch : Obligations.NextAfterTheLastDeviceEmptiesTheSearch :=
  fun r a _ h => ⟨_, exec_next_of_last h r a, rfl, exec_next_eq_first rfl rfl rfl⟩

/-- R123: the family code stands in byte 0, and the other bytes are 0. -/
theorem addrByte_familySeed (code : Byte) (k : Nat) : addrByte (familySeed code) k = if k = 0 then code else 0 := by
  apply BitVec.eq_of_getLsbD_eq
  intro i hi
  by_cases hk : k = 0
  · simp [addrByte, familySeed, hk, hi, show i < 64 by omega]
  · simp [addrByte, familySeed, hk, BitVec.getLsbD_of_ge code _ (show 8 ≤ 8 * k + i by omega)]

/-- Settles O37: the meaning of FAMSETUP, and `ADDR` byte by byte (`addrByte_familySeed`). -/
theorem famSetupSeedsTheSearch : Obligations.FamSetupSeedsTheSearch :=
  fun code _ => ⟨_, rfl, addrByte_familySeed code 0,
    fun k hk _ => (addrByte_familySeed code k).trans (if_neg (Nat.ne_of_gt hk)), rfl⟩

/-- Settles O38: the meaning of SKIPFAM, read off. -/
theorem skipFamMovesTheDecisionPoint : Obligations.SkipFamMovesTheDecisionPoint := fun _ => rfl

/-- Settles O55: every command makes at most `maxCallsOf` link calls (`exec_ran`). -/
theorem commandsAreFinite : Obligations.CommandsAreFinite := by
  intro i s
  obtain ⟨t, es, h, hran⟩ := exec_ran i s
  refine ⟨t, h, ?_⟩
  rw [hran.link]
  cases i <;> exact hran.bound

end Sys2Proof.Machine

/-! PROOFS about one search: its bus reset (spec 41 R114), the address its pass drives and the record it leaves (R119,
R120, R122), and that only good addresses are yielded (R121). -/

namespace Sys2Proof.Machine

/-! ## The bus reset -/

/-- Step 2 (R114): the answer of the last reset made decides; without `r` there is none to make. -/
theorem searchReset_of_quiet {s : State} {r : Bool} (hq : s.Quiet (s.resetCalls r)) :
    searchReset s.params r s.addr s.start.link =
      (.ok (!r || (s.answerAt (s.resetCalls r - 1)).presence), s.start.link.advance (s.resetEvents r)) := by
  cases r with
  | false => simp [searchReset, State.resetEvents, State.resetCalls]
  | true =>
    have hq1 : s.start.link.Quiet s.params (s.resetCalls true) := hq
    by_cases hf : isAlarmClockFamily s.params (addrByte s.addr 0) = true
    · have hn : s.resetCalls true = 2 := by simp [State.resetCalls, hf]
      rw [hn] at hq1
      have h1 := linkReset_of_quiet (hq1.mono (by omega))
      rw [searchReset, if_pos rfl, if_pos hf, LinkOp.andThen_ok h1, linkReset_of_quiet (Link.Quiet.log _ _ hq1)]
      simp [-State.start_link, State.resetEvents, hn, Link.log_eq_advance, Link.advance_append, List.range_succ]
    · have hn : s.resetCalls true = 1 := by simp [State.resetCalls, hf]
      rw [hn] at hq1
      rw [searchReset, if_pos rfl, if_neg hf, linkReset_of_quiet hq1]
      simp [-State.start_link, State.resetEvents, hn, Link.log_eq_advance, List.range_succ]

theorem State.resetEvents_length (s : State) (r : Bool) : (s.resetEvents r).length = s.resetCalls r := by
  simp [State.resetEvents]

/-- What the search comes to after a step 2 with this presence (R112). -/
theorem search_of_quiet_reset {s : State} {r : Bool} (a : Bool) (hq : s.Quiet (s.resetCalls r)) :
    search s.params r a s.addr s.ld s.lfd s.start.link =
      (if (!r || (s.answerAt (s.resetCalls r - 1)).presence) then searchPass s.params a s.addr s.ld s.lfd
        else LinkOp.done .noPresence) (s.start.link.advance (s.resetEvents r)) :=
  LinkOp.andThen_ok (searchReset_of_quiet hq)

theorem exec_next_of_not_last {s : State} (hl : s.ldf = false) (r a : Bool) :
    exec (.next r a) s =
      .next (s.start.concludeSearch (search s.params r a s.addr s.ld s.lfd s.start.link)) :=
  congrArg Host.Outcome.next (State.nextBody_of_not_last (s := s.start) hl r a)

/-- NEXT on a bus with no presence (R114). -/
theorem exec_next_of_no_presence {s : State} (a : Bool) (hl : s.ldf = false) (hq : s.Quiet (s.resetCalls true))
    (hp : (s.answerAt (s.resetCalls true - 1)).presence = false) :
    exec (.next true a) s =
      .next { s with ld := .num 0, lfd := 0, status := .noPresence, res := false,
                     link := s.link.command (s.resetEvents true) } := by
  rw [exec_next_of_not_last hl, search_of_quiet_reset a hq, hp]
  rfl

/-- NEXT on a bus with presence, or without a reset: steps 3 to 6 follow (R112). -/
theorem exec_next_of_presence {s : State} {r : Bool} (a : Bool) (hl : s.ldf = false) (hq : s.Quiet (s.resetCalls r))
    (hp : r = true → (s.answerAt (s.resetCalls r - 1)).presence = true) :
    exec (.next r a) s =
      .next (s.start.concludeSearch
        (searchPass s.params a s.addr s.ld s.lfd (s.start.link.advance (s.resetEvents r)))) := by
  have h : (!r || (s.answerAt (s.resetCalls r - 1)).presence) = true := by
    cases r with
    | false => rfl
    | true => exact hp rfl
  rw [exec_next_of_not_last hl, search_of_quiet_reset a hq, if_pos h]

/-- Steps 3 to 5 that came to an end ran the whole pass or stopped in it, and yield a good candidate or none (R121). -/
theorem searchPass_ok_cases {p : Params} {a : Bool} {addr : Address} {ld : Discrepancy} {lfd : Fin 65} {l : Link}
    {e : SearchEnd} (h : (searchPass p a addr ld lfd l).1 = .ok e) :
    e = .corrupted ∨ ∃ ps, e = .found ps ∧ candidateGood ps.cand = true := by
  obtain ⟨_, _, _, h⟩ := LinkOp.of_andThen_ok h
  obtain ⟨o, _, _, h⟩ := LinkOp.of_andThen_ok h
  rw [LinkOp.done_apply] at h
  injection h with h
  subst h
  rcases o with _ | ps
  · exact .inl rfl
  · by_cases hg : candidateGood ps.cand = true
    · exact .inr ⟨ps, if_pos hg, hg⟩
    · exact .inl (if_neg hg)

theorem Status.ofFault_ne_noPresence (k : LinkFault) : Status.ofFault k ≠ .noPresence := by cases k <;> decide

theorem State.concludeSearch_link (o : Except LinkFault SearchEnd × Link) (s : State) :
    (s.concludeSearch o).link = o.2 := by
  rcases State.concludeSearch_cases o s with ⟨_, e⟩ | ⟨_, e⟩ | ⟨_, _, e⟩ | ⟨_, _, e⟩ <;> rw [e]

/-- A search ends with NoPresence only where its reset saw none. -/
theorem State.concludeSearch_status_ne_noPresence {o : Except LinkFault SearchEnd × Link} (h : o.1 ≠ .ok .noPresence)
    (s : State) : (s.concludeSearch o).status ≠ .noPresence := by
  rcases State.concludeSearch_cases o s with ⟨hn, _⟩ | ⟨_, e⟩ | ⟨_, _, e⟩ | ⟨k, _, e⟩
  · exact absurd hn h
  · rw [e]; nofun
  · rw [e]; nofun
  · rw [e]; exact Status.ofFault_ne_noPresence k

/-- NEXT once step 2 is passed (R114): it does not end with NoPresence, and makes no further reset. -/
theorem exec_next_after_reset {s : State} {r : Bool} (a : Bool) (hl : s.ldf = false) (hq : s.Quiet (s.resetCalls r))
    (hp : r = true → (s.answerAt (s.resetCalls r - 1)).presence = true) :
    ∃ t es, exec (.next r a) s = .next t ∧ t.status ≠ .noPresence ∧ t.link.trace = s.resetEvents r ++ es ∧
      ∀ e ∈ es, e.call ≠ .reset := by
  obtain ⟨es, hm⟩ := makes_searchPass s.params (C := (· ≠ .reset)) nofun nofun nofun a s.addr s.ld s.lfd
    (s.start.link.advance (s.resetEvents r))
  refine ⟨_, es, exec_next_of_presence a hl hq hp, ?_, ?_, hm.calls⟩
  · apply State.concludeSearch_status_ne_noPresence
    intro h
    rcases searchPass_ok_cases h with he | ⟨_, he, _⟩ <;> cases he
  · rw [State.concludeSearch_link, hm.link, Link.advance_append]
    rfl

/-- Settles O31: the three ends of step 2, by `exec_next_of_no_presence` and `exec_next_after_reset`. -/
theorem searchResetsTheBusFirst : Obligations.SearchResetsTheBusFirst := by
  refine ⟨fun a _ => exec_next_of_no_presence a, fun a s hl hq hp => ?present, fun a s => ?noReset⟩
  case present =>
    obtain ⟨t, es, h, hst, htr, hes⟩ := exec_next_after_reset a hl hq fun _ => hp
    refine ⟨t, h, hst, ⟨es, htr.symm⟩, fun j hj hge => ?_⟩
    rw [← State.resetEvents_length] at hge
    rw [List.getElem_of_eq htr, List.getElem_append_right hge]
    exact hes _ (List.getElem_mem _)
  case noReset =>
    cases hl : s.ldf with
    | true => exact ⟨_, exec_next_of_last hl false a, nofun, nofun⟩
    | false =>
      obtain ⟨t, es, h, hst, htr, hes⟩ := exec_next_after_reset (r := false) a hl (.inr nofun) nofun
      exact ⟨t, h, hst, by rw [htr]; exact hes⟩

/-! ## The address of a pass -/

/-- The candidate path keeps the old address below `HI - 1` (R115). -/
theorem abit_candidatePath_below {ld : Discrepancy} {j : Nat} (h : j + 1 < ld.hi) (x : Address) :
    abit (candidatePath ld x) j = abit x j := by
  cases ld with
  | num n => exact (abit_candidatePath_num n x j).trans (if_pos h)
  | none => rfl
  | resetSentinel => rfl

/-- So a pass takes the same way over the candidate path as over the old address. -/
theorem direction_candidatePath (ld : Discrepancy) (j : Nat) (x : Address) (a b : Bool) :
    direction ld.hi j (candidatePath ld x) a b = direction ld.hi j x a b := by
  by_cases h : j + 1 < ld.hi
  · exact direction_congr _ _ (abit_candidatePath_below h x) a b
  · simp [direction, h]

/-- R112 step 3: `HI` is the number in `LD`, or 0. -/
theorem Discrepancy.hi_eq {ld : Discrepancy} {hi : Nat} (hnum : ∀ n, ld = .num n → hi = n.val)
    (hother : (∀ n, ld ≠ .num n) → hi = 0) : hi = ld.hi := by
  cases ld with
  | num n => exact hnum n rfl
  | none => exact hother nofun
  | resetSentinel => exact hother nofun

theorem candidateGood_iff (x : Address) :
    candidateGood x = true ↔ addrByte x 0 ≠ 0 ∧ crc8 ((addrBytes x).take 7) 0 = addrByte x 7 := by
  simp [candidateGood]

/-- The pass of a search that reads the bits `A` and `B`. -/
def wholePass (A B : Nat → Bool) (addr : Address) (ld : Discrepancy) (lfd : Fin 65) : Pass :=
  passEnd ld.hi A B 64 0 ⟨candidatePath ld addr, .none, lfd⟩

/-- Steps 3 to 5 as a function of the bits read, none of them (1,1) (R112). -/
theorem searchPass_of_quiet {p : Params} {a : Bool} {addr : Address} {ld : Discrepancy} {lfd : Fin 65} {l : Link}
    {A B : Nat → Bool} (hq : l.Quiet p 193)
    (hread : ∀ j < 64, (l.answerAt (1 + 3 * j)).bit = A j ∧ (l.answerAt (1 + (3 * j + 1))).bit = B j)
    (hab : ∀ j < 64, ¬ (A j = true ∧ B j = true)) :
    searchPass p a addr ld lfd l =
      (.ok (if candidateGood (wholePass A B addr ld lfd).cand then .found (wholePass A B addr ld lfd) else .corrupted),
       l.advance (⟨.touchByte (searchByte a), .byte (l.answerAt 0).byte⟩ ::
        passEvents ld.hi A B (candidatePath ld addr) 64 0)) := by
  have h1 := touchByte_of_quiet (hq.mono (by omega)) (searchByte a)
  have hread' : ∀ j < 64, ((l.log (.touchByte (searchByte a)) (.byte (l.answerAt 0).byte)).answerAt (3 * j)).bit =
      A (0 + j) ∧ ((l.log (.touchByte (searchByte a)) (.byte (l.answerAt 0).byte)).answerAt (3 * j + 1)).bit =
      B (0 + j) := by
    intro j hj
    simpa only [Link.answerAt_log, Nat.zero_add, Nat.add_comm _ 1] using hread j hj
  have h2 := passFrom_of_quiet (hi := ld.hi) (ps := ⟨candidatePath ld addr, .none, lfd⟩) (Link.Quiet.log _ _ hq) hread'
    (by simpa using hab) (Nat.le_refl 64)
  rw [searchPass, LinkOp.andThen_ok h1, LinkOp.andThen_ok h2, LinkOp.done_apply, Link.log_eq_advance,
    Link.advance_append]
  rfl

/-- A pass in which (1,1) is never read and the bits of `x` are driven: the hypotheses of R119's statements. -/
structure State.Drives (s : State) (r : Bool) (x : Address) : Prop where
  notLast  : s.ldf = false
  quiet    : s.Quiet (s.resetCalls r + 193)
  presence : r = true → (s.answerAt (s.resetCalls r - 1)).presence = true
  answered : ∀ i < 64, ¬ (s.readA r i = true ∧ s.readB r i = true)
  driven   : ∀ i < 64, abit x i = direction s.ld.hi i s.addr (s.readA r i) (s.readB r i)

/-- The pass of NEXT in this state. -/
def State.pass (s : State) (r : Bool) : Pass := wholePass (s.readA r) (s.readB r) s.addr s.ld s.lfd

namespace State.Drives
variable {s : State} {r : Bool} {x : Address} (h : s.Drives r x)
include h

theorem direction_eq {i : Nat} (hi : i < 64) :
    direction s.ld.hi i (candidatePath s.ld s.addr) (s.readA r i) (s.readB r i) = abit x i := by
  rw [direction_candidatePath, h.driven i hi]

/-- R120: the candidate is the address driven. -/
theorem cand_pass : (s.pass r).cand = x := by
  refine address_ext fun i hi => ?_
  rw [State.pass, wholePass, abit_passEnd (Nat.le_refl 64), if_pos ⟨Nat.zero_le i, by omega⟩, h.direction_eq hi]

/-- R119: what is recorded is a discrepancy resolved to 0. -/
theorem records_iff {i : Nat} (hi : i < 64) :
    Records s.ld.hi (s.readA r) (s.readB r) (candidatePath s.ld s.addr) i ↔
      s.readA r i = s.readB r i ∧ abit x i = false := by
  rw [Records, h.direction_eq hi]

/-- R119, R122: the record in `LD`. -/
theorem ld_pass :
    ((s.pass r).ld = .none ∧ ∀ j < 64, ¬ (s.readA r j = s.readB r j ∧ abit x j = false)) ∨
    ∃ m < 64, (s.pass r).ld = .num (Fin.ofNat 65 (m + 1)) ∧ (s.readA r m = s.readB r m ∧ abit x m = false) ∧
      ∀ j < 64, m < j → ¬ (s.readA r j = s.readB r j ∧ abit x j = false) := by
  rcases passEnd_ld (hi := s.ld.hi) (A := s.readA r) (B := s.readB r) (n := 64) (i := 0)
    (ps := ⟨candidatePath s.ld s.addr, .none, s.lfd⟩) (by omega) with ⟨hno, hld⟩ | ⟨m, _, hm, hrec, hno, hld⟩
  · exact .inl ⟨hld, fun j hj hr => hno j (by omega) (by omega) ((h.records_iff hj).2 hr)⟩
  · have hm' : m < 64 := by omega
    exact .inr ⟨m, hm', hld, (h.records_iff hm').1 hrec,
      fun j hj hmj hr => hno j hmj (by omega) ((h.records_iff hj).2 hr)⟩

/-- R119, R122: the record in `LFD`. -/
theorem lfd_pass :
    ((s.pass r).lfd = s.lfd ∧ ∀ j < 8, ¬ (s.readA r j = s.readB r j ∧ abit x j = false)) ∨
    ∃ m < 8, (s.pass r).lfd = Fin.ofNat 65 (m + 1) ∧ (s.readA r m = s.readB r m ∧ abit x m = false) ∧
      ∀ j < 8, m < j → ¬ (s.readA r j = s.readB r j ∧ abit x j = false) := by
  have hrec8 : ∀ j < 8, s.readA r j = s.readB r j ∧ abit x j = false →
      Records s.ld.hi (s.readA r) (s.readB r) (candidatePath s.ld s.addr) j :=
    fun j hj => (h.records_iff (by omega)).2
  rcases passEnd_lfd (hi := s.ld.hi) (A := s.readA r) (B := s.readB r) (n := 64) (i := 0)
    (ps := ⟨candidatePath s.ld s.addr, .none, s.lfd⟩) (by omega) with ⟨hno, hlfd⟩ | ⟨m, _, _, hm, hrec, hno, hlfd⟩
  · exact .inl ⟨hlfd, fun j hj hr => hno j (by omega) (by omega) hj (hrec8 j hj hr)⟩
  · exact .inr ⟨m, hm, hlfd, (h.records_iff (by omega)).1 hrec,
      fun j hj hmj hr => hno j hmj (by omega) hj (hrec8 j hj hr)⟩

/-- The events of step 4 are those of the bits of `x` (R117, R120). -/
theorem events_eq (a : Bool) :
    ⟨.touchByte (searchByte a), .byte (s.answerAt (s.resetCalls r)).byte⟩ ::
      passEvents s.ld.hi (s.readA r) (s.readB r) (candidatePath s.ld s.addr) 64 0 = s.passEventsOf r a x 64 := by
  rw [State.passEventsOf, passEvents, List.range_eq_range']
  refine congrArg₂ List.cons rfl (List.flatMap_congr fun i hi => ?_)
  rw [h.direction_eq (by simpa using (List.mem_range'_1.1 hi).2)]
  rfl

/-- What NEXT leaves after such a pass: the address of the pass if it is good, the empty search if not. -/
theorem exec_next (a : Bool) :
    exec (.next r a) s =
      .next (s.start.concludeSearch
        (.ok (if candidateGood x then .found (s.pass r) else .corrupted),
         s.start.link.advance (s.resetEvents r ++ s.passEventsOf r a x 64))) := by
  have hq : (s.start.link.advance (s.resetEvents r)).Quiet s.params 193 :=
    Link.Quiet.advance (by rw [State.resetEvents_length]; exact h.quiet)
  have hread : ∀ j < 64,
      ((s.start.link.advance (s.resetEvents r)).answerAt (1 + 3 * j)).bit = s.readA r j ∧
      ((s.start.link.advance (s.resetEvents r)).answerAt (1 + (3 * j + 1))).bit = s.readB r j := by
    intro j _
    simp only [Link.answerAt_advance, State.resetEvents_length, ← Nat.add_assoc]
    exact ⟨rfl, rfl⟩
  rw [exec_next_of_presence a h.notLast (Link.Quiet.mono h.quiet (by omega)) h.presence,
    searchPass_of_quiet hq hread h.answered, ← State.pass, h.cand_pass, Link.answerAt_advance,
    State.resetEvents_length, Nat.add_zero, State.start_answerAt, h.events_eq, Link.advance_append]

end State.Drives

/-- R122: not at the last device before, the search is there after a pass exactly when the pass recorded nothing. -/
theorem ldfAfterPass_iff_of_not_last {ldf : Bool} (hl : ldf = false) (ld : Discrepancy) :
    ldfAfterPass ld ldf = true ↔ ld = .none := by simp [ldfAfterPass, hl]

/-- Settles O32: a good candidate is found (`State.Drives.exec_next`), with the records of the pass. -/
theorem nextYieldsTheAddressOfItsPass : Obligations.NextYieldsTheAddressOfItsPass := by
  intro r a s hi x hl hnum hother hq hp hab hx h0 hcrc
  obtain rfl := Discrepancy.hi_eq hnum hother
  have h : s.Drives r x := ⟨hl, hq, hp, hab, hx⟩
  have hgood : candidateGood x = true := (candidateGood_iff x).2 ⟨h0, hcrc⟩
  refine ⟨_, h.exec_next a, ?_⟩
  rw [if_pos hgood]
  refine ⟨?_, h.ld_pass, h.lfd_pass, ?_⟩
  · rw [← h.cand_pass]
    rfl
  · exact ldfAfterPass_iff_of_not_last hl _

/-! ## Only good addresses are yielded -/

/-- R92, R121: an address that passes step 5 has a family and is valid. -/
theorem valid_of_candidateGood {x : Address} (h : candidateGood x = true) : addrByte x 0 ≠ 0 ∧ addrValid x = true := by
  obtain ⟨h0, hcrc⟩ := (candidateGood_iff x).1 h
  obtain ⟨hvalid, hforms⟩ := addressValidityInItsTwoForms.2.2 x
  exact ⟨h0, hvalid.2 (hforms.2 hcrc)⟩

theorem search_found_good {p : Params} {r a : Bool} {addr : Address} {ld : Discrepancy} {lfd : Fin 65} {l : Link}
    {ps : Pass} (h : (search p r a addr ld lfd l).1 = .ok (.found ps)) : candidateGood ps.cand = true := by
  obtain ⟨presence, _, _, h⟩ := LinkOp.of_andThen_ok h
  cases presence with
  | false => cases h
  | true =>
    rcases searchPass_ok_cases h with he | ⟨ps', he, hg⟩
    · cases he
    · cases he
      exact hg

/-- The body of NEXT answers `RES = 1` only with a good address in `ADDR` (R121). -/
theorem State.nextBody_yields_good {s : State} {r a : Bool} (h : (s.nextBody r a).res = true) :
    candidateGood (s.nextBody r a).addr = true := by
  cases hl : s.ldf with
  | true =>
    rw [State.nextBody_of_last hl] at h
    cases h
  | false =>
    rw [State.nextBody_of_not_last hl] at h ⊢
    rcases State.concludeSearch_cases (search s.params r a s.addr s.ld s.lfd s.link) s with
      ⟨_, e⟩ | ⟨_, e⟩ | ⟨_, hf, e⟩ | ⟨_, _, e⟩ <;> rw [e] at h ⊢
    · cases h
    · cases h
    · exact search_found_good hf
    · cases h

/-- Settles O35: a bad candidate ends the pass as corrupted (`State.Drives.exec_next`), so what is yielded is good
(`State.nextBody_yields_good`). -/
theorem onlyValidAddressesAreYielded : Obligations.OnlyValidAddressesAreYielded := by
  refine ⟨fun r a s hi x hl hnum hother hq hp hab hx hbad => ?_, fun r a s => ⟨?_, ?_⟩⟩
  · obtain rfl := Discrepancy.hi_eq hnum hother
    have h : s.Drives r x := ⟨hl, hq, hp, hab, hx⟩
    have hgood : ¬ candidateGood x = true := fun hg => hbad.elim ((candidateGood_iff x).1 hg).1
      (· ((candidateGood_iff x).1 hg).2)
    rw [h.exec_next a, if_neg hgood]
    rfl
  · exact ⟨_, rfl, fun h => valid_of_candidateGood (State.nextBody_yields_good h)⟩
  · exact ⟨_, rfl, fun h => valid_of_candidateGood (State.nextBody_yields_good h)⟩

end Sys2Proof.Machine

/-! PROOFS about whole enumerations on a bus of well-behaved devices: the order of 41 R125, the address a search finds
and where it stands then, and that FIRST and the NEXTs after it run through the bus in that order (R126). -/

namespace Sys2Proof.Machine

/-! ## The order of enumeration -/

/-- The bits of an address, compared as R125 compares them: the first position where they differ decides. -/
def searchKey (x : Address) : Lex (Fin 64 → Bool) := toLex fun i => abit x i

theorem searchLt_iff_key {x y : Address} : searchLt x y ↔ searchKey x < searchKey y := by
  constructor
  · rintro ⟨i, hi, hag, h0, h1⟩
    refine ⟨⟨i, hi⟩, fun j hj => hag j hj, ?_⟩
    change abit x i < abit y i
    rw [h0, h1]
    exact Bool.false_lt_true
  · rintro ⟨i, hag, hlt⟩
    obtain ⟨h0, h1⟩ := Bool.lt_iff.1 hlt
    exact ⟨i, i.isLt, fun j hj => hag ⟨j, by omega⟩ hj, h0, h1⟩

theorem searchKey_injective : Function.Injective searchKey :=
  fun _ _ h => address_ext fun i hi => congrFun (congrArg ofLex h) ⟨i, hi⟩

theorem searchLt_irrefl (x : Address) : ¬ searchLt x x := fun h => lt_irrefl _ (searchLt_iff_key.1 h)

theorem searchLt_asymm {x y : Address} (h : searchLt x y) : ¬ searchLt y x :=
  fun g => lt_asymm (searchLt_iff_key.1 h) (searchLt_iff_key.1 g)

/-- `ys` are the addresses `xs`, each once, in the order of R125. -/
structure InSearchOrder (xs ys : List Address) : Prop where
  perm   : List.Perm ys xs
  sorted : List.Pairwise searchLt ys

theorem exists_inSearchOrder {xs : List Address} (h : xs.Nodup) : ∃ ys, InSearchOrder xs ys := by
  classical
  let le (x y : Address) : Bool := decide (searchKey x ≤ searchKey y)
  have hp : (xs.mergeSort le).Perm xs := List.mergeSort_perm xs le
  have hle : (xs.mergeSort le).Pairwise fun x y => le x y = true :=
    List.pairwise_mergeSort (fun x y z hxy hyz => by simp only [le, decide_eq_true_eq] at *; exact hxy.trans hyz)
      (fun x y => by simpa [le] using le_total (searchKey x) (searchKey y)) xs
  refine ⟨_, hp, (hle.and (hp.nodup_iff.2 h)).imp fun {x y} hxy => ?_⟩
  exact searchLt_iff_key.2 (lt_of_le_of_ne (of_decide_eq_true hxy.1) (searchKey_injective.ne hxy.2))

namespace InSearchOrder
variable {xs ys : List Address} (h : InSearchOrder xs ys)
include h

theorem exists_index {x : Address} (hx : x ∈ xs) : ∃ i, ∃ hi : i < ys.length, ys[i] = x :=
  List.getElem_of_mem (h.perm.mem_iff.2 hx)

theorem getElem_mem {i : Nat} (hi : i < ys.length) : ys[i] ∈ xs := h.perm.mem_iff.1 (List.getElem_mem hi)

theorem searchLt_getElem_iff {i j : Nat} (hi : i < ys.length) (hj : j < ys.length) :
    searchLt ys[i] ys[j] ↔ i < j := by
  have hlt := List.pairwise_iff_getElem.1 h.sorted
  constructor
  · intro hs
    rcases Nat.lt_trichotomy i j with hij | rfl | hji
    · exact hij
    · exact absurd hs (searchLt_irrefl _)
    · exact absurd hs (searchLt_asymm (hlt j i hj hi hji))
  · exact hlt i j hi hj

theorem eq_head_of_isLeast {x : Address} (hx : IsLeast xs x) (h0 : 0 < ys.length) : x = ys[0] := by
  obtain ⟨i, hi, rfl⟩ := h.exists_index hx.1
  rcases hx.2 ys[0] (h.getElem_mem h0) with e | hlt
  · exact e.symm
  · exact absurd ((h.searchLt_getElem_iff hi h0).1 hlt) (Nat.not_lt_zero i)

theorem eq_succ_of_isSuccessor {k : Nat} (hk : k + 1 < ys.length) {y : Address} (hy : IsSuccessor xs ys[k] y) :
    y = ys[k + 1] := by
  obtain ⟨hmem, hlt, hnext⟩ := hy
  obtain ⟨j, hj, rfl⟩ := h.exists_index hmem
  have hkj : k < j := (h.searchLt_getElem_iff _ hj).1 hlt
  rcases hnext ys[k + 1] (h.getElem_mem hk) ((h.searchLt_getElem_iff _ hk).2 (Nat.lt_succ_self k)) with e | hgt
  · exact e.symm
  · have hjk : j < k + 1 := (h.searchLt_getElem_iff hj hk).1 hgt
    omega

end InSearchOrder

/-! ## The address a pass finds, and where the search stands then -/

/-- Two addresses first differ somewhere. -/
theorem exists_first_difference {x y : Address} (h : x ≠ y) :
    ∃ i < 64, AgreeBelow x y i ∧ abit x i ≠ abit y i := by
  have hex : ∃ i, i < 64 ∧ abit x i ≠ abit y i := by
    by_contra hno
    push Not at hno
    exact h (address_ext hno)
  obtain ⟨hi, hne⟩ := Nat.find_spec hex
  refine ⟨Nat.find hex, hi, fun j hj => ?_, hne⟩
  by_contra hjne
  exact Nat.find_min hex hj ⟨by omega, hjne⟩

/-- A later address is a 1 branch left untried. -/
theorem untriedBranch_of_searchLt {xs : List Address} {x y : Address} (hy : y ∈ xs) (h : searchLt x y) :
    ∃ i < 64, AgreeBelow x y i ∧ UntriedBranch xs x i ∧ abit y i = true := by
  obtain ⟨i, hi, hag, h0, h1⟩ := h
  exact ⟨i, hi, hag, ⟨h0, y, hy, fun j hj => (hag j hj).symm, h1⟩, h1⟩

theorem StandsAt.exists_searchLt {xs : List Address} {x : Address} {n : Nat} (h : StandsAt xs x n) :
    ∃ y ∈ xs, searchLt x y := by
  obtain ⟨_, h1, h64, ⟨h0, y, hy, hag, hy1⟩, _⟩ := h
  exact ⟨y, hy, n - 1, by omega, fun j hj => (hag j hj).symm, h0, hy1⟩

/-- The deepest untried branch parts the addresses after `x`: they agree with `x` below it. -/
theorem StandsAt.first_difference_lt {xs : List Address} {x y : Address} {n : Nat} (h : StandsAt xs x n)
    (hy : y ∈ xs) (hlt : searchLt x y) :
    ∃ i < n, AgreeBelow x y i ∧ abit x i = false ∧ abit y i = true := by
  obtain ⟨_, _, _, _, hdeep⟩ := h
  obtain ⟨i, hi, hag, hu, h1⟩ := untriedBranch_of_searchLt hy hlt
  refine ⟨i, ?_, hag, hu.1, h1⟩
  by_contra hin
  exact hdeep i (by omega) hi hu

/-- Where two addresses part there is a discrepancy, on the path of either (R118). -/
theorem Discrepancy.at_of_difference {xs : List Address} {x y : Address} {i : Nat} (hx : x ∈ xs) (hy : y ∈ xs)
    (hag : AgreeBelow x y i) (hne : abit x i ≠ abit y i) : Discrepancy.at xs x i := by
  cases hx0 : abit x i with
  | false => exact ⟨⟨x, hx, fun _ _ => rfl, hx0⟩, y, hy, hag.symm, by simpa [hx0] using hne⟩
  | true => exact ⟨⟨y, hy, hag.symm, by simpa [hx0] using hne⟩, x, hx, fun _ _ => rfl, hx0⟩

/-- What a pass records is an untried branch (R126). -/
theorem untriedBranch_iff {xs : List Address} {x : Address} (hx : x ∈ xs) (i : Nat) :
    UntriedBranch xs x i ↔ Discrepancy.at xs x i ∧ abit x i = false := by
  constructor
  · rintro ⟨h0, y, hy, hag, h1⟩
    exact ⟨⟨⟨x, hx, fun _ _ => rfl, h0⟩, y, hy, hag, h1⟩, h0⟩
  · rintro ⟨⟨_, y, hy, hag, h1⟩, h0⟩
    exact ⟨h0, y, hy, hag, h1⟩

namespace PassOnBus
variable {xs : List Address} {hi : Nat} {ps ps' : Pass} (h : PassOnBus xs hi 0 ps ps')
include h

/-- R119: the bit taken where the address found parts from another. -/
theorem bit_at_difference {y : Address} (hy : y ∈ xs) {i : Nat} (hi64 : i < 64) (hag : AgreeBelow ps'.cand y i)
    (hne : abit ps'.cand i ≠ abit y i) :
    abit ps'.cand i = if i + 1 < hi then abit ps.cand i else decide (i + 1 = hi) :=
  h.rule i (Nat.zero_le i) hi64 (Discrepancy.at_of_difference h.found hy hag hne)

/-- Among the addresses that agree with the one found below `HI`, the one found is the least. -/
theorem eq_or_searchLt {y : Address} (hy : y ∈ xs) (hag : AgreeBelow ps'.cand y hi) :
    y = ps'.cand ∨ searchLt ps'.cand y := by
  by_cases e : y = ps'.cand
  · exact .inl e
  · obtain ⟨i, hi64, hagi, hne⟩ := exists_first_difference (Ne.symm e)
    have hge : hi ≤ i := by
      by_contra hlt
      exact hne (hag i (by omega))
    have h0 : abit ps'.cand i = false := by
      have hno : ¬ i + 1 < hi := by omega
      have hne' : i + 1 ≠ hi := by omega
      rw [h.bit_at_difference hy hi64 hagi hne, if_neg hno, decide_eq_false hne']
    exact .inr ⟨i, hi64, hagi, h0, by simpa [h0] using hne.symm⟩

/-- Where the search stands after the pass: at its record, or at the last address (R122, R126). -/
theorem stands (hnone : ps.ld = .none) :
    (ps'.ld = .none ∧ ∀ y ∈ xs, ¬ searchLt ps'.cand y) ∨
    ∃ n : Fin 65, ps'.ld = .num n ∧ StandsAt xs ps'.cand n.val := by
  rcases h.last with ⟨hno, hld⟩ | ⟨m, _, hm, hdisc, h0, hno, hld⟩
  · refine .inl ⟨hld.trans hnone, fun y hy hlt => ?_⟩
    obtain ⟨i, hi64, _, hu, _⟩ := untriedBranch_of_searchLt hy hlt
    exact hno i (Nat.zero_le i) hi64 ((untriedBranch_iff h.found i).1 hu)
  · have hval : (Fin.ofNat 65 (m + 1)).val = m + 1 := Nat.mod_eq_of_lt (by omega)
    refine .inr ⟨_, hld, ?_⟩
    rw [hval]
    exact ⟨h.found, by omega, by omega, (untriedBranch_iff h.found m).2 ⟨hdisc, h0⟩,
      fun i hi hi64 hu => hno i (by omega) hi64 ((untriedBranch_iff h.found i).1 hu)⟩

end PassOnBus

/-- A pass with `HI = 0` finds the least address (R125). -/
theorem PassOnBus.isLeast {xs : List Address} {ps ps' : Pass} (h : PassOnBus xs 0 0 ps ps') : IsLeast xs ps'.cand :=
  ⟨h.found, fun _ hy => h.eq_or_searchLt hy nofun⟩

section
variable {xs : List Address} {x : Address} {n lfd : Fin 65} {ps' : Pass} (hx : StandsAt xs x n.val)
  (h : PassOnBus xs n.val 0 ⟨candidatePath (.num n) x, .none, lfd⟩ ps')
include hx h

/-- A pass from a decision point follows the old address down to it (R119). -/
theorem PassOnBus.follows_old_path : AgreeBelow ps'.cand x (n.val - 1) := by
  by_contra hno
  have hne : ps'.cand ≠ x := fun e => hno fun _ _ => by rw [e]
  obtain ⟨i, hi64, hag, hi⟩ := exists_first_difference hne
  have hin : i + 1 < n.val := by
    by_contra hge
    exact hno (hag.mono (by omega))
  rw [h.bit_at_difference hx.1 hi64 hag hi, if_pos hin] at hi
  exact hi (abit_candidatePath_below (ld := .num n) hin x)

/-- It takes the 1 of the untried branch there (R119). -/
theorem PassOnBus.takes_untried_branch : abit ps'.cand (n.val - 1) = true := by
  have hpath := PassOnBus.follows_old_path hx h
  obtain ⟨_, h1, h64, ⟨_, y, hy, hag, hy1⟩, _⟩ := hx
  by_contra h0
  have hdisc : Discrepancy.at xs ps'.cand (n.val - 1) :=
    Discrepancy.at_of_difference h.found hy (hpath.trans (AgreeBelow.symm hag)) (by simpa [hy1] using h0)
  rw [h.rule _ (Nat.zero_le _) (by omega) hdisc, if_neg (by omega)] at h0
  exact h0 (decide_eq_true (by omega))

/-- So it finds the next address (R125, R126): an address after the old one either parts from it above the decision
point, and is after the one found, or stands in the branch taken, where the one found is the least. -/
theorem PassOnBus.isSuccessor : IsSuccessor xs x ps'.cand := by
  have hpath := PassOnBus.follows_old_path hx h
  have htaken := PassOnBus.takes_untried_branch hx h
  have hparts := fun z => hx.first_difference_lt (y := z)
  obtain ⟨_, h1, h64, ⟨hx0, _⟩, _⟩ := hx
  refine ⟨h.found, ⟨n.val - 1, by omega, hpath.symm, hx0, htaken⟩, fun z hz hlt => ?_⟩
  obtain ⟨i, hin, hag, hi0, hi1⟩ := hparts z hz hlt
  by_cases hlast : i = n.val - 1
  · subst hlast
    have hsucc : AgreeBelow ps'.cand z (n.val - 1 + 1) := (hpath.trans hag).succ (htaken.trans hi1.symm)
    exact h.eq_or_searchLt hz (hsucc.mono (by omega))
  · exact .inr ⟨i, by omega, (hpath.mono (by omega)).trans hag, (hpath i (by omega)).trans hi0, hi1⟩

end

/-! ## The commands on a bus -/

/-- Where a search stands among the addresses `xs` (R122, R126): at the last address, or at its decision point. -/
def State.Stands (s : State) (xs : List Address) : Prop :=
  (s.ldf = true ∧ s.ld = .none ∧ ∀ y ∈ xs, ¬ searchLt s.addr y) ∨
  (s.ldf = false ∧ ∃ n, s.ld = .num n ∧ StandsAt xs s.addr n.val)

/-- `LDF` tells whether the search stands at the last address. -/
theorem State.Stands.ldf_iff {s : State} {xs : List Address} (h : s.Stands xs) :
    s.ldf = true ↔ ∀ y ∈ xs, ¬ searchLt s.addr y := by
  rcases h with ⟨hl, _, hno⟩ | ⟨hl, n, _, hs⟩
  · exact ⟨fun _ => hno, fun _ => hl⟩
  · obtain ⟨y, hy, hlt⟩ := hs.exists_searchLt
    exact ⟨fun h => absurd h (by simp [hl]), fun hno => absurd hlt (hno y hy)⟩

/-- NEXT with a reset, not after the last device: the pass it makes on the bus, and what it leaves. -/
theorem next_on_bus_stands {s t : State} {bus : Bus} (hne : bus ≠ []) (hv : bus.valid) (hl : s.ldf = false)
    (he : exec (.next true false) s = .next t) (hb : bus.answers t.link.trace = true) :
    t.res = true ∧ t.status = .ok ∧ t.Stands bus.addresses ∧
      ∃ ps, t.addr = ps.cand ∧ PassOnBus bus.addresses s.ld.hi 0 ⟨candidatePath s.ld s.addr, .none, s.lfd⟩ ps := by
  obtain ⟨ps, ht, hps⟩ := next_on_bus hne hv hl he hb
  rw [ht]
  refine ⟨rfl, rfl, ?_, ps, rfl, hps⟩
  rcases hps.stands rfl with ⟨hld, hlast⟩ | ⟨n, hld, hs⟩
  · exact .inl ⟨decide_eq_true hld, hld, hlast⟩
  · exact .inr ⟨decide_eq_false (by rw [hld]; nofun), n, hld, hs⟩

/-- FIRST finds the least address and stands at it (R125, R126). -/
theorem first_on_bus {s t : State} {bus : Bus} (hne : bus ≠ []) (hv : bus.valid)
    (he : exec (.first true false) s = .next t) (hb : bus.answers t.link.trace = true) :
    t.res = true ∧ t.status = .ok ∧ IsLeast bus.addresses t.addr ∧ t.Stands bus.addresses := by
  rw [firstIsNextAfterClearing] at he
  obtain ⟨hres, hst, hstands, ps, haddr, hps⟩ := next_on_bus_stands hne hv rfl he hb
  exact ⟨hres, hst, haddr ▸ hps.isLeast, hstands⟩

/-- NEXT from where the search stands finds the next address and stands at it (R125, R126). -/
theorem next_on_bus_from {s t : State} {bus : Bus} {n : Fin 65} (hv : bus.valid) (hl : s.ldf = false)
    (hn : s.ld = .num n) (hs : StandsAt bus.addresses s.addr n.val) (he : exec (.next true false) s = .next t)
    (hb : bus.answers t.link.trace = true) :
    t.res = true ∧ t.status = .ok ∧ IsSuccessor bus.addresses s.addr t.addr ∧ t.Stands bus.addresses := by
  have hne : bus ≠ [] := by
    rintro rfl
    exact List.not_mem_nil hs.1
  obtain ⟨hres, hst, hstands, ps, haddr, hps⟩ := next_on_bus_stands hne hv hl he hb
  rw [hn] at hps
  exact ⟨hres, hst, haddr ▸ PassOnBus.isSuccessor hs hps, hstands⟩

/-! ## The whole enumeration -/

/-- A search that stands at the address with index `k` is at its last device exactly when that is the last index. -/
theorem InSearchOrder.ldf_iff {xs ys : List Address} (h : InSearchOrder xs ys) {s : State} {k : Nat}
    (hk : k < ys.length) (ha : s.addr = ys[k]) (hs : s.Stands xs) : s.ldf = true ↔ k + 1 = ys.length := by
  rw [hs.ldf_iff, ha]
  constructor
  · intro hno
    by_contra hlast
    have hk1 : k + 1 < ys.length := by omega
    exact hno _ (h.getElem_mem hk1) ((h.searchLt_getElem_iff hk hk1).2 (Nat.lt_succ_self k))
  · intro hlast y hy hlt
    obtain ⟨j, hj, rfl⟩ := h.exists_index hy
    have hkj : k < j := (h.searchLt_getElem_iff hk hj).1 hlt
    omega

/-- R126, command by command: the (k+1)-th command yields the address with index `k` and stands at it. -/
theorem enumeration_at {bus : Bus} {run : Nat → State} {ys : List Address} (hne : bus ≠ []) (hv : bus.valid)
    (hys : InSearchOrder bus.addresses ys) (hfirst : exec (.first true false) (run 0) = .next (run 1))
    (hnext : ∀ k, 1 ≤ k → k < ys.length → exec (.next true false) (run k) = .next (run (k + 1)))
    (hbus : ∀ k, 1 ≤ k → k ≤ ys.length → bus.answers (run k).link.trace = true) (k : Nat) (hk : k < ys.length) :
    (run (k + 1)).res = true ∧ (run (k + 1)).addr = ys[k] ∧ (run (k + 1)).Stands bus.addresses := by
  induction k with
  | zero =>
    obtain ⟨hres, _, hleast, hstands⟩ := first_on_bus hne hv hfirst (hbus 1 (Nat.le_refl 1) hk)
    exact ⟨hres, hys.eq_head_of_isLeast hleast hk, hstands⟩
  | succ k ih =>
    obtain ⟨_, haddr, hstands⟩ := ih (by omega)
    have hl : (run (k + 1)).ldf ≠ true := fun hl => by
      have := (hys.ldf_iff _ haddr hstands).1 hl
      omega
    rcases hstands with ⟨hl', _, _⟩ | ⟨hl', n, hn, hs⟩
    · exact absurd hl' hl
    · obtain ⟨hres, _, hsucc, hstands⟩ := next_on_bus_from hv hl' hn hs (hnext (k + 1) (by omega) hk)
        (hbus (k + 2) (by omega) hk)
      rw [haddr] at hsucc
      exact ⟨hres, hys.eq_succ_of_isSuccessor hk hsucc, hstands⟩

/-- Settles O42: the addresses yielded are those of the bus in the order of R125, index by index (`enumeration_at`), and
the NEXT after the last finds `LDF` set (`exec_next_of_last`). -/
theorem enumerationYieldsEachDeviceOnce : Obligations.EnumerationYieldsEachDeviceOnce := by
  intro bus run hne hv hnodup hfirst hnext hbus
  obtain ⟨ys, hys⟩ := exists_inSearchOrder hnodup
  have hlen : bus.length = ys.length := by rw [hys.perm.length_eq, Bus.addresses, List.length_map]
  have hpos : 0 < ys.length := hlen ▸ List.length_pos_iff.2 hne
  rw [hlen] at hnext hbus ⊢
  have hat := enumeration_at hne hv hys hfirst (fun k h1 hk => hnext k h1 (Nat.le_of_lt hk))
    (fun k h1 hk => hbus k h1 (by omega))
  have hall : (List.range ys.length).map (fun k => (run (k + 1)).addr) = ys :=
    List.ext_getElem (by simp) fun k _ hk => by simpa using (hat k hk).2.1
  have hldf : ∀ k (hk : k < ys.length), (run (k + 1)).ldf = true ↔ k + 1 = ys.length := fun k hk =>
    hys.ldf_iff hk (hat k hk).2.1 (hat k hk).2.2
  have hend : run (ys.length + 1) = (run ys.length).start.ssEmpty.fail .endOfSearch := by
    have hlast : (run ys.length).ldf = true := by
      have := hldf (ys.length - 1) (by omega)
      rw [Nat.sub_add_cancel hpos] at this
      exact this.2 rfl
    exact Host.Outcome.next.inj ((hnext ys.length hpos (Nat.le_refl _)).symm.trans (exec_next_of_last hlast true false))
  rw [hall, hend]
  refine ⟨fun k h1 hk => ?_, hys.perm, hys.sorted, rfl, rfl⟩
  obtain ⟨k, rfl⟩ := Nat.exists_eq_add_of_le' h1
  exact ⟨(hat k hk).1, hldf k hk⟩

end Sys2Proof.Machine

/-! PROOFS about the selector: ADDRWR (spec 42 R140), ACCESS (R141), VERIFY (R144), ODACCESS (R146), EXCHANGE (R148, 20
R46), and that none of them touches the search or the CRC registers but ADDRWR its byte (R150). -/

namespace Sys2Proof.Machine

/-! ## Sequences of link calls on a quiet link -/

/-- On a link that answers no fault for as long, the sequence comes to the value `x` and makes the calls `es`. -/
def LinkOp.Yields {α : Type} (p : Params) (l : Link) (m : LinkOp α) (x : α) (es : List LinkEvent) : Prop :=
  l.Quiet p es.length → m l = (.ok x, l.advance es)

section
variable {α β : Type} {p : Params} {l : Link} {m : LinkOp α} {f : α → LinkOp β} {x : α} {y : β}
  {es fs : List LinkEvent}

theorem LinkOp.yields_done (p : Params) (l : Link) (x : α) : LinkOp.Yields p l (LinkOp.done x) x [] := fun _ => by simp

theorem LinkOp.Yields.andThen (hm : LinkOp.Yields p l m x es) (hf : LinkOp.Yields p (l.advance es) (f x) y fs) :
    LinkOp.Yields p l (m.andThen f) y (es ++ fs) := by
  intro hq
  rw [List.length_append] at hq
  rw [LinkOp.andThen_ok (hm (hq.mono (Nat.le_add_right ..))), hf (Link.Quiet.advance hq), Link.advance_append]

theorem LinkOp.Yields.cons {e : LinkEvent} (hm : LinkOp.Yields p l m x [e])
    (hf : LinkOp.Yields p (l.advance [e]) (f x) y fs) : LinkOp.Yields p l (m.andThen f) y (e :: fs) :=
  hm.andThen hf

theorem LinkOp.Yields.map (hm : LinkOp.Yields p l m x es) (g : α → β) :
    LinkOp.Yields p l (m.andThen fun x => LinkOp.done (g x)) (g x) es := fun hq => by
  rw [LinkOp.andThen_ok (hm hq), LinkOp.done_apply]

end

section
variable {p : Params} {l : Link}

theorem linkReset_yields {b : Bool} (h : (l.answerAt 0).presence = b) :
    LinkOp.Yields p l (linkReset p) b [⟨.reset, .presence b⟩] := fun hq => by
  rw [linkReset_of_quiet hq, h, Link.log_eq_advance]

theorem touchByte_yields {v b : Byte} (h : (l.answerAt 0).byte = b) :
    LinkOp.Yields p l (touchByte p v) b [⟨.touchByte v, .byte b⟩] := fun hq => by
  rw [touchByte_of_quiet hq, h, Link.log_eq_advance]

theorem setSpeed_yields {v r : Speed} (h : (l.answerAt 0).speed = r) :
    LinkOp.Yields p l (setSpeed p v) r [⟨.setSpeed v, .speed r⟩] := fun hq => by
  rw [setSpeed_of_quiet hq, h, Link.log_eq_advance]

theorem sentEvents_map_range (E : Nat → Byte) : ∀ (n : Nat) (sent : Nat → Byte) (j : Nat),
    sentEvents E ((List.range n).map sent) j =
      (List.range n).map fun k => ⟨.touchByte (sent k), .byte (E (j + k))⟩
  | 0, _, _ => rfl
  | n + 1, sent, j => by
    have ih := sentEvents_map_range E n (sent ∘ Nat.succ) (j + 1)
    rw [List.range_succ_eq_map, List.map_cons, List.map_map, sentEvents, ih, List.map_cons, List.map_map]
    simp [Nat.add_comm, Nat.add_left_comm]

/-- Whether each of `n` bytes came back as it was sent (R141, R146). -/
def echoed (n : Nat) (sent E : Nat → Byte) : Bool := decide (∀ k < n, E k = sent k)

theorem echoStatus_echoed_of_match {n : Nat} {sent E : Nat → Byte} (h : ∀ k < n, E k = sent k) :
    echoStatus (echoed n sent E) = .ok := by simpa [echoStatus, echoed] using h

theorem echoStatus_echoed_of_mismatch {n : Nat} {sent E : Nat → Byte} (h : ∃ k < n, E k ≠ sent k) :
    echoStatus (echoed n sent E) = .echoMismatch := by simpa [echoStatus, echoed] using h

/-- A transfer sends all its bytes, and then every echo is compared (R141, R146). -/
theorem sendBytes_yields {n : Nat} {sent E : Nat → Byte} (hE : ∀ k < n, (l.answerAt k).byte = E k) :
    LinkOp.Yields p l (sendBytes p ((List.range n).map sent)) (echoed n sent E)
      ((List.range n).map fun k => ⟨.touchByte (sent k), .byte (E k)⟩) := by
  intro hq
  have hecho : echoesMatch E ((List.range n).map sent) 0 = echoed n sent E := by
    rw [Bool.eq_iff_iff, echoesMatch_iff, echoed, decide_eq_true_iff]
    simp
  rw [sendBytes_of_quiet (E := E) (j := 0) (by simpa using hq) (by simpa using hE), hecho, sentEvents_map_range]
  simp only [Nat.zero_add]

theorem addrBytes_eq_map (x : Address) : addrBytes x = (List.range 8).map (addrByte x) := rfl

end

/-! ## ADDRWR -/

/-- Settles O44: the meaning of ADDRWR, and `ADDR` byte by byte (`addrByte_setAddrByte`). -/
theorem addrWrWritesOneByte : Obligations.AddrWrWritesOneByte :=
  fun idx b s => ⟨_, rfl, fun k => addrByte_setAddrByte s.addr idx k b, rfl⟩

/-! ## ACCESS -/

theorem exec_access_of_yields {s : State} {st : Status} {es : List LinkEvent}
    (h : LinkOp.Yields s.params s.start.link (accessOps s.params s.addr) st es) (hq : s.Quiet es.length) :
    exec .access s = .next { s with status := st, res := resOf st, link := s.link.command es } :=
  congrArg (fun o => Host.Outcome.next (s.start.conclude o)) (h hq)

theorem accessOps_yields_noPresence {p : Params} {l : Link} (h : (l.answerAt 0).presence = false) (addr : Address) :
    LinkOp.Yields p l (accessOps p addr) .noPresence [⟨.reset, .presence false⟩] :=
  (linkReset_yields h).cons (LinkOp.yields_done p _ _)

theorem accessOps_yields_of_presence {p : Params} {l : Link} {addr : Address} {sent : Nat → Byte}
    (h : (l.answerAt 0).presence = true) (h0 : sent 0 = 0x55) (hsent : ∀ k < 8, sent (k + 1) = addrByte addr k) :
    LinkOp.Yields p l (accessOps p addr) (echoStatus (echoed 9 sent fun k => (l.answerAt (k + 1)).byte))
      (⟨.reset, .presence true⟩ ::
        (List.range 9).map fun k => ⟨.touchByte (sent k), .byte (l.answerAt (k + 1)).byte⟩) := by
  have hbytes : matchByte :: addrBytes addr = (List.range 9).map sent := by
    rw [List.range_succ_eq_map, List.map_cons, List.map_map, h0, addrBytes_eq_map]
    exact congrArg _ (List.map_congr_left fun k hk => (hsent k (List.mem_range.1 hk)).symm)
  refine (linkReset_yields h).cons ?_
  rw [if_pos rfl, hbytes]
  exact (sendBytes_yields fun k _ => by rw [Link.answerAt_advance, Nat.add_comm]; rfl).map echoStatus

/-- Settles O45: the two ways ACCESS goes, by the answer to its reset (`accessOps_yields_noPresence`,
`accessOps_yields_of_presence`). -/
theorem accessSendsNineBytesAndChecksEchoes : Obligations.AccessSendsNineBytesAndChecksEchoes := by
  intro s
  refine ⟨fun hq hp => exec_access_of_yields (accessOps_yields_noPresence (l := s.start.link) hp s.addr) hq, ?_⟩
  intro sent h0 hsent hq hp
  refine ⟨_, exec_access_of_yields (accessOps_yields_of_presence (l := s.start.link) hp h0 hsent) (by simpa using hq),
    rfl, ?_, ?_⟩
  · intro hmatch
    have := echoStatus_echoed_of_match hmatch
    exact ⟨this, congrArg resOf this⟩
  · intro hmismatch
    have := echoStatus_echoed_of_mismatch hmismatch
    exact ⟨this, congrArg resOf this⟩

/-! ## VERIFY -/

theorem exec_verify_of_yields {a : Bool} {s : State} {o : Option Nat} {es : List LinkEvent}
    (h : LinkOp.Yields s.params s.start.link (verifyOps s.params a s.addr) o es) (hq : s.Quiet es.length) :
    exec (.verify a) s = .next (s.start.concludeVerify (.ok o, s.start.link.advance es)) :=
  congrArg (fun o => Host.Outcome.next (s.start.concludeVerify o)) (h hq)

theorem verifyOps_yields_noPresence {p : Params} {l : Link} (hr : p.verifyDoesReset = true)
    (h : (l.answerAt 0).presence = false) (a : Bool) (addr : Address) :
    LinkOp.Yields p l (verifyOps p a addr) none [⟨.reset, .presence false⟩] := by
  rw [verifyOps, if_pos hr]
  exact (linkReset_yields h).cons (LinkOp.yields_done p _ _)

/-- The reset of VERIFY, made only with VERIFY_DOES_RESET = 1 (R144). -/
theorem optionalReset_yields {p : Params} {l : Link} {r : Bool} {n : Nat} (hn : n = if r then 1 else 0)
    (h : r = true → (l.answerAt 0).presence = true) :
    LinkOp.Yields p l (if r then linkReset p else LinkOp.done true) true
      ((List.range n).map fun _ => ⟨.reset, .presence true⟩) := by
  subst hn
  cases r with
  | false => exact LinkOp.yields_done p l true
  | true => exact linkReset_yields (h rfl)

theorem verifyFrom_yields {p : Params} {l : Link} {addr : Address} {A B : Nat → Bool} {n : Nat}
    (hread : ∀ j < n, (l.answerAt (3 * j)).bit = A j ∧ (l.answerAt (3 * j + 1)).bit = B j) :
    LinkOp.Yields p l (verifyFrom p addr n 0 0) (matchCount addr A B n 0) (verifyEvents addr A B n 0) := by
  intro hq
  have hlen : (verifyEvents addr A B n 0).length = 3 * n := by
    simp [verifyEvents, Nat.mul_comm]
  rw [hlen] at hq
  rw [verifyFrom_of_quiet hq (by simpa using hread), Nat.zero_add]

/-- VERIFY after its reset, if it makes one: the command byte and all 64 positions (R144). -/
theorem verifyOps_yields_of_presence {p : Params} {l : Link} {n : Nat} (hn : n = if p.verifyDoesReset then 1 else 0)
    (hp : p.verifyDoesReset = true → (l.answerAt 0).presence = true) (a : Bool) (addr : Address) {A B : Nat → Bool}
    (hA : ∀ i < 64, (l.answerAt (n + 1 + 3 * i)).bit = A i)
    (hB : ∀ i < 64, (l.answerAt (n + 1 + (3 * i + 1))).bit = B i) :
    LinkOp.Yields p l (verifyOps p a addr) (some (matchCount addr A B 64 0))
      ((List.range n).map (fun _ => ⟨.reset, .presence true⟩) ++
        ⟨.touchByte (searchByte a), .byte (l.answerAt n).byte⟩ :: verifyEvents addr A B 64 0) := by
  refine (optionalReset_yields hn hp).andThen ?_
  rw [if_pos rfl]
  have hanswer : ∀ (e : LinkEvent) j, ((l.advance ((List.range n).map fun _ => ⟨.reset, .presence true⟩)).advance
      [e]).answerAt j = l.answerAt (n + 1 + j) := by simp [Nat.add_assoc]
  refine (touchByte_yields (by simp)).cons ((verifyFrom_yields fun i hi => ?_).map some)
  rw [hanswer, hanswer]
  exact ⟨hA i hi, hB i hi⟩

theorem matchCount_eq (addr : Address) (A B : Nat → Bool) (n : Nat) :
    matchCount addr A B n 0 =
      (List.range n).countP fun i => A i == abit addr i && B i == !abit addr i := by
  rw [matchCount, List.range_eq_range']
  exact List.countP_congr fun i _ => by simp

/-- Settles O46: VERIFY stops at an empty bus (`verifyOps_yields_noPresence`), else runs its 64 positions
(`verifyOps_yields_of_presence`), and its verdict is over the positions that match (`matchCount_eq`). -/
theorem verifyCountsMatchingPairs : Obligations.VerifyCountsMatchingPairs := by
  intro a s n hn
  refine ⟨fun hr hq hp => exec_verify_of_yields (verifyOps_yields_noPresence (l := s.start.link) hr hp a s.addr) hq,
    fun hq hp => ?_⟩
  have h := verifyOps_yields_of_presence (l := s.start.link) hn hp a s.addr (fun _ _ => rfl) (fun _ _ => rfl)
  rw [matchCount_eq, verifyEvents, ← List.range_eq_range'] at h
  exact exec_verify_of_yields h (by simpa using hq)

/-! ## ODACCESS -/

theorem odAccessOps_yields_noPresence {p : Params} {l : Link} (h : (l.answerAt 1).presence = false) (addr : Address) :
    LinkOp.Yields p l (odAccessOps p addr) .noPresence
      [⟨.setSpeed .normal, .speed (l.answerAt 0).speed⟩, ⟨.reset, .presence false⟩] :=
  (setSpeed_yields rfl).cons <| (linkReset_yields (by simpa using h)).cons <| LinkOp.yields_done p _ _

theorem odAccessOps_yields_of_command_mismatch {p : Params} {l : Link} (h : (l.answerAt 1).presence = true)
    (hecho : (l.answerAt 2).byte ≠ overdriveMatchByte) (addr : Address) :
    LinkOp.Yields p l (odAccessOps p addr) .echoMismatch
      [⟨.setSpeed .normal, .speed (l.answerAt 0).speed⟩, ⟨.reset, .presence true⟩,
       ⟨.touchByte overdriveMatchByte, .byte (l.answerAt 2).byte⟩] := by
  refine (setSpeed_yields rfl).cons ((linkReset_yields (by simpa using h)).cons ?_)
  rw [if_pos rfl]
  refine (touchByte_yields (by simp)).cons ?_
  rw [if_neg hecho]
  exact LinkOp.yields_done p _ _

theorem odAccessOps_yields_of_command_echo {p : Params} {l : Link} (h : (l.answerAt 1).presence = true)
    (hecho : (l.answerAt 2).byte = overdriveMatchByte) (addr : Address) {E : Nat → Byte}
    (hE : ∀ k < 8, (l.answerAt (4 + k)).byte = E k) :
    LinkOp.Yields p l (odAccessOps p addr) (echoStatus (echoed 8 (addrByte addr) E))
      ([⟨.setSpeed .normal, .speed (l.answerAt 0).speed⟩, ⟨.reset, .presence true⟩,
        ⟨.touchByte overdriveMatchByte, .byte overdriveMatchByte⟩,
        ⟨.setSpeed .overdrive, .speed (l.answerAt 3).speed⟩] ++
        (List.range 8).map fun k => ⟨.touchByte (addrByte addr k), .byte (E k)⟩) := by
  refine (setSpeed_yields rfl).cons ((linkReset_yields (by simpa using h)).cons ?_)
  rw [if_pos rfl]
  refine (touchByte_yields (by simpa using hecho)).cons ?_
  rw [if_pos rfl, addrBytes_eq_map]
  exact (setSpeed_yields (by simp)).cons <|
    (sendBytes_yields fun k hk => by simp [← hE k hk, ← Nat.add_assoc]).map echoStatus

theorem closeSpeed_ok (p : Params) (l : Link) : closeSpeed p (.ok .ok, l) = (.ok .ok, l) := rfl

theorem closeSpeed_of_failure {st : Status} (h : st ≠ .ok) (p : Params) (l : Link) :
    closeSpeed p (.ok st, l) = (.ok st, (setSpeed p .normal l).2) := by
  cases st with
  | ok => exact absurd rfl h
  | _ => rfl

/-- ODACCESS with its closing call. -/
def closedOdAccess (p : Params) (addr : Address) : LinkOp Status := fun l => closeSpeed p (odAccessOps p addr l)

/-- R146: after a failure `setSpeed(Normal)` is the last call, and its answer decides nothing. -/
theorem closedOdAccess_yields_of_failure {p : Params} {l : Link} {addr : Address} {st : Status} {es : List LinkEvent}
    (h : LinkOp.Yields p l (odAccessOps p addr) st es) (hst : st ≠ .ok) :
    LinkOp.Yields p l (closedOdAccess p addr) st
      (es ++ [⟨.setSpeed .normal, .speed (l.answerAt es.length).speed⟩]) := by
  intro hq
  rw [List.length_append] at hq
  have hanswer : ((l.advance es).answerAt 0).speed = (l.answerAt es.length).speed := by simp
  have hclose := setSpeed_yields (v := .normal) hanswer (Link.Quiet.advance hq)
  rw [closedOdAccess, h (hq.mono (Nat.le_add_right ..)), closeSpeed_of_failure hst, hclose, Link.advance_append]

theorem closedOdAccess_yields_ok {p : Params} {l : Link} {addr : Address} {es : List LinkEvent}
    (h : LinkOp.Yields p l (odAccessOps p addr) .ok es) :
    LinkOp.Yields p l (closedOdAccess p addr) .ok es := fun hq => by
  rw [closedOdAccess, h hq, closeSpeed_ok]

theorem exec_odAccess_of_yields {s : State} {st : Status} {es : List LinkEvent}
    (h : LinkOp.Yields s.params s.start.link (closedOdAccess s.params s.addr) st es) (hq : s.Quiet es.length) :
    exec .odAccess s = .next { s with status := st, res := resOf st, link := s.link.command es } :=
  congrArg (fun o => Host.Outcome.next (s.start.conclude o)) (h hq)

/-- Settles O47: the handshake ends at an empty bus, at the echo of the command byte, or after the eight address bytes,
and each failure is closed (`closedOdAccess_yields_of_failure`). -/
theorem odAccessIsTheOverdriveHandshake : Obligations.OdAccessIsTheOverdriveHandshake := by
  intro s
  refine ⟨fun hq hp => ?noPresence, fun hq hp hecho => ?commandMismatch, fun hq hp hecho hmatch => ?ok,
    fun hq hp hecho hmismatch => ?addressMismatch⟩
  case noPresence =>
    have h := odAccessOps_yields_noPresence (p := s.params) (l := s.start.link) hp s.addr
    exact exec_odAccess_of_yields (closedOdAccess_yields_of_failure h nofun) hq
  case commandMismatch =>
    have h := odAccessOps_yields_of_command_mismatch (p := s.params) (l := s.start.link) hp hecho s.addr
    exact exec_odAccess_of_yields (closedOdAccess_yields_of_failure h nofun) hq
  case ok =>
    have h := odAccessOps_yields_of_command_echo (p := s.params) (l := s.start.link) hp hecho s.addr hmatch
    rw [echoStatus_echoed_of_match fun _ _ => rfl] at h
    exact exec_odAccess_of_yields (closedOdAccess_yields_ok h) (by simpa using hq)
  case addressMismatch =>
    have h := odAccessOps_yields_of_command_echo (p := s.params) (l := s.start.link) hp hecho s.addr
      (E := fun k => (s.answerAt (4 + k)).byte) fun _ _ => rfl
    rw [echoStatus_echoed_of_mismatch hmismatch] at h
    exact exec_odAccess_of_yields (closedOdAccess_yields_of_failure h nofun) (by simpa using hq)

/-! ## EXCHANGE -/

theorem Link.Quiet.replyOf_touchByte {p : Params} {l : Link} {n j : Nat} (h : l.Quiet p n) (hj : j < n) (v : Byte) :
    replyOf p (.touchByte v) (l.answerAt j) = .byte (l.answerAt j).byte := by
  have hf : Sys2Proof.Machine.faultOf p (.touchByte v) (l.answerAt j) = none := by
    rcases h with h | h
    · exact faultOf_of_channel_off h _ _
    · exact faultOf_of_no_fault p _ (h j hj)
  rw [replyOf, hf]

/-- The loop of EXCHANGE: `len` bytes of `BUF` from 0 up are sent, and each slot holds the byte observed (R148). -/
theorem State.exchangeBody_of_quiet {len : Nat} {s : State} {l : Link} {E : Nat → Byte} (hq : l.Quiet s.params len)
    (hE : ∀ k < len, (l.answerAt k).byte = E k) :
    ∃ m, (s.setLink l).exchangeBody len =
        { s with buf := m, status := .ok, res := true,
                 link := l.advance ((List.range len).map fun k => ⟨.touchByte (s.bufByte k), .byte (E k)⟩) } ∧
      ∀ k, m.read s.resets k = if k < len then E k else s.bufByte k := by
  obtain ⟨es, h⟩ := exchangeFrom_made s.params s.resets len 0 s.buf l
  have hok := exchangeFrom_of_quiet (p := s.params) (resets := s.resets) (k := 0) (m := s.buf) hq
  obtain ⟨hlen, _, hread⟩ := h.value hok
  have hes : es = (List.range len).map fun k => ⟨.touchByte (s.bufByte k), .byte (E k)⟩ := by
    refine List.ext_getElem (by simpa using hlen) fun j hj _ => ?_
    have hj' : j < len := hlen ▸ hj
    rw [List.getElem_map, List.getElem_range, ← hE j hj']
    calc es[j] = ⟨es[j].call, es[j].reply⟩ := rfl
      _ = ⟨.touchByte (s.bufByte j), .byte (l.answerAt j).byte⟩ := by
        rw [h.replies j hj, h.calls j hj, Nat.zero_add, hq.replyOf_touchByte hj']
        rfl
  refine ⟨(exchangeFrom s.params s.resets len 0 s.buf l).1, ?_, fun k => ?_⟩
  · rcases State.concludeExchange_cases (exchangeFrom s.params s.resets len 0 s.buf l) (s.setLink l) with
      ⟨_, e⟩ | ⟨k, hk, _⟩
    · rw [h.link, hes] at e
      exact e
    · cases hok.symm.trans hk
  · rw [hread k]
    by_cases hk : k < len
    · rw [if_pos ⟨Nat.zero_le k, by omega⟩, if_pos hk, Nat.sub_zero, hE k hk]
    · rw [if_neg (by omega), if_neg hk]
      rfl

theorem exec_exchange_without_reset {s : State} {len : Nat} (hlen : len ≤ s.params.maxBlockLen) :
    exec (.exchange false len) s = .next (s.start.exchangeBody len) :=
  congrArg Host.Outcome.next (if_neg (Nat.not_lt.2 hlen))

theorem exec_exchange_of_reset {s : State} {len : Nat} {b : Bool} {l : Link} (hlen : len ≤ s.params.maxBlockLen)
    (h : linkReset s.params s.start.link = (.ok b, l)) :
    exec (.exchange true len) s =
      .next (if b then (s.start.setLink l).exchangeBody len else (s.start.setLink l).fail .noPresence) := by
  rw [exec, execExchange, if_neg (Nat.not_lt.2 hlen), if_pos rfl, h]
  cases b <;> rfl

/-- EXCHANGE on a bus with presence, or without a reset: its loop follows (R148). -/
theorem exec_exchange_of_presence {s : State} {r : Bool} {n len : Nat} (hn : n = if r then 1 else 0)
    (hlen : len ≤ s.params.maxBlockLen) (hq : s.Quiet n) (hp : r = true → (s.answerAt 0).presence = true) :
    exec (.exchange r len) s =
      .next ((s.start.setLink (s.start.link.advance
        ((List.range n).map fun _ => ⟨.reset, .presence true⟩))).exchangeBody len) := by
  subst hn
  cases r with
  | false => exact exec_exchange_without_reset hlen
  | true => exact exec_exchange_of_reset hlen (linkReset_yields (l := s.start.link) (hp rfl) hq)

/-- Settles O48: the length test (`exec_exchange_of_long`), the reset (`exec_exchange_of_reset`,
`exec_exchange_of_presence`), and the loop, slot by slot (`State.exchangeBody_of_quiet`). -/
theorem exchangeMovesTheBuffer : Obligations.ExchangeMovesTheBuffer := by
  intro r len s n hn
  refine ⟨fun hlong => exec_exchange_of_long hlong r, ?noPresence, fun hlen hq hp => ?loop⟩
  case noPresence =>
    rintro hlen rfl hq hp
    exact exec_exchange_of_reset hlen (linkReset_yields (l := s.start.link) hp hq)
  case loop =>
    obtain ⟨m, hbody, hread⟩ := State.exchangeBody_of_quiet (s := s.start) (E := fun k => (s.answerAt (n + k)).byte)
      (l := s.start.link.advance ((List.range n).map fun _ => ⟨.reset, .presence true⟩))
      (Link.Quiet.advance (by rw [List.length_map, List.length_range]; exact hq))
      (fun k _ => by rw [Link.answerAt_advance, List.length_map, List.length_range]; rfl)
    rw [Link.advance_append] at hbody
    exact ⟨_, (exec_exchange_of_presence hn hlen (hq.mono (Nat.le_add_right n len)) hp).trans
      (congrArg Host.Outcome.next hbody), hread, rfl⟩

/-! ## The registers of the others -/

/-- Settles O49: ACCESS, VERIFY, ODACCESS and EXCHANGE end by operations that write neither (`State.conclude_eq`,
`State.concludeVerify_frame`, `execExchange_frame`), and ADDRWR one byte of `ADDR` (`addrByte_setAddrByte`). -/
theorem selectorLeavesTheSearchAlone : Obligations.SelectorLeavesTheSearchAlone := by
  refine fun s => ⟨?transfers, fun idx b => ⟨_, rfl, fun k hk => ?addr, rfl, rfl, rfl, rfl, rfl, rfl⟩⟩
  case addr => exact (addrByte_setAddrByte s.addr idx k b).trans (if_neg hk)
  case transfers =>
    rintro i (rfl | ⟨a, rfl⟩ | rfl | ⟨r, len, rfl⟩)
    · exact ⟨_, congrArg Host.Outcome.next (State.conclude_eq _ _), rfl, rfl, rfl, rfl, rfl, rfl⟩
    · obtain ⟨_, _, e, _⟩ := State.concludeVerify_frame (verifyOps s.params a s.addr s.start.link) s.start
      exact ⟨_, congrArg Host.Outcome.next e, rfl, rfl, rfl, rfl, rfl, rfl⟩
    · exact ⟨_, congrArg Host.Outcome.next (State.conclude_eq _ _), rfl, rfl, rfl, rfl, rfl, rfl⟩
    · obtain ⟨_, _, _, _, e⟩ := execExchange_frame r len s
      exact ⟨_, e, rfl, rfl, rfl, rfl, rfl, rfl⟩

end Sys2Proof.Machine

/-! PROOFS about link faults: which answers are faults (spec 60 R182), and that without the fault channel no sequence
of link calls is stopped by one. -/

namespace Sys2Proof.Machine

/-! ## The fault of one answer -/

theorem faultOf_eq_adapterFault_iff {p : Params} {c : LinkCall} {a : Answer} :
    faultOf p c a = some .adapterFault ↔ p.linkFaultChannel = true ∧ a.fault = some .adapterFault := by
  rcases h : a.fault with _ | _ | _ <;> simp [faultOf, h]

theorem faultOf_eq_shortCircuit_iff {p : Params} {c : LinkCall} {a : Answer} :
    faultOf p c a = some .shortCircuit ↔
      p.linkFaultChannel = true ∧ a.fault = some .shortCircuit ∧ c = .reset := by
  rcases h : a.fault with _ | _ | _ <;> simp [faultOf, h]

theorem replyOf_eq_fault_iff {p : Params} {c : LinkCall} {a : Answer} {k : LinkFault} :
    replyOf p c a = .fault k ↔ faultOf p c a = some k := by
  cases h : faultOf p c a with
  | some _ => simp [replyOf, h]
  | none => cases c <;> simp [replyOf, h]

theorem LinkEvent.isFault_eq_true_iff {e : LinkEvent} : e.isFault = true ↔ ∃ k, e.reply = .fault k := by
  obtain ⟨_, r⟩ := e
  cases r <;> simp [LinkEvent.isFault]

/-! ## Without the channel -/

section ChannelOff
variable {p : Params} (hoff : p.linkFaultChannel = false)
include hoff

/-- No event of calls answered in order is a fault. -/
theorem not_isFault_of_channel_off {l : Link} {es : List LinkEvent}
    (hr : ∀ j (h : j < es.length), es[j].reply = replyOf p es[j].call (l.answerAt j)) :
    ∀ e ∈ es, e.isFault = false := by
  intro e he
  obtain ⟨j, hj, rfl⟩ := List.getElem_of_mem he
  refine Bool.eq_false_iff.2 fun hf => ?_
  obtain ⟨k, hk⟩ := LinkEvent.isFault_eq_true_iff.1 hf
  have hfault := replyOf_eq_fault_iff.1 ((hr j hj).symm.trans hk)
  rw [faultOf_of_channel_off hoff] at hfault
  cases hfault

/-- A sequence of link calls comes to a value: a fault that stopped it would be its last event. -/
theorem LinkOp.Makes.ne_error_of_channel_off {α : Type} {C : LinkCall → Prop} {n : Nat} {m : LinkOp α}
    (hm : LinkOp.Makes p C n m) (l : Link) (k : LinkFault) : (m l).1 ≠ .error k := by
  intro hk
  obtain ⟨es, hmade⟩ := hm l
  obtain ⟨fs, c, rfl, _⟩ := hmade.fault k hk
  cases not_isFault_of_channel_off hoff hmade.replies ⟨c, .fault k⟩ (by simp)

/-- So does the loop of EXCHANGE. -/
theorem exchangeFrom_ne_error_of_channel_off (resets n k : Nat) (m : Memory) (l : Link) (f : LinkFault) :
    (exchangeFrom p resets n k m l).2.1 ≠ .error f := by
  intro hf
  obtain ⟨es, hmade⟩ := exchangeFrom_made p resets n k m l
  obtain ⟨fs, c, rfl, _⟩ := hmade.fault f hf
  cases not_isFault_of_channel_off hoff hmade.replies ⟨c, .fault f⟩ (by simp)

end ChannelOff

/-! ## The statuses of the two link faults -/

/-- Neither of the statuses that stand for a link fault (R170, R182). -/
def Status.Ordinary (st : Status) : Prop := st ≠ .shortCircuit ∧ st ≠ .adapterFault

theorem echoStatus_ordinary (echo : Bool) : (echoStatus echo).Ordinary := by cases echo <;> exact ⟨nofun, nofun⟩

theorem crcCheckStatus_ordinary (good : Prop) [Decidable good] :
    Status.Ordinary (if good then .ok else .crcFailure) := by split <;> exact ⟨nofun, nofun⟩

theorem accessOps_ok_ordinary {p : Params} {addr : Address} {l : Link} {st : Status}
    (h : (accessOps p addr l).1 = .ok st) : st.Ordinary := by
  obtain ⟨presence, _, _, h⟩ := LinkOp.of_andThen_ok h
  cases presence with
  | false => cases h; exact ⟨nofun, nofun⟩
  | true =>
    obtain ⟨echo, _, _, h⟩ := LinkOp.of_andThen_ok h
    cases h
    exact echoStatus_ordinary echo

theorem odAccessOps_ok_ordinary {p : Params} {addr : Address} {l : Link} {st : Status}
    (h : (odAccessOps p addr l).1 = .ok st) : st.Ordinary := by
  obtain ⟨_, _, _, h⟩ := LinkOp.of_andThen_ok h
  obtain ⟨presence, _, _, h⟩ := LinkOp.of_andThen_ok h
  cases presence with
  | false => cases h; exact ⟨nofun, nofun⟩
  | true =>
    obtain ⟨e, _, _, h⟩ := LinkOp.of_andThen_ok h
    by_cases he : e = overdriveMatchByte
    · rw [if_pos he] at h
      obtain ⟨_, _, _, h⟩ := LinkOp.of_andThen_ok h
      obtain ⟨echo, _, _, h⟩ := LinkOp.of_andThen_ok h
      cases h
      exact echoStatus_ordinary echo
    · rw [if_neg he] at h
      cases h
      exact ⟨nofun, nofun⟩

theorem closeSpeed_fst (p : Params) (o : Except LinkFault Status × Link) : (closeSpeed p o).1 = o.1 := by
  obtain ⟨_ | st, l⟩ := o
  · rfl
  · cases st <;> rfl

theorem State.conclude_ordinary {o : Except LinkFault Status × Link} (herr : ∀ k, o.1 ≠ .error k)
    (hok : ∀ st, o.1 = .ok st → st.Ordinary) (s : State) : (s.conclude o).status.Ordinary := by
  rcases o with ⟨k | st, l⟩
  · exact absurd rfl (herr k)
  · exact hok st rfl

theorem State.concludeVerify_ordinary {o : Except LinkFault (Option Nat) × Link} (herr : ∀ k, o.1 ≠ .error k)
    (s : State) : (s.concludeVerify o).status.Ordinary := by
  rcases o with ⟨k | _ | cnt, l⟩
  · exact absurd rfl (herr k)
  · exact ⟨nofun, nofun⟩
  · exact ⟨nofun, nofun⟩

theorem State.concludeSearch_ordinary {o : Except LinkFault SearchEnd × Link} (herr : ∀ k, o.1 ≠ .error k)
    (s : State) : (s.concludeSearch o).status.Ordinary := by
  rcases State.concludeSearch_cases o s with ⟨_, e⟩ | ⟨_, e⟩ | ⟨_, _, e⟩ | ⟨k, hk, _⟩
  · rw [e]; exact ⟨nofun, nofun⟩
  · rw [e]; exact ⟨nofun, nofun⟩
  · rw [e]; exact ⟨nofun, nofun⟩
  · exact absurd hk (herr k)

/-! ## The commands without the channel -/

theorem State.nextBody_ordinary_of_channel_off {s : State} (hoff : s.params.linkFaultChannel = false) (r a : Bool) :
    (s.nextBody r a).status.Ordinary := by
  cases hl : s.ldf with
  | true => rw [State.nextBody_of_last hl]; exact ⟨nofun, nofun⟩
  | false =>
    rw [State.nextBody_of_not_last hl]
    have hmakes := makes_search s.params (C := fun _ => True) r a (fun _ => trivial) trivial (fun _ => trivial)
      (fun _ => trivial) s.addr s.ld s.lfd
    exact State.concludeSearch_ordinary (hmakes.ne_error_of_channel_off hoff s.link) s

theorem State.exchangeBody_ordinary_of_channel_off {s : State} (hoff : s.params.linkFaultChannel = false) (len : Nat) :
    (s.exchangeBody len).status.Ordinary := by
  rcases State.concludeExchange_cases (exchangeFrom s.params s.resets len 0 s.buf s.link) s with ⟨_, e⟩ | ⟨k, hk, _⟩
  · rw [State.exchangeBody, e]; exact ⟨nofun, nofun⟩
  · exact absurd hk (exchangeFrom_ne_error_of_channel_off hoff _ _ _ _ _ k)

theorem execExchange_ordinary_of_channel_off {s t : State} (hoff : s.params.linkFaultChannel = false) {r : Bool}
    {len : Nat} (h : execExchange r len s = .next t) : t.status.Ordinary := by
  rcases execExchange_cases r len s with
    ⟨_, e⟩ | ⟨_, _, k, l, hl, _⟩ | ⟨_, _, _, _, e⟩ | ⟨_, _, l, _, e⟩ | ⟨_, _, e⟩
  case inr.inl =>
    have hmakes := makes_linkReset s.params (C := fun _ => True) trivial
    exact absurd (congrArg Prod.fst hl) (hmakes.ne_error_of_channel_off hoff s.start.link k)
  all_goals cases e.symm.trans h
  · exact ⟨nofun, nofun⟩
  · exact ⟨nofun, nofun⟩
  · exact State.exchangeBody_ordinary_of_channel_off (s := s.start.setLink l) hoff len
  · exact State.exchangeBody_ordinary_of_channel_off (s := s.start) hoff len

/-- R182: with LINK_FAULT_CHANNEL = 0 no command writes either fault status. Those that make link calls write one only
when a fault stopped their calls. -/
theorem exec_ordinary_of_channel_off {s t : State} (hoff : s.params.linkFaultChannel = false) {i : Instr}
    (h : exec i s = .next t) : t.status.Ordinary := by
  cases i with
  | first r a =>
    cases h
    exact State.nextBody_ordinary_of_channel_off (s := s.start.setSearch (.num 0) 0 false) hoff r a
  | next r a => cases h; exact State.nextBody_ordinary_of_channel_off (s := s.start) hoff r a
  | access =>
    cases h
    have hmakes := makes_accessOps s.params (C := fun _ => True) trivial (fun _ => trivial) s.addr
    exact State.conclude_ordinary (hmakes.ne_error_of_channel_off hoff s.start.link)
      (fun _ => accessOps_ok_ordinary) s.start
  | verify a =>
    cases h
    have hmakes := makes_verifyOps s.params (C := fun _ => True) a (fun _ => trivial) trivial (fun _ => trivial)
      (fun _ => trivial) s.addr
    exact State.concludeVerify_ordinary (hmakes.ne_error_of_channel_off hoff s.start.link) s.start
  | odAccess =>
    cases h
    have hmakes := makes_odAccessOps s.params (C := fun _ => True) trivial (fun _ => trivial) (fun _ => trivial) s.addr
    refine State.conclude_ordinary ?_ ?_ s.start <;> rw [closeSpeed_fst]
    · exact hmakes.ne_error_of_channel_off hoff s.start.link
    · exact fun _ => odAccessOps_ok_ordinary
  | exchange r len => exact execExchange_ordinary_of_channel_off hoff h
  | crc8Check => cases h; exact crcCheckStatus_ordinary _
  | crc16Check => cases h; exact crcCheckStatus_ordinary _
  | crc8Reset _ => cases h; exact ⟨nofun, nofun⟩
  | crc8Update _ => cases h; exact ⟨nofun, nofun⟩
  | crc16Reset _ => cases h; exact ⟨nofun, nofun⟩
  | crc16Update _ => cases h; exact ⟨nofun, nofun⟩
  | famSetup _ => cases h; exact ⟨nofun, nofun⟩
  | skipFam => cases h; exact ⟨nofun, nofun⟩
  | addrWr _ _ => cases h; exact ⟨nofun, nofun⟩

/-- Settles O57: every event shows its answer (`exec_ran`), so a fault in the trace is what `faultOf` makes of that
answer (`replyOf_eq_fault_iff`); without the channel it makes none, and no fault status is written
(`exec_ordinary_of_channel_off`). -/
theorem linkFaultsNeedTheChannel : Obligations.LinkFaultsNeedTheChannel := by
  intro i s
  obtain ⟨t, es, h, hran⟩ := exec_ran i s
  have htrace : t.link.trace = es := congrArg Link.trace hran.link
  have hreply : ∀ j (hj : j < es.length) k,
      es[j].reply = .fault k ↔ faultOf s.params es[j].call (s.answerAt j) = some k :=
    fun j hj k => (hran.replies j hj).symm ▸ replyOf_eq_fault_iff
  refine ⟨t, h, ?_⟩
  rw [htrace]
  refine ⟨fun hoff => ⟨not_isFault_of_channel_off hoff hran.replies, exec_ordinary_of_channel_off hoff h⟩, ?_, ?_⟩
  · intro e he hk
    obtain ⟨j, hj, rfl⟩ := List.getElem_of_mem he
    exact (faultOf_eq_shortCircuit_iff.1 ((hreply j hj _).1 hk)).2.2
  · intro hon j hj
    exact ⟨fun ha => (hreply j hj _).2 (faultOf_eq_adapterFault_iff.2 ⟨hon, ha⟩),
      fun ha hc => (hreply j hj _).2 (faultOf_eq_shortCircuit_iff.2 ⟨hon, ha, hc⟩)⟩

end Sys2Proof.Machine

/-! PROOFS about the round trip of the encoding: what the decoder makes of a word built from fields, and that a command
and its word determine each other (spec 30 R72 to R76). -/

namespace Sys2Proof

/-! ## A word built from the fields of its format -/

section
variable (opc : BitVec 8)

theorem decodeN_wordOf (i : Instr) : decodeN (wordOf opc false false 0) i = .ok i := by
  simp [decodeN, whenZero]

theorem decodeB_wordOf (b : Byte) (i : Byte → Instr) :
    decodeB (wordOf opc false false (immByte b)) i = .ok (i b) := by
  simp [decodeB, whenZero, immHigh, immLow, immByte_high, immByte_low]

theorem decodeH_wordOf (v : Half) (i : Half → Instr) : decodeH (wordOf opc false false v) i = .ok (i v) := by
  simp [decodeH, whenZero]

theorem decodeS_wordOf (r a : Bool) (i : Bool → Bool → Instr) : decodeS (wordOf opc r a 0) i = .ok (i r a) := by
  simp [decodeS, whenZero]

theorem decodeV_wordOf (a : Bool) (i : Bool → Instr) : decodeV (wordOf opc false a 0) i = .ok (i a) := by
  simp [decodeV, whenZero]

/-- A length that fits its field comes back (R74). -/
theorem decodeX_wordOf (r : Bool) {len : Nat} (hlen : len ≤ 65535) (i : Bool → Nat → Instr) :
    decodeX (wordOf opc r false (BitVec.ofNat 16 len)) i = .ok (i r len) := by
  have hfit : len % 65536 = len := Nat.mod_eq_of_lt (Nat.lt_succ_of_le hlen)
  simp [decodeX, whenZero, hfit]

theorem decodeW_wordOf (k : Fin 8) (b : Byte) (i : Fin 8 → Byte → Instr) :
    decodeW (wordOf opc false false (immIndexByte k b)) i = .ok (i k b) := by
  have hidx : (idxOf (wordOf opc false false (immIndexByte k b))).toFin = k := by
    rw [idxOf, immOf_wordOf, immIndexByte_index]
  rw [decodeW, hidx]
  simp [whenZero, immTop, immLow, immIndexByte_top, immIndexByte_low]

end

/-! ## The round trip -/

/-- Settles O2: the `opc` selects the format of the command, and each format gives its operands back. -/
theorem decodeOfEncodeIsTheInstruction : Obligations.DecodeOfEncodeIsTheInstruction := by
  intro i hwf
  cases i
  all_goals rw [encode, decode, opcOf_wordOf]
  case crc8Reset seed => exact decodeB_wordOf 0x10 seed .crc8Reset
  case crc8Update b => exact decodeB_wordOf 0x11 b .crc8Update
  case crc8Check => exact decodeN_wordOf 0x12 .crc8Check
  case crc16Reset seed => exact decodeH_wordOf 0x18 seed .crc16Reset
  case crc16Update b => exact decodeB_wordOf 0x19 b .crc16Update
  case crc16Check => exact decodeN_wordOf 0x1A .crc16Check
  case first r a => exact decodeS_wordOf 0x20 r a .first
  case next r a => exact decodeS_wordOf 0x21 r a .next
  case famSetup code => exact decodeB_wordOf 0x22 code .famSetup
  case skipFam => exact decodeN_wordOf 0x23 .skipFam
  case access => exact decodeN_wordOf 0x30 .access
  case verify a => exact decodeV_wordOf 0x31 a .verify
  case odAccess => exact decodeN_wordOf 0x32 .odAccess
  case exchange r len => exact decodeX_wordOf 0x33 r (of_decide_eq_true hwf) .exchange
  case addrWr idx b => exact decodeW_wordOf 0x34 idx b .addrWr

/-- Settles O3: `wf_and_encode_of_decode`, which splits by the `opc` decoded. -/
theorem encodeOfDecodeIsTheWord : Obligations.EncodeOfDecodeIsTheWord := fun _ _ => wf_and_encode_of_decode

end Sys2Proof

/-! PROOFS about steps: the link calls of a command and what it leaves alone (spec 20 R50 to R53), the accesses of the
host (20 R41, R57), and hardware reset alone and during a command (70 R200 to R204). -/

namespace Sys2Proof.Machine

/-! ## The link calls of a command -/

/-- Settles O53: `exec_ran`, read off its trace. -/
theorem linkTraceShowsTheAnswersInOrder : Obligations.LinkTraceShowsTheAnswersInOrder := by
  intro i s
  obtain ⟨t, es, h, hran⟩ := exec_ran i s
  obtain rfl : t.link.trace = es := congrArg Link.trace hran.link
  exact ⟨t, h, hran.link, hran.replies⟩

/-- The five primitives commands use, `setSpeed` in ODACCESS alone (R53). -/
theorem callsOf_cases {i : Instr} {c : LinkCall} (h : callsOf i c) :
    c = .reset ∨ c = .readBit ∨ (∃ b, c = .writeBit b) ∨ (∃ v, c = .touchByte v) ∨
      (i = .odAccess ∧ ∃ v, c = .setSpeed v) := by
  cases i with
  | first r a => exact h.imp And.right (Or.imp_right (Or.imp_right .inl))
  | next r a => exact h.imp And.right (Or.imp_right (Or.imp_right .inl))
  | access => exact h.imp_right fun h => .inr (.inr (.inl h))
  | verify a => exact h.imp_right (Or.imp_right (Or.imp_right .inl))
  | odAccess =>
    rcases h with h | h | h
    · exact .inl h
    · exact .inr (.inr (.inr (.inr ⟨rfl, h⟩)))
    · exact .inr (.inr (.inr (.inl h)))
  | exchange r len => exact h.imp And.right fun h => .inr (.inr (.inl h))
  | _ => exact h.elim

/-- Settles O54: every event of a command is a call of `callsOf` (`exec_ran`), none of which is one of these
(`callsOf_cases`). -/
theorem noCommandCallsLevelOrCapability : Obligations.NoCommandCallsLevelOrCapability := by
  intro i s
  obtain ⟨t, es, h, hran⟩ := exec_ran i s
  obtain rfl : t.link.trace = es := congrArg Link.trace hran.link
  refine ⟨t, h, fun e he => ?_⟩
  rcases callsOf_cases (hran.calls e he) with hc | hc | ⟨_, hc⟩ | ⟨_, hc⟩ | ⟨hi, _, hc⟩ <;> rw [hc]
  case inr.inr.inr.inr => exact ⟨nofun, nofun, nofun, nofun, fun hne => absurd hi hne⟩
  all_goals exact ⟨nofun, nofun, nofun, nofun, nofun⟩

/-! ## The environment of a command -/

/-- What no command touches: the parameters, the host's accesses, the last port answer and the count of resets. -/
def State.SameEnvironment (s t : State) : Prop :=
  t.params = s.params ∧ t.host = s.host ∧ t.readData = s.readData ∧ t.resets = s.resets

theorem State.concludeSearch_environment (o : Except LinkFault SearchEnd × Link) (s : State) :
    s.SameEnvironment (s.concludeSearch o) := by
  rcases State.concludeSearch_cases o s with ⟨_, e⟩ | ⟨_, e⟩ | ⟨_, _, e⟩ | ⟨_, _, e⟩ <;> rw [e] <;>
    exact ⟨rfl, rfl, rfl, rfl⟩

theorem State.nextBody_environment (r a : Bool) (s : State) : s.SameEnvironment (s.nextBody r a) := by
  cases hl : s.ldf with
  | true => rw [State.nextBody_of_last hl]; exact ⟨rfl, rfl, rfl, rfl⟩
  | false => rw [State.nextBody_of_not_last hl]; exact State.concludeSearch_environment _ s

theorem exec_keeps_environment {i : Instr} {s t : State} (h : exec i s = .next t) : s.SameEnvironment t := by
  cases i with
  | first r a => cases h; exact State.nextBody_environment r a (s.start.setSearch (.num 0) 0 false)
  | next r a => cases h; exact State.nextBody_environment r a s.start
  | access => cases h; rw [State.conclude_eq]; exact ⟨rfl, rfl, rfl, rfl⟩
  | odAccess => cases h; rw [State.conclude_eq]; exact ⟨rfl, rfl, rfl, rfl⟩
  | verify a =>
    cases h
    obtain ⟨_, _, e, _⟩ := State.concludeVerify_frame (verifyOps s.params a s.addr s.start.link) s.start
    rw [e]
    exact ⟨rfl, rfl, rfl, rfl⟩
  | exchange r len =>
    obtain ⟨_, _, _, _, e⟩ := execExchange_frame r len s
    cases e.symm.trans h
    exact ⟨rfl, rfl, rfl, rfl⟩
  | _ => cases h; exact ⟨rfl, rfl, rfl, rfl⟩

/-- Settles O15: every command answers a next state (`exec_ran`), in the same environment
(`exec_keeps_environment`). -/
theorem everyCommandCompletes : Obligations.EveryCommandCompletes := by
  intro i s
  obtain ⟨t, _, h, _⟩ := exec_ran i s
  exact ⟨t, h, exec_keeps_environment h⟩

/-! ## The accesses of the host -/

/-- Settles O9: `step_of_host_nil`. -/
theorem idleCoreWaits : Obligations.IdleCoreWaits := fun _ => step_of_host_nil

theorem step_of_command {s : State} {w : Word} {rest : List HostAccess} {i : Instr} (h : s.host = .command w :: rest)
    (hd : decode w = .ok i) : step s = exec i { s with host := rest } :=
  (step_of_host_cons h).trans (runWord_of_decode hd _)

theorem decode_of_decodeTableWord {nbits w : Nat} {i : Instr} (h : decodeTableWord nbits w = some i) :
    decode (tableWord nbits w) = .ok i := by
  unfold decodeTableWord at h
  split at h
  · next j hj => rw [hj, Option.some.inj h]
  · cases h

/-- Settles O7: `step_of_command`, for a word the host gives and for one that `withFetchWord` gives. -/
theorem stepRunsTheDecodedCommand : Obligations.StepRunsTheDecodedCommand :=
  ⟨fun _ _ _ _ => step_of_command, fun s nbits w _ h =>
    step_of_command (s := s.withFetchWord nbits w) rfl (decode_of_decodeTableWord h)⟩

/-- A word at the command port always runs to its end (R57, R78). -/
theorem runWord_completes (w : Word) (s : State) : ∃ t, runWord w s = .next t := by
  cases hd : decode w with
  | ok i =>
    obtain ⟨t, _, h, _⟩ := exec_ran i s
    exact ⟨t, (runWord_of_decode hd s).trans h⟩
  | error e => exact ⟨_, runWord_of_illegal hd s⟩

/-- The buffer accesses with an index that does not exist, `n` being MAX_BLOCK_LEN (R41; log 8). -/
def HostAccess.OutOfRange (n : Nat) : HostAccess → Prop
  | .readBuf k => n ≤ k
  | .writeBuf k _ => n ≤ k
  | _ => False

theorem HostAccess.outOfRange_iff {n : Nat} {x : HostAccess} :
    x.OutOfRange n ↔ ∃ k, (x = .readBuf k ∨ ∃ v, x = .writeBuf k v) ∧ n ≤ k := by
  cases x <;> simp [HostAccess.OutOfRange]

theorem serve_of_outOfRange {x : HostAccess} {s : State} (h : x.OutOfRange s.params.maxBlockLen) :
    serve x s = .fault .bufIndexOutOfRange := by
  cases x with
  | readBuf k => exact if_neg (Nat.not_lt.2 h)
  | writeBuf k v => exact if_neg (Nat.not_lt.2 h)
  | _ => exact h.elim

theorem serve_of_inRange {x : HostAccess} {s : State} (h : ¬ x.OutOfRange s.params.maxBlockLen) :
    ∃ t, serve x s = .next t := by
  cases x with
  | readBuf k => exact ⟨_, if_pos (Nat.not_le.1 h)⟩
  | writeBuf k v => exact ⟨_, if_pos (Nat.not_le.1 h)⟩
  | command w => exact runWord_completes w s
  | readReg number => exact ⟨_, rfl⟩
  | hardReset => exact ⟨_, rfl⟩
  | commandCut w n =>
    obtain ⟨t, ht⟩ := runWord_completes w s
    exact ⟨_, runWordCut_of_next ht⟩

/-- A step answers a next state, or the host's next access is out of range and it stops there. -/
theorem step_cases (s : State) :
    (∃ t, step s = .next t) ∨
    ∃ x rest, s.host = x :: rest ∧ x.OutOfRange s.params.maxBlockLen ∧ step s = .fault .bufIndexOutOfRange := by
  cases hh : s.host with
  | nil => exact .inl ⟨s, step_of_host_nil hh⟩
  | cons x rest =>
    rw [step_of_host_cons hh]
    by_cases hx : x.OutOfRange s.params.maxBlockLen
    · exact .inr ⟨x, rest, rfl, hx, serve_of_outOfRange hx⟩
    · exact .inl (serve_of_inRange (s := { s with host := rest }) hx)

theorem step_of_outOfRange {s : State} {x : HostAccess} {rest : List HostAccess} (hh : s.host = x :: rest)
    (hx : x.OutOfRange s.params.maxBlockLen) : step s = .fault .bufIndexOutOfRange :=
  (step_of_host_cons hh).trans (serve_of_outOfRange (s := { s with host := rest }) hx)

/-- Settles O16: the two ways a step goes (`step_cases`), and the accesses out of range by name. -/
theorem stepFaultsOnlyOnBufIndexOutOfRange : Obligations.StepFaultsOnlyOnBufIndexOutOfRange := by
  refine ⟨fun s f => ⟨fun h => ?_, ?_⟩, fun s q h => ?_⟩
  · rcases step_cases s with ⟨t, ht⟩ | ⟨x, rest, hh, hx, _⟩
    · cases ht.symm.trans h
    · obtain ⟨k, hk, hle⟩ := HostAccess.outOfRange_iff.1 hx
      exact ⟨k, rest, by simpa [hh] using hk, hle⟩
  · rintro ⟨k, rest, hh | ⟨v, hh⟩, hle⟩
    · exact step_of_outOfRange hh hle
    · exact step_of_outOfRange hh hle
  · rcases step_cases s with ⟨t, ht⟩ | ⟨_, _, _, _, ht⟩ <;> cases ht.symm.trans h

/-- Settles O59: the two accesses in range, a byte read after a write (`Memory.read_store_same`,
`Memory.read_store_other`), and those out of range (`step_of_outOfRange`). -/
theorem bufferPortReadsAndWrites : Obligations.BufferPortReadsAndWrites := by
  intro s k rest
  refine ⟨fun hh hk => (step_of_host_cons hh).trans (if_pos hk), fun v hh hk => ?write, ?outOfRange⟩
  case write =>
    refine ⟨_, (step_of_host_cons hh).trans (if_pos hk), fun j => ?_, rfl⟩
    by_cases hj : j = k
    · rw [if_pos hj, hj]
      exact Memory.read_store_same s.resets s.buf k v
    · rw [if_neg hj]
      exact Memory.read_store_other s.resets s.buf v hj
  case outOfRange =>
    rintro (hh | ⟨v, hh⟩) hle
    · exact step_of_outOfRange hh hle
    · exact step_of_outOfRange hh hle

/-! ## Hardware reset -/

theorem step_of_hardReset {s : State} {rest : List HostAccess} (h : s.host = .hardReset :: rest) :
    step s = .next { s with host := rest }.hardReset := step_of_host_cons h

/-- Settles O10: the registers of `State.reset` and of `State.hardReset`, from which NEXT has nothing FIRST would clear
(`exec_next_eq_first`). -/
theorem resetValuesOfTheSpec : Obligations.ResetValuesOfTheSpec :=
  ⟨⟨rfl, rfl, rfl, rfl, rfl, rfl, rfl, rfl, rfl, rfl, rfl, rfl, rfl⟩, fun _ _ h =>
    ⟨_, step_of_hardReset h, rfl, rfl, rfl, rfl, rfl, rfl, rfl, rfl, rfl, rfl, rfl, exec_next_eq_first rfl rfl rfl⟩⟩

/-- Settles O11: the command is run whole (`runWord_completes`) and then cut (`runWordCut_of_next`). -/
theorem hardResetDuringACommandDropsTheRest : Obligations.HardResetDuringACommandDropsTheRest := by
  intro s w n rest h
  obtain ⟨u, hu⟩ := runWord_completes w { s with host := rest }
  exact ⟨u, _, hu, (step_of_host_cons h).trans (runWordCut_of_next hu),
    rfl, rfl, rfl, rfl, rfl, rfl, rfl, rfl, rfl, rfl, rfl⟩

end Sys2Proof.Machine

/-! PROOFS about `RES` and `STATUS` (spec 10 R22) and about the invariant: it holds at reset, every command keeps each
of its parts, and so does every step (10 R18, R19; 20 R40; 60 R182). -/

namespace Sys2Proof.Machine

/-! ## `RES` and `STATUS` -/

/-- `RES` is 1 exactly beside `Ok` (R22). -/
def State.ResultIsStatus (s : State) : Prop := s.res = true ↔ s.status = .ok

theorem State.resultIsStatus_done (s : State) : s.done.ResultIsStatus := ⟨fun _ => rfl, fun _ => rfl⟩

theorem State.resultIsStatus_fail {st : Status} (h : st ≠ .ok) (s : State) : (s.fail st).ResultIsStatus :=
  ⟨nofun, fun e => absurd e h⟩

theorem State.resultIsStatus_endWith (st : Status) (s : State) : (s.endWith st).ResultIsStatus := beq_iff_eq

theorem Status.ofFault_ne_ok (k : LinkFault) : Status.ofFault k ≠ .ok := by cases k <;> decide

theorem State.resultIsStatus_conclude (o : Except LinkFault Status × Link) (s : State) :
    (s.conclude o).ResultIsStatus := by
  obtain ⟨k | st, l⟩ := o
  · exact State.resultIsStatus_fail (Status.ofFault_ne_ok k) _
  · exact State.resultIsStatus_endWith st _

theorem State.resultIsStatus_concludeSearch (o : Except LinkFault SearchEnd × Link) (s : State) :
    (s.concludeSearch o).ResultIsStatus := by
  obtain ⟨k | _ | _ | ps, l⟩ := o
  · exact State.resultIsStatus_fail (Status.ofFault_ne_ok k) _
  · exact State.resultIsStatus_fail (by nofun) _
  · exact State.resultIsStatus_fail (by nofun) _
  · exact State.resultIsStatus_done _

theorem State.resultIsStatus_nextBody (r a : Bool) (s : State) : (s.nextBody r a).ResultIsStatus := by
  cases hl : s.ldf with
  | true => rw [State.nextBody_of_last hl]; exact State.resultIsStatus_fail (by nofun) _
  | false => rw [State.nextBody_of_not_last hl]; exact State.resultIsStatus_concludeSearch _ s

theorem State.resultIsStatus_exchangeBody (len : Nat) (s : State) : (s.exchangeBody len).ResultIsStatus := by
  rcases h : exchangeFrom s.params s.resets len 0 s.buf s.link with ⟨m, k | _, l⟩ <;> rw [State.exchangeBody, h]
  · exact State.resultIsStatus_fail (Status.ofFault_ne_ok k) _
  · exact State.resultIsStatus_done _

theorem resultIsStatus_of_execExchange {r : Bool} {len : Nat} {s t : State} (h : execExchange r len s = .next t) :
    t.ResultIsStatus := by
  rcases execExchange_cases r len s with
    ⟨_, e⟩ | ⟨_, _, k, _, _, e⟩ | ⟨_, _, _, _, e⟩ | ⟨_, _, _, _, e⟩ | ⟨_, _, e⟩ <;> cases e.symm.trans h
  · exact State.resultIsStatus_fail (by nofun) _
  · exact State.resultIsStatus_fail (Status.ofFault_ne_ok k) _
  · exact State.resultIsStatus_fail (by nofun) _
  · exact State.resultIsStatus_exchangeBody len _
  · exact State.resultIsStatus_exchangeBody len _

theorem resultIsStatus_of_exec {i : Instr} (hi : ∀ a, i ≠ .verify a) {s t : State} (h : exec i s = .next t) :
    t.ResultIsStatus := by
  cases i with
  | first r a => cases h; exact State.resultIsStatus_nextBody r a _
  | next r a => cases h; exact State.resultIsStatus_nextBody r a _
  | access => cases h; exact State.resultIsStatus_conclude _ _
  | odAccess => cases h; exact State.resultIsStatus_conclude _ _
  | verify a => exact absurd rfl (hi a)
  | exchange r len => exact resultIsStatus_of_execExchange h
  | crc8Check => cases h; exact State.resultIsStatus_endWith _ _
  | crc16Check => cases h; exact State.resultIsStatus_endWith _ _
  | _ => cases h; exact State.resultIsStatus_done _

/-- The verdict of VERIFY is 1 only beside `Ok` (R144). -/
theorem ok_of_execVerify_res {a : Bool} {s t : State} (h : execVerify a s = .next t) (hr : t.res = true) :
    t.status = .ok := by
  cases h
  obtain ⟨st, b, e, hb⟩ := State.concludeVerify_frame (verifyOps s.params a s.addr s.start.link) s.start
  rw [e] at hr ⊢
  exact hb hr

theorem ok_of_exec_res {i : Instr} {s t : State} (h : exec i s = .next t) (hr : t.res = true) : t.status = .ok := by
  by_cases hi : ∀ a, i ≠ .verify a
  · exact (resultIsStatus_of_exec hi h).1 hr
  · push Not at hi
    obtain ⟨a, rfl⟩ := hi
    exact ok_of_execVerify_res h hr

/-! ### Every command writes both -/

section
variable (st : Status) (b : Bool)

theorem State.conclude_finish (o : Except LinkFault Status × Link) (s : State) :
    (s.finish st b).conclude o = s.conclude o := by
  rw [State.conclude_eq, State.conclude_eq]
  rfl

theorem State.concludeVerify_finish (o : Except LinkFault (Option Nat) × Link) (s : State) :
    (s.finish st b).concludeVerify o = s.concludeVerify o := by
  obtain ⟨_ | _ | _, _⟩ := o <;> rfl

theorem State.concludeSearch_finish (o : Except LinkFault SearchEnd × Link) (s : State) :
    (s.finish st b).concludeSearch o = s.concludeSearch o := by
  obtain ⟨_ | _ | _ | _, _⟩ := o <;> rfl

theorem State.nextBody_finish (r a : Bool) (s : State) : (s.finish st b).nextBody r a = s.nextBody r a := by
  cases h : s.ldf with
  | true => rw [State.nextBody_of_last h, State.nextBody_of_last (s := s.finish st b) h]; rfl
  | false =>
    rw [State.nextBody_of_not_last h, State.nextBody_of_not_last (s := s.finish st b) h]
    exact State.concludeSearch_finish st b _ s

theorem State.exchangeBody_finish (len : Nat) (s : State) : (s.finish st b).exchangeBody len = s.exchangeBody len := by
  rcases h : exchangeFrom s.params s.resets len 0 s.buf s.link with ⟨m, _ | _, l⟩ <;>
    simp only [State.exchangeBody, State.finish_params, State.finish_resets, State.finish_buf, State.finish_link, h] <;>
    rfl

/-- EXCHANGE chooses its way by its operands, `MAX_BLOCK_LEN` and the link alone, and every way writes both. -/
theorem execExchange_finish (r : Bool) (len : Nat) (s : State) :
    execExchange r len (s.finish st b) = execExchange r len s := by
  by_cases hlen : s.params.maxBlockLen < len
  · exact (exec_exchange_of_long (s := s.finish st b) hlen r).trans (exec_exchange_of_long hlen r).symm
  · have hlen' : ¬ (s.finish st b).params.maxBlockLen < len := hlen
    have hlink : (s.finish st b).start.link = s.start.link := rfl
    rw [execExchange, execExchange, if_neg hlen, if_neg hlen', hlink, State.finish_params]
    cases r with
    | false => exact congrArg Host.Outcome.next (State.exchangeBody_finish st b len s.start)
    | true =>
      rcases linkReset s.params s.start.link with ⟨_ | _ | _, l⟩
      · rfl
      · rfl
      · exact congrArg Host.Outcome.next (State.exchangeBody_finish st b len (s.start.setLink l))

theorem exec_finish (i : Instr) (s : State) : exec i (s.finish st b) = exec i s := by
  cases i with
  | first r a =>
    exact congrArg Host.Outcome.next (State.nextBody_finish st b r a (s.start.setSearch (.num 0) 0 false))
  | next r a => exact congrArg Host.Outcome.next (State.nextBody_finish st b r a s.start)
  | access => exact congrArg Host.Outcome.next (State.conclude_finish st b _ s.start)
  | verify a => exact congrArg Host.Outcome.next (State.concludeVerify_finish st b _ s.start)
  | odAccess => exact congrArg Host.Outcome.next (State.conclude_finish st b _ s.start)
  | exchange r len => exact execExchange_finish st b r len s
  | _ => rfl

end

/-- Settles O52: `RES` beside `STATUS` (`ok_of_exec_res`, `resultIsStatus_of_exec`), and both written over
(`exec_finish`). -/
theorem resultFollowsStatus : Obligations.ResultFollowsStatus := by
  intro i s
  obtain ⟨t, _, h, _⟩ := exec_ran i s
  exact ⟨t, h, ok_of_exec_res h, fun hi => (resultIsStatus_of_exec hi h).2, fun st b => exec_finish st b i s⟩

/-! ## The record of a pass -/

/-- What a pass keeps of its record (R17, R19): `LD` is no sentinel, and `LFD` is at most 8. -/
def Pass.InRange (ps : Pass) : Prop := ps.ld ≠ .resetSentinel ∧ ps.lfd.val ≤ 8

theorem Pass.InRange.advance {ps : Pass} (h : ps.InRange) (i : Nat) (a b d : Bool) : (ps.advance i a b d).InRange := by
  obtain ⟨hld, hlfd⟩ := h
  constructor
  · simp only [Pass.advance]
    split
    · exact nofun
    · exact hld
  · simp only [Pass.advance]
    split
    · next hrec =>
      obtain ⟨_, _, hi⟩ := hrec
      rw [Fin.ofNat_eq_cast, Fin.val_natCast]
      omega
    · exact hlfd

theorem passFrom_inRange {p : Params} {hi : Nat} {ps' : Pass} : ∀ {n i : Nat} {ps : Pass} {l : Link}, ps.InRange →
    (passFrom p hi n i ps l).1 = .ok (some ps') → ps'.InRange
  | 0, _, _, _, h, he => by cases he; exact h
  | n + 1, i, ps, l, h, he => by
    obtain ⟨a, _, _, he⟩ := LinkOp.of_andThen_ok he
    obtain ⟨b, _, _, he⟩ := LinkOp.of_andThen_ok he
    split at he
    · cases he
    · obtain ⟨_, _, _, he⟩ := LinkOp.of_andThen_ok he
      exact passFrom_inRange (h.advance i a b _) he

/-- What a search found is the pass it ran (R112). -/
theorem searchPass_found {p : Params} {a : Bool} {addr : Address} {ld : Discrepancy} {lfd : Fin 65} {l : Link}
    {ps : Pass} (h : (searchPass p a addr ld lfd l).1 = .ok (.found ps)) :
    ∃ l', (passFrom p ld.hi 64 0 ⟨candidatePath ld addr, .none, lfd⟩ l').1 = .ok (some ps) := by
  obtain ⟨_, l', _, h⟩ := LinkOp.of_andThen_ok h
  obtain ⟨o, _, hpass, h⟩ := LinkOp.of_andThen_ok h
  refine ⟨l', ?_⟩
  rw [hpass]
  rw [LinkOp.done_apply, Except.ok.injEq] at h
  rcases o with _ | ps'
  · cases h
  · by_cases hg : candidateGood ps'.cand = true
    · cases (if_pos hg).symm.trans h
      rfl
    · cases (if_neg hg).symm.trans h

theorem search_found_inRange {p : Params} {r a : Bool} {addr : Address} {ld : Discrepancy} {lfd : Fin 65} {l : Link}
    {ps : Pass} (hlfd : lfd.val ≤ 8) (h : (search p r a addr ld lfd l).1 = .ok (.found ps)) : ps.InRange := by
  obtain ⟨presence, _, _, h⟩ := LinkOp.of_andThen_ok h
  cases presence with
  | false => cases h
  | true =>
    obtain ⟨_, hpass⟩ := searchPass_found h
    exact passFrom_inRange (ps := ⟨candidatePath ld addr, .none, lfd⟩) ⟨nofun, hlfd⟩ hpass

/-! ## The search registers -/

/-- The parts of the invariant about `LD`, `LFD` and `LDF` beside R18: the sentinel stands in the empty search only
(R16), and `LFD` is at most 8 (R19). -/
def State.SearchInRange (s : State) : Prop :=
  (s.ld = .resetSentinel → s.ldf = false ∧ s.lfd = 0) ∧ s.lfd.val ≤ 8

theorem State.searchInRange_nextBody {s : State} (h : s.lfd.val ≤ 8) (r a : Bool) :
    (s.nextBody r a).SearchInRange := by
  cases hl : s.ldf with
  | true => rw [State.nextBody_of_last hl]; exact ⟨fun _ => ⟨rfl, rfl⟩, Nat.zero_le 8⟩
  | false =>
    rw [State.nextBody_of_not_last hl]
    rcases State.concludeSearch_cases (search s.params r a s.addr s.ld s.lfd s.link) s with
      ⟨_, e⟩ | ⟨_, e⟩ | ⟨ps, hf, e⟩ | ⟨_, _, e⟩ <;> rw [e]
    · exact ⟨nofun, Nat.zero_le 8⟩
    · exact ⟨fun _ => ⟨rfl, rfl⟩, Nat.zero_le 8⟩
    · obtain ⟨hld, hlfd⟩ := search_found_inRange h hf
      exact ⟨fun e => absurd e hld, hlfd⟩
    · exact ⟨fun _ => ⟨rfl, rfl⟩, Nat.zero_le 8⟩

/-- The commands of the enumerator write them in range; the others leave them as they are. -/
theorem exec_keeps_searchInRange {i : Instr} {s t : State} (hs : s.SearchInRange) (h : exec i s = .next t) :
    t.SearchInRange := by
  cases i with
  | first r a => cases h; exact State.searchInRange_nextBody (Nat.zero_le 8) r a
  | next r a => cases h; exact State.searchInRange_nextBody (s := s.start) hs.2 r a
  | famSetup code => cases h; exact ⟨nofun, Nat.zero_le 8⟩
  | skipFam => cases h; exact ⟨nofun, Nat.zero_le 8⟩
  | access => cases h; rw [State.conclude_eq]; exact hs
  | odAccess => cases h; rw [State.conclude_eq]; exact hs
  | verify a =>
    cases h
    obtain ⟨_, _, e, _⟩ := State.concludeVerify_frame (verifyOps s.params a s.addr s.start.link) s.start
    rw [e]
    exact hs
  | exchange r len =>
    obtain ⟨_, _, _, _, e⟩ := execExchange_frame r len s
    cases e.symm.trans h
    exact hs
  | _ => cases h; exact hs

/-! ## The buffer -/

/-- `BUF` in its canonical form, with indices below MAX_BLOCK_LEN only (R40). -/
def State.BufInRange (s : State) : Prop := s.buf.wf ∧ ∀ c ∈ s.buf, c.1 < s.params.maxBlockLen

theorem State.bufInRange_exchangeBody {len : Nat} {s : State} (hs : s.BufInRange) (hlen : len ≤ s.params.maxBlockLen) :
    (s.exchangeBody len).BufInRange := by
  obtain ⟨es, hmade⟩ := exchangeFrom_made s.params s.resets len 0 s.buf s.link
  have hm : (exchangeFrom s.params s.resets len 0 s.buf s.link).1.wf ∧
      ∀ c ∈ (exchangeFrom s.params s.resets len 0 s.buf s.link).1, c.1 < s.params.maxBlockLen :=
    ⟨hmade.wf hs.1, hmade.inRange _ hs.2 (by omega)⟩
  rcases State.concludeExchange_cases (exchangeFrom s.params s.resets len 0 s.buf s.link) s with ⟨_, e⟩ | ⟨_, _, e⟩ <;>
    rw [State.exchangeBody, e] <;> exact hm

/-- EXCHANGE tests its length first, so its loop stays in range (R148, R174). -/
theorem execExchange_keeps_bufInRange {r : Bool} {len : Nat} {s t : State} (hs : s.BufInRange)
    (h : execExchange r len s = .next t) : t.BufInRange := by
  rcases execExchange_cases r len s with
    ⟨_, e⟩ | ⟨_, _, _, _, _, e⟩ | ⟨_, _, _, _, e⟩ | ⟨hlen, _, l, _, e⟩ | ⟨hlen, _, e⟩ <;> cases e.symm.trans h
  · exact hs
  · exact hs
  · exact hs
  · exact State.bufInRange_exchangeBody (s := s.start.setLink l) hs hlen
  · exact State.bufInRange_exchangeBody (s := s.start) hs hlen

theorem exec_keeps_bufInRange {i : Instr} {s t : State} (hs : s.BufInRange) (h : exec i s = .next t) :
    t.BufInRange := by
  by_cases hi : ∀ r len, i ≠ .exchange r len
  · rw [State.BufInRange, exec_keeps_buf hi h, (exec_keeps_environment h).1]
    exact hs
  · push Not at hi
    obtain ⟨r, len, rfl⟩ := hi
    exact execExchange_keeps_bufInRange hs h

/-! ## The invariant -/

theorem Config.params_wf : Config.params.wf :=
  ⟨Nat.le_add_left 1 _, Nat.succ_le_of_lt Config.maxBlockLenLessOne.isLt⟩

/-- Every register at its reset value is in range, whatever the parameters. -/
theorem State.inv_hardReset {s : State} (h : s.params.wf) : s.hardReset.Inv where
  params_wf := h
  buf_wf := List.Pairwise.nil
  buf_in_range := nofun
  none_is_last := nofun
  sentinel_is_empty := fun _ => ⟨rfl, rfl⟩
  lfd_in_family := Nat.zero_le 8
  res_means_ok := nofun
  no_link_fault := fun _ => ⟨nofun, nofun⟩

/-- Settles O12: the reset values are those of any hardware reset (`State.inv_hardReset`). -/
theorem invariantHoldsAtReset : Obligations.InvariantHoldsAtReset :=
  { State.inv_hardReset (s := State.reset) Config.params_wf with }

/-- Every command keeps the invariant, part by part. -/
theorem exec_keeps_inv (i : Instr) (s t : State) (hs : s.Inv) (h : exec i s = .next t) : t.Inv := by
  obtain ⟨hparams, _⟩ := exec_keeps_environment h
  obtain ⟨hwf, hrange⟩ := exec_keeps_bufInRange ⟨hs.buf_wf, hs.buf_in_range⟩ h
  obtain ⟨hsentinel, hlfd⟩ := exec_keeps_searchInRange ⟨hs.sentinel_is_empty, hs.lfd_in_family⟩ h
  exact {
    params_wf := by rw [hparams]; exact hs.params_wf
    buf_wf := hwf
    buf_in_range := hrange
    none_is_last := exec_keeps_noneIsLast i s t hs.none_is_last h
    sentinel_is_empty := hsentinel
    lfd_in_family := hlfd
    res_means_ok := ok_of_exec_res h
    no_link_fault := fun hoff => exec_ordinary_of_channel_off (hparams ▸ hoff) h }

/-- Settles O13: the step rule (`step_keeps`), for a command by `exec_keeps_inv` and for a hardware reset by
`State.inv_hardReset`; an illegal word writes `STATUS` and `RES`, and a buffer write is in range. -/
theorem stepKeepsTheInvariant : Obligations.StepKeepsTheInvariant := fun _ _ hs h =>
  step_keeps (P := State.Inv)
    (host := fun _ _ hs => { hs with })
    (command := exec_keeps_inv)
    (illegal := fun _ hs => { hs with res_means_ok := nofun, no_link_fault := fun _ => ⟨nofun, nofun⟩ })
    (answer := fun _ _ hs => { hs with })
    (write := fun _ k v hk hs =>
      { hs with buf_wf := Memory.store_wf hs.buf_wf k v, buf_in_range := Memory.store_in_range hs.buf_in_range hk })
    (hardReset := fun _ hs => State.inv_hardReset hs.params_wf)
    (cut := fun _ s _ hs => { State.inv_hardReset (s := s) hs.params_wf with })
    hs h

end Sys2Proof.Machine

/-! PROOFS about one wrong bit of an address (spec 40 R92), about FIRST and the start of a pass (41 R111, R115), the
stop at an empty position (R118), and searches on a bus of well-behaved devices (R125, R126). -/

namespace Sys2Proof.Machine

/-! ## One wrong bit -/

theorem addrByte_xor (x e : Address) (k : Nat) : addrByte (x ^^^ e) k = addrByte x k ^^^ addrByte e k :=
  BitVec.extractLsb'_xor

theorem crc8_addrBytes_xor (x e : Address) :
    crc8 (addrBytes (x ^^^ e)) = crc8 (addrBytes x) ^^^ crc8 (addrBytes e) := by
  have hbytes : addrBytes (x ^^^ e) = List.zipWith (· ^^^ ·) (addrBytes x) (addrBytes e) := by
    simp [addrBytes, addrByte_xor]
  rw [hbytes]
  exact crc8_xor (addrBytes x) (addrBytes e) 0 0 rfl

/-- No address with a single bit is valid. -/
theorem addrValid_oneBit : ∀ i : Fin 64, addrValid (setAbit 0 i true) = false := by decide +kernel

/-- Settles O27: the CRC-8 is linear (`crc8_addrBytes_xor`), so the wrong address has the residual of the wrong bit
alone, which is not that of a valid address (`addrValid_oneBit`). -/
theorem crc8DetectsEverySingleBitError : Obligations.Crc8DetectsEverySingleBitError := by
  intro x y i hi hx hy
  have hxor : y = x ^^^ setAbit 0 i true := by
    refine address_ext fun j hj => ?_
    have hbit : abit (x ^^^ setAbit 0 i true) j = (abit x j ^^ abit (setAbit 0 i true) j) := BitVec.getLsbD_xor
    rw [hy j hj, hbit, abit_setAbit 0 hi, abit_zero]
    by_cases hji : j = i <;> simp [hji]
  have hx0 : crc8 (addrBytes x) = 0 := by simpa [addrValid, crc8Residual] using hx
  have hcrc : crc8 (addrBytes y) = crc8 (addrBytes (setAbit 0 i true)) := by
    rw [hxor, crc8_addrBytes_xor, hx0]
    exact BitVec.zero_xor
  rw [addrValid, hcrc]
  exact addrValid_oneBit ⟨i, hi⟩

/-! ## The start of a pass -/

/-- Settles O36: RESET_SENTINEL gives `HI = 0`, as 0 does (`exec_next_of_hi_zero`). -/
theorem emptySearchIsAFullRangeSearch : Obligations.EmptySearchIsAFullRangeSearch :=
  fun r a s hs => exec_next_of_hi_zero r a (s := s) (by rw [hs]; rfl) rfl

/-- With `HI = 0` a search sees of the old address only whether it is of the alarming-clock family (R114, R115). -/
theorem search_forgets_addr {p : Params} {d : Discrepancy} (hd : d.hi = 0) {x y : Address}
    (hf : isAlarmClockFamily p (addrByte y 0) = isAlarmClockFamily p (addrByte x 0)) (r a : Bool) (lfd : Fin 65) :
    search p r a y d lfd = search p r a x d lfd := by
  have hreset : searchReset p r y = searchReset p r x := by rw [searchReset, searchReset, hf]
  rw [search, search, hreset, searchPass_forgets (x := y) (y := x) hd hd]

/-- Every end of a search but NoPresence writes `ADDR`. -/
theorem State.concludeSearch_forgets_addr {o : Except LinkFault SearchEnd × Link} (h : o.1 ≠ .ok .noPresence)
    (y : Address) (s : State) : (s.setAddr y).concludeSearch o = s.concludeSearch o := by
  obtain ⟨_ | _ | _ | _, _⟩ := o
  case ok.noPresence => exact absurd rfl h
  all_goals rfl

theorem exec_first_eq (r a : Bool) (s : State) :
    exec (.first r a) s = .next ((s.start.setSearch (.num 0) 0 false).concludeSearch
      (search s.params r a s.addr (.num 0) 0 s.start.link)) := rfl

/-- Settles O39: the search makes the same link calls (`search_forgets_addr`), and its end writes over the old address
(`State.concludeSearch_forgets_addr`). -/
theorem firstForgetsTheOldSearch : Obligations.FirstForgetsTheOldSearch := by
  intro r a s t y ld lfd ldf hf h hst
  rw [exec_first_eq] at h ⊢
  rw [search_forgets_addr rfl hf]
  cases h
  have hne : (search s.params r a s.addr (.num 0) 0 s.start.link).1 ≠ .ok .noPresence := by
    intro hno
    rcases State.concludeSearch_cases (search s.params r a s.addr (.num 0) 0 s.start.link)
      (s.start.setSearch (.num 0) 0 false) with ⟨_, e⟩ | ⟨hc, _⟩ | ⟨_, hc, _⟩ | ⟨_, hc, _⟩
    · exact hst (by rw [e])
    all_goals cases hno.symm.trans hc
  exact congrArg Host.Outcome.next (State.concludeSearch_forgets_addr hne y (s.start.setSearch (.num 0) 0 false))

/-- A discrepancy that a pass from 0 resolves to 0 is any discrepancy. -/
theorem not_discrepancy_at_zero_iff {A B x : Bool} (hx : x = if A = B then false else A) :
    ¬ (A = B ∧ x = false) ↔ A ≠ B := by
  rw [hx]
  by_cases h : A = B <;> simp [h]

/-- Settles O33: FIRST is NEXT from 0 (`firstIsNextAfterClearing`), where every discrepancy goes to 0; so the records of
NEXT's pass (`nextYieldsTheAddressOfItsPass`) are its last discrepancies. -/
theorem firstYieldsTheAddressOfItsPass : Obligations.FirstYieldsTheAddressOfItsPass := by
  intro r a s x hq hp hab hx h0 hcrc
  have hall : ∀ j < 64, (¬ (s.readA r j = s.readB r j ∧ abit x j = false) ↔ s.readA r j ≠ s.readB r j) :=
    fun j hj => not_discrepancy_at_zero_iff (hx j hj)
  have hx0 : ∀ i < 64, abit x i = if s.readA r i = s.readB r i then
      (if i + 1 < 0 then abit s.addr i else decide (i + 1 = 0)) else s.readA r i := by simpa using hx
  obtain ⟨t, h, ht, hld, hlfd, hldf⟩ := nextYieldsTheAddressOfItsPass r a
    { s with ld := .num 0, lfd := 0, ldf := false } 0 x rfl (by rintro _ ⟨⟩; rfl) (fun _ => rfl) hq hp hab hx0 h0 hcrc
  rw [firstIsNextAfterClearing]
  refine ⟨t, h, ht, ?_, ?_, hldf⟩
  · rcases hld with ⟨hld, hno⟩ | ⟨m, hm, hld, ⟨hdisc, _⟩, hno⟩
    · exact .inl ⟨hld, fun j hj => (hall j hj).1 (hno j hj)⟩
    · exact .inr ⟨m, hm, hld, hdisc, fun j hj hmj => (hall j hj).1 (hno j hj hmj)⟩
  · rcases hlfd with ⟨hlfd, hno⟩ | ⟨m, hm, hlfd, ⟨hdisc, _⟩, hno⟩
    · exact .inl ⟨hlfd, fun j hj => (hall j (by omega)).1 (hno j hj)⟩
    · exact .inr ⟨m, hm, hlfd, hdisc, fun j hj hmj => (hall j (by omega)).1 (hno j hj hmj)⟩

/-! ## The stop at an empty position -/

/-- Steps 3 to 5 that read (1,1) first at position `m` stop there (R118). -/
theorem searchPass_stops_at {p : Params} {a : Bool} {addr : Address} {ld : Discrepancy} {lfd : Fin 65} {l : Link}
    {A B : Nat → Bool} {m : Nat} (hm : m < 64) (hq : l.Quiet p (3 * m + 2 + 1))
    (hread : ∀ j ≤ m, (l.answerAt (1 + 3 * j)).bit = A j ∧ (l.answerAt (1 + (3 * j + 1))).bit = B j)
    (hab : ∀ j < m, ¬ (A j = true ∧ B j = true)) (hA : A m = true) (hB : B m = true) :
    searchPass p a addr ld lfd l =
      (.ok .corrupted, l.advance (⟨.touchByte (searchByte a), .byte (l.answerAt 0).byte⟩ ::
        (passEvents ld.hi A B (candidatePath ld addr) m 0 ++ [⟨.readBit, .bit true⟩, ⟨.readBit, .bit true⟩]))) := by
  have h1 := touchByte_of_quiet (hq.mono (by omega)) (searchByte a)
  have h2 := passFrom_stops_at (hi := ld.hi) (A := A) (B := B) (i := 0) (ps := ⟨candidatePath ld addr, .none, lfd⟩) hm
    (Link.Quiet.log (.touchByte (searchByte a)) (.byte (l.answerAt 0).byte) hq)
    (fun j hj => by simpa only [Link.answerAt_log, Nat.zero_add, Nat.add_comm _ 1] using hread j hj)
    (by simpa using hab) (by simpa using hA) (by simpa using hB) (Nat.le_refl 64)
  rw [searchPass, LinkOp.andThen_ok h1, LinkOp.andThen_ok h2, LinkOp.done_apply, Link.log_eq_advance,
    Link.advance_append]
  rfl

/-- The events of the first `n` positions are those of the bits driven there (R117, R120). -/
theorem State.passEvents_eq {s : State} {r : Bool} {x : Address} {n : Nat}
    (hx : ∀ i < n, abit x i = direction s.ld.hi i s.addr (s.readA r i) (s.readB r i)) (a : Bool) :
    ⟨.touchByte (searchByte a), .byte (s.answerAt (s.resetCalls r)).byte⟩ ::
      passEvents s.ld.hi (s.readA r) (s.readB r) (candidatePath s.ld s.addr) n 0 = s.passEventsOf r a x n := by
  rw [State.passEventsOf, passEvents, List.range_eq_range']
  refine congrArg₂ List.cons rfl (List.flatMap_congr fun i hi => ?_)
  rw [direction_candidatePath, ← hx i (by simpa using (List.mem_range'_1.1 hi).2)]
  rfl

/-- Settles O34: past step 2 (`exec_next_of_presence`) the pass stops at position `m` (`searchPass_stops_at`) and the
search ends as corrupted. -/
theorem nextStopsAtAnEmptyPosition : Obligations.NextStopsAtAnEmptyPosition := by
  intro r a s hi m x hl hnum hother hm hq hp hab hA hB hx
  obtain rfl := Discrepancy.hi_eq hnum hother
  have hstop := searchPass_stops_at (p := s.params) (a := a) (addr := s.addr) (ld := s.ld) (lfd := s.lfd)
    (l := s.start.link.advance (s.resetEvents r)) (A := s.readA r) (B := s.readB r) hm
    (Link.Quiet.advance (by rw [State.resetEvents_length]; exact hq.start.mono (by omega)))
    (fun j _ => by
      simp only [Link.answerAt_advance, State.resetEvents_length, ← Nat.add_assoc]
      exact ⟨rfl, rfl⟩) hab hA hB
  rw [exec_next_of_presence a hl (hq.mono (by omega)) hp, hstop, ← List.cons_append, Link.answerAt_advance,
    State.resetEvents_length, Nat.add_zero, State.start_answerAt, State.passEvents_eq hx, Link.advance_append,
    List.append_assoc]
  rfl

/-! ## FIRST and NEXT on a bus -/

/-- Settles O40: `first_on_bus`; at the last device no address is after the least one, so it is the only one. -/
theorem firstFindsTheLeastAddress : Obligations.FirstFindsTheLeastAddress := by
  intro s t bus hne hv he hb
  obtain ⟨hres, hst, hleast, hstands⟩ := first_on_bus hne hv he hb
  refine ⟨hres, hst, hleast, hstands.imp_left fun ⟨hldf, hld, hlast⟩ => ⟨hldf, hld, fun y hy => ?_⟩⟩
  exact (hleast.2 y hy).resolve_right (hlast y hy)

/-- Settles O41: `next_on_bus_from`. -/
theorem nextFindsTheNextAddress : Obligations.NextFindsTheNextAddress :=
  fun _ _ _ _ hv hl hn hs he hb => next_on_bus_from hv hl hn hs he hb

/-! ## The family search -/

theorem abit_familySeed (code : Byte) (i : Nat) : abit (familySeed code) i = (decide (i < 64) && code.getLsbD i) :=
  BitVec.getLsbD_setWidth ..

/-- An address is of a family exactly when its first eight bits are those of the family code (R6, R123). -/
theorem addrByte_zero_eq_iff {y : Address} {code : Byte} : addrByte y 0 = code ↔ AgreeBelow y (familySeed code) 8 := by
  have hcode : ∀ i < 8, abit (familySeed code) i = code.getLsbD i := by
    intro i hi
    simp [abit_familySeed, show i < 64 by omega]
  have hbyte : ∀ i < 8, (addrByte y 0).getLsbD i = abit y i := by
    intro i hi
    rw [addrByte_getLsbD]
    simp [hi]
  constructor
  · rintro rfl i hi
    rw [hcode i hi, hbyte i hi]
  · intro h
    apply BitVec.eq_of_getLsbD_eq
    intro i hi
    rw [hbyte i hi, h i hi, hcode i hi]

/-- Two good addresses do not part at the last position: one would be the other with one wrong bit (R92). -/
theorem ne_last_of_first_difference {x y : Address} {i : Nat} (hx : candidateGood x = true)
    (hy : candidateGood y = true) (hi : i < 64) (hag : AgreeBelow x y i) (hne : abit x i ≠ abit y i) : i ≠ 63 := by
  rintro rfl
  have hbad : addrValid y = false := by
    refine crc8DetectsEverySingleBitError x y 63 hi (valid_of_candidateGood hx).2 fun j hj => ?_
    by_cases h63 : j = 63
    · subst h63
      simpa [Bool.eq_not] using hne.symm
    · simp [h63, hag j (by omega)]
  rw [(valid_of_candidateGood hy).2] at hbad
  cases hbad

section
variable {xs : List Address} {code : Byte} {lfd : Fin 65} {ps : Pass} (hgood : ∀ x ∈ xs, candidateGood x = true)
  (h : PassOnBus xs 64 0 ⟨candidatePath (.num 64) (familySeed code), .none, lfd⟩ ps)
include hgood h

/-- The pass after FAMSETUP drives the family seed wherever good addresses part (R119, R123). -/
theorem PassOnBus.family_bit {y : Address} (hy : y ∈ xs) {i : Nat} (hi : i < 64) (hag : AgreeBelow ps.cand y i)
    (hne : abit ps.cand i ≠ abit y i) : abit ps.cand i = abit (familySeed code) i := by
  have h63 := ne_last_of_first_difference (hgood _ h.found) (hgood y hy) hi hag hne
  have hlt : i + 1 < 64 := by omega
  rw [h.bit_at_difference hy hi hag hne, if_pos hlt]
  exact abit_candidatePath_below (ld := .num 64) hlt (familySeed code)

/-- With a device of the family on the bus it finds one. -/
theorem PassOnBus.finds_family {y : Address} (hy : y ∈ xs) (hfam : addrByte y 0 = code) :
    addrByte ps.cand 0 = code := by
  have hseed := addrByte_zero_eq_iff.1 hfam
  rw [addrByte_zero_eq_iff]
  by_contra hno
  have hne : ps.cand ≠ y := fun e => hno (e ▸ hseed)
  obtain ⟨i, hi, hag, hdiff⟩ := exists_first_difference hne
  by_cases hi8 : i < 8
  · exact hdiff ((PassOnBus.family_bit hgood h hy hi hag hdiff).trans (hseed i hi8).symm)
  · exact hno ((hag.mono (by omega)).trans hseed)

/-- And it is the least of the family: above the family byte the seed is 0. -/
theorem PassOnBus.isLeast_of_family (hfam : addrByte ps.cand 0 = code) :
    IsLeast (xs.filter fun y => addrByte y 0 = code) ps.cand := by
  refine ⟨List.mem_filter.2 ⟨h.found, decide_eq_true hfam⟩, fun y hy => ?_⟩
  obtain ⟨hy, hyfam⟩ := List.mem_filter.1 hy
  have hag8 : AgreeBelow ps.cand y 8 :=
    (addrByte_zero_eq_iff.1 hfam).trans (addrByte_zero_eq_iff.1 (of_decide_eq_true hyfam)).symm
  by_cases e : y = ps.cand
  · exact .inl e
  · obtain ⟨i, hi, hag, hne⟩ := exists_first_difference (Ne.symm e)
    have hi8 : 8 ≤ i := by
      by_contra hlt
      exact hne (hag8 i (by omega))
    have h0 : abit ps.cand i = false := by
      rw [PassOnBus.family_bit hgood h hy hi hag hne, abit_familySeed, BitVec.getLsbD_of_ge code i hi8, Bool.and_false]
    exact .inr ⟨i, hi, hag, h0, by simpa [h0] using hne.symm⟩

end

/-- Settles O43: the pass of NEXT on the bus (`next_on_bus_stands`), from the seed FAMSETUP leaves, finds the family
(`PassOnBus.finds_family`) and its least address (`PassOnBus.isLeast_of_family`). -/
theorem familySearchFindsItsLeastAddress : Obligations.FamilySearchFindsItsLeastAddress := by
  rintro code s u t bus hv ⟨y, hy, hyfam⟩ hu he hb
  cases hu
  have hne : bus ≠ [] := by
    rintro rfl
    exact List.not_mem_nil hy
  obtain ⟨hres, _, hstands, ps, haddr, hps⟩ := next_on_bus_stands hne hv rfl he hb
  have hfam : addrByte ps.cand 0 = code := PassOnBus.finds_family hv hps hy hyfam
  exact ⟨hres, haddr ▸ hfam, haddr ▸ PassOnBus.isLeast_of_family hv hps hfam, hstands⟩

end Sys2Proof.Machine

/-! PROOFS about how commands end: the statuses of each (spec 60 R171), and that a link fault has one of its own (R182,
R183). -/

namespace Sys2Proof.Machine

/-! ## The statuses a command ends with -/

/-- A link fault stopped these calls only if there is a fault channel, and the trace shows the call (R182). -/
def FaultSeen {α : Type} (p : Params) (o : Except LinkFault α × Link) : Prop :=
  ∀ k, o.1 = .error k → p.linkFaultChannel = true ∧ o.2.trace ≠ []

theorem LinkOp.Makes.faultSeen {α : Type} {p : Params} {C : LinkCall → Prop} {n : Nat} {m : LinkOp α}
    (hm : LinkOp.Makes p C n m) (l : Link) : FaultSeen p (m l) := by
  intro k hk
  obtain ⟨es, hmade⟩ := hm l
  obtain ⟨fs, c, rfl, _⟩ := hmade.fault k hk
  refine ⟨by_contra fun hoff => ?_, by rw [hmade.link]; simp⟩
  exact hm.ne_error_of_channel_off (Bool.eq_false_of_not_eq_true hoff) l k hk

/-- The command ended with one of these statuses, or a link fault stopped it (60 sections 1 and 8). -/
def State.EndsWith (t : State) (sts : List Status) (p : Params) : Prop :=
  t.status ∈ sts ∨
    (p.linkFaultChannel = true ∧ (t.status = .shortCircuit ∨ t.status = .adapterFault) ∧ t.link.trace ≠ [])

theorem State.EndsWith.mono {t : State} {sts sts' : List Status} {p : Params} (h : t.EndsWith sts p)
    (hsub : sts ⊆ sts') : t.EndsWith sts' p := h.imp_left (@hsub _)

theorem State.endsWith_of_status {t : State} {st : Status} {sts : List Status} {p : Params} (ht : t.status = st)
    (h : st ∈ sts) : t.EndsWith sts p := .inl (by rw [ht]; exact h)

theorem Status.ofFault_cases (k : LinkFault) :
    Status.ofFault k = .shortCircuit ∨ Status.ofFault k = .adapterFault := by cases k <;> decide

/-- A command that a fault stopped. -/
theorem State.endsWith_of_fault {α : Type} {p : Params} {o : Except LinkFault α × Link} {t : State} {k : LinkFault}
    (hf : FaultSeen p o) (hk : o.1 = .error k) (hl : t.link = o.2) (hst : t.status = Status.ofFault k)
    (sts : List Status) : t.EndsWith sts p := by
  obtain ⟨hon, htrace⟩ := hf k hk
  exact .inr ⟨hon, by rw [hst]; exact Status.ofFault_cases k, by rw [hl]; exact htrace⟩

theorem State.conclude_endsWith {p : Params} {o : Except LinkFault Status × Link} {sts : List Status}
    (hf : FaultSeen p o) (hok : ∀ st, o.1 = .ok st → st ∈ sts) (s : State) : (s.conclude o).EndsWith sts p := by
  obtain ⟨k | st, l⟩ := o
  · exact State.endsWith_of_fault hf rfl rfl rfl sts
  · exact .inl (hok st rfl)

theorem echoStatus_mem (echo : Bool) : echoStatus echo ∈ [.ok, .noPresence, .echoMismatch] := by
  cases echo <;> decide

theorem accessOps_ok_mem {p : Params} {addr : Address} {l : Link} {st : Status}
    (h : (accessOps p addr l).1 = .ok st) : st ∈ [.ok, .noPresence, .echoMismatch] := by
  obtain ⟨presence, _, _, h⟩ := LinkOp.of_andThen_ok h
  cases presence with
  | false => cases h; decide
  | true =>
    obtain ⟨echo, _, _, h⟩ := LinkOp.of_andThen_ok h
    cases h
    exact echoStatus_mem echo

theorem odAccessOps_ok_mem {p : Params} {addr : Address} {l : Link} {st : Status}
    (h : (odAccessOps p addr l).1 = .ok st) : st ∈ [.ok, .noPresence, .echoMismatch] := by
  obtain ⟨_, _, _, h⟩ := LinkOp.of_andThen_ok h
  obtain ⟨presence, _, _, h⟩ := LinkOp.of_andThen_ok h
  cases presence with
  | false => cases h; decide
  | true =>
    obtain ⟨e, _, _, h⟩ := LinkOp.of_andThen_ok h
    by_cases he : e = overdriveMatchByte
    · rw [if_pos he] at h
      obtain ⟨_, _, _, h⟩ := LinkOp.of_andThen_ok h
      obtain ⟨echo, _, _, h⟩ := LinkOp.of_andThen_ok h
      cases h
      exact echoStatus_mem echo
    · rw [if_neg he] at h
      cases h
      decide

/-- The closing call of ODACCESS does not hide a fault. -/
theorem FaultSeen.closeSpeed {p : Params} {C : LinkCall → Prop} {n : Nat} {l : Link}
    {o : Except LinkFault Status × Link} {es : List LinkEvent} (hf : FaultSeen p o) (hmade : LinkOp.Made p C n l o es) : FaultSeen p (closeSpeed p o) := by
  intro k hk
  rw [closeSpeed_fst] at hk
  refine ⟨(hf k hk).1, ?_⟩
  rcases closeSpeed_made hmade with ⟨_, e⟩ | ⟨_, _, e⟩ <;> rw [e]
  · exact (hf k hk).2
  · simp

/-- The statuses of a search that is not after its last device (R171): NoPresence with a bus reset only. -/
def searchStatuses (r : Bool) : List Status :=
  if r then [.ok, .noPresence, .searchCorrupted] else [.ok, .searchCorrupted]

theorem search_noPresence {p : Params} {r a : Bool} {addr : Address} {ld : Discrepancy} {lfd : Fin 65} {l : Link}
    (h : (search p r a addr ld lfd l).1 = .ok .noPresence) : r = true := by
  cases r with
  | true => rfl
  | false => rcases searchPass_ok_cases (a := a) h with he | ⟨_, he, _⟩ <;> cases he

theorem State.concludeSearch_endsWith {p : Params} {r : Bool} {o : Except LinkFault SearchEnd × Link}
    (hf : FaultSeen p o) (hno : o.1 = .ok .noPresence → r = true) (s : State) :
    (s.concludeSearch o).EndsWith (searchStatuses r) p := by
  obtain ⟨k | _ | _ | ps, l⟩ := o
  · exact State.endsWith_of_fault hf rfl rfl rfl _
  · cases hno rfl
    exact State.endsWith_of_status (st := .noPresence) rfl (by decide)
  · exact State.endsWith_of_status (st := .searchCorrupted) rfl (by cases r <;> decide)
  · exact State.endsWith_of_status (st := .ok) rfl (by cases r <;> decide)

theorem search_endsWith (r a : Bool) (p : Params) (addr : Address) (ld : Discrepancy) (lfd : Fin 65) (l : Link)
    (s : State) : (s.concludeSearch (search p r a addr ld lfd l)).EndsWith (searchStatuses r) p := by
  have hmakes := makes_search p (C := fun _ => True) r a (fun _ => trivial) trivial (fun _ => trivial)
    (fun _ => trivial) addr ld lfd
  exact State.concludeSearch_endsWith (hmakes.faultSeen l) search_noPresence s

theorem State.nextBody_endsWith (r a : Bool) (s : State) :
    (s.start.nextBody r a).EndsWith (if r then [.ok, .noPresence, .searchCorrupted, .endOfSearch]
      else [.ok, .searchCorrupted, .endOfSearch]) s.params := by
  cases hl : s.ldf with
  | true =>
    rw [State.nextBody_of_last (s := s.start) hl]
    exact State.endsWith_of_status (st := .endOfSearch) rfl (by cases r <;> decide)
  | false =>
    rw [State.nextBody_of_not_last (s := s.start) hl]
    refine (search_endsWith r a s.params s.addr s.ld s.lfd s.start.link s.start).mono ?_
    cases r <;> decide

theorem verifyOps_none {p : Params} {a : Bool} {addr : Address} {l : Link} (h : (verifyOps p a addr l).1 = .ok none) :
    p.verifyDoesReset = true := by
  by_contra hr
  rw [verifyOps, if_neg hr] at h
  obtain ⟨_, _, hpresence, h⟩ := LinkOp.of_andThen_ok h
  cases hpresence
  obtain ⟨_, _, _, h⟩ := LinkOp.of_andThen_ok h
  obtain ⟨_, _, _, h⟩ := LinkOp.of_andThen_ok h
  cases h

theorem State.concludeVerify_endsWith {p : Params} {o : Except LinkFault (Option Nat) × Link} (hf : FaultSeen p o)
    (hno : o.1 = .ok none → p.verifyDoesReset = true) (s : State) :
    (s.concludeVerify o).EndsWith (if p.verifyDoesReset then [.ok, .noPresence] else [.ok]) p := by
  obtain ⟨k | _ | cnt, l⟩ := o
  · exact State.endsWith_of_fault hf rfl rfl rfl _
  · exact State.endsWith_of_status (st := .noPresence) rfl (by rw [hno rfl]; decide)
  · exact State.endsWith_of_status (st := .ok) rfl (by split <;> decide)

/-- The fault that stopped the loop of EXCHANGE is in the trace. -/
theorem exchangeFrom_faultSeen (p : Params) (resets n k : Nat) (m : Memory) (l : Link) :
    FaultSeen p (exchangeFrom p resets n k m l).2 := by
  intro f hf
  obtain ⟨es, hmade⟩ := exchangeFrom_made p resets n k m l
  obtain ⟨fs, c, rfl, _⟩ := hmade.fault f hf
  refine ⟨by_contra fun hoff => ?_, by rw [hmade.link]; simp⟩
  exact exchangeFrom_ne_error_of_channel_off (Bool.eq_false_of_not_eq_true hoff) resets n k m l f hf

theorem State.exchangeBody_endsWith (len : Nat) (s : State) : (s.exchangeBody len).EndsWith [.ok] s.params := by
  rcases State.concludeExchange_cases (exchangeFrom s.params s.resets len 0 s.buf s.link) s with ⟨_, e⟩ | ⟨k, hk, e⟩ <;>
    rw [State.exchangeBody, e]
  · exact State.endsWith_of_status rfl (List.mem_singleton.2 rfl)
  · exact State.endsWith_of_fault (exchangeFrom_faultSeen _ _ _ _ _ _) hk rfl rfl _

theorem execExchange_endsWith {r : Bool} {len : Nat} {s t : State} (h : execExchange r len s = .next t) :
    t.EndsWith (if r then [.ok, .noPresence, .lengthExceeded] else [.ok, .lengthExceeded]) s.params := by
  have hmakes := makes_linkReset s.params (C := fun _ => True) trivial
  rcases execExchange_cases r len s with
    ⟨_, e⟩ | ⟨_, rfl, k, l, hl, e⟩ | ⟨_, rfl, _, _, e⟩ | ⟨_, rfl, l, _, e⟩ | ⟨_, rfl, e⟩ <;> cases e.symm.trans h
  · exact State.endsWith_of_status (st := .lengthExceeded) rfl (by cases r <;> decide)
  · have hf := hmakes.faultSeen s.start.link
    rw [hl] at hf
    exact State.endsWith_of_fault hf rfl rfl rfl _
  · exact State.endsWith_of_status (st := .noPresence) rfl (by decide)
  · exact (State.exchangeBody_endsWith len (s.start.setLink l)).mono (by decide)
  · exact (State.exchangeBody_endsWith len s.start).mono (by decide)

theorem crcCheckStatus_mem (good : Prop) [Decidable good] :
    (if good then .ok else .crcFailure) ∈ [Status.ok, .crcFailure] := by split <;> decide

/-- Settles O51, command by command: each ends with a status of its own, or a fault of its link calls stopped it. -/
theorem statusesEachCommandCanEndWith : Obligations.StatusesEachCommandCanEndWith := by
  intro i s
  obtain ⟨t, _, h, _⟩ := exec_ran i s
  refine ⟨t, h, ?_⟩
  cases i with
  | first r a => cases h; exact search_endsWith r a s.params s.addr (.num 0) 0 s.start.link _
  | next r a => cases h; exact State.nextBody_endsWith r a s
  | access =>
    cases h
    have hmakes := makes_accessOps s.params (C := fun _ => True) trivial (fun _ => trivial) s.addr
    exact State.conclude_endsWith (hmakes.faultSeen s.start.link) (fun _ => accessOps_ok_mem) s.start
  | verify a =>
    cases h
    have hmakes := makes_verifyOps s.params (C := fun _ => True) a (fun _ => trivial) trivial (fun _ => trivial)
      (fun _ => trivial) s.addr
    exact State.concludeVerify_endsWith (hmakes.faultSeen s.start.link) verifyOps_none s.start
  | odAccess =>
    cases h
    have hmakes := makes_odAccessOps s.params (C := fun _ => True) trivial (fun _ => trivial) (fun _ => trivial) s.addr
    obtain ⟨_, hmade⟩ := hmakes s.start.link
    refine State.conclude_endsWith ((hmakes.faultSeen s.start.link).closeSpeed hmade) (fun st hst => ?_) s.start
    rw [closeSpeed_fst] at hst
    exact odAccessOps_ok_mem hst
  | exchange r len => exact execExchange_endsWith h
  | crc8Check => cases h; exact State.endsWith_of_status rfl (crcCheckStatus_mem _)
  | crc16Check => cases h; exact State.endsWith_of_status rfl (crcCheckStatus_mem _)
  | _ => cases h; exact State.endsWith_of_status rfl (List.mem_singleton.2 rfl)

end Sys2Proof.Machine

/-! PROOFS about what a fault answer leaves (spec 60 R183): it is the last call of its sequence, and the command's end
shows its status and keeps the rest. -/

namespace Sys2Proof.Machine

/-! ## The first fault of a trace -/

/-- The first event of `es` with a fault answer is the call `c` answered by `k`, after the events `before`. -/
structure FirstFault (es before : List LinkEvent) (c : LinkCall) (k : LinkFault) (after : List LinkEvent) : Prop where
  split : es = before ++ ⟨c, .fault k⟩ :: after
  quiet : ∀ e ∈ before, e.isFault = false

section
variable {es fs before after : List LinkEvent} {c : LinkCall} {k : LinkFault}

theorem not_firstFault_of_quiet (h : ∀ e ∈ es, e.isFault = false) : ¬ FirstFault es before c k after := by
  rintro ⟨rfl, _⟩
  cases h ⟨c, .fault k⟩ (by simp)

theorem not_firstFault_nil : ¬ FirstFault [] before c k after := not_firstFault_of_quiet nofun

/-- The first fault of a trace is its last event, or comes before it. -/
theorem FirstFault.concat_cases {e : LinkEvent} (h : FirstFault (fs ++ [e]) before c k after) :
    (∃ rest, FirstFault fs before c k rest ∧ after = rest ++ [e]) ∨
      (before = fs ∧ e = ⟨c, .fault k⟩ ∧ after = []) := by
  obtain ⟨hsplit, hquiet⟩ := h
  rcases List.eq_nil_or_concat after with rfl | ⟨rest, e', rfl⟩
  · obtain ⟨hfs, he⟩ := List.append_inj' hsplit rfl
    exact .inr ⟨hfs.symm, List.singleton_inj.1 he, rfl⟩
  · rw [List.concat_eq_append, ← List.cons_append, ← List.append_assoc] at hsplit
    obtain ⟨hfs, he⟩ := List.append_inj' hsplit rfl
    exact .inl ⟨rest, ⟨hfs, hquiet⟩, by rw [List.concat_eq_append, List.singleton_inj.1 he]⟩

/-- The only fault of a trace that ends with it. -/
theorem FirstFault.concat_of_quiet {e : LinkEvent} (h : FirstFault (fs ++ [e]) before c k after)
    (hfs : ∀ e ∈ fs, e.isFault = false) : before = fs ∧ e = ⟨c, .fault k⟩ ∧ after = [] :=
  h.concat_cases.resolve_left fun ⟨_, hr, _⟩ => not_firstFault_of_quiet hfs hr

theorem FirstFault.of_last {c' : LinkCall} {k' : LinkFault} (h : FirstFault (fs ++ [⟨c', .fault k'⟩]) before c k after)
    (hfs : ∀ e ∈ fs, e.isFault = false) : k' = k ∧ before = fs ∧ after = [] := by
  obtain ⟨hb, he, ha⟩ := h.concat_of_quiet hfs
  cases he
  exact ⟨rfl, hb, ha⟩

/-- A sequence with a fault in its trace was stopped by it, at its last call (R183). -/
theorem LinkOp.Made.firstFault {α : Type} {p : Params} {C : LinkCall → Prop} {n : Nat} {l : Link}
    {o : Except LinkFault α × Link} (hm : LinkOp.Made p C n l o es) (h : FirstFault es before c k after) :
    o.1 = .error k ∧ after = [] := by
  cases ho : o.1 with
  | ok x => exact absurd h (not_firstFault_of_quiet (hm.value x ho))
  | error k' =>
    obtain ⟨fs, c', rfl, hfs⟩ := hm.fault k' ho
    obtain ⟨rfl, _, ha⟩ := h.of_last hfs
    exact ⟨rfl, ha⟩

/-- The link after a command's calls, from the trace they leave. -/
theorem Link.eq_command {l : Link} {s : State} (h : l = s.start.link.advance es) :
    l.trace = es ∧ l = s.link.command l.trace := by
  subst h
  exact ⟨rfl, rfl⟩

/-- The link calls of a command, a fault among them: what they come to, and the link they leave. -/
theorem LinkOp.Makes.firstFault {α : Type} {p : Params} {C : LinkCall → Prop} {n : Nat} {m : LinkOp α}
    (hm : LinkOp.Makes p C n m) {s : State} (h : FirstFault (m s.start.link).2.trace before c k after) :
    (m s.start.link).1 = .error k ∧ after = [] ∧
      (m s.start.link).2 = s.link.command (m s.start.link).2.trace := by
  obtain ⟨es, hmade⟩ := hm s.start.link
  obtain ⟨htrace, hlink⟩ := Link.eq_command hmade.link
  rw [htrace] at h
  obtain ⟨hk, ha⟩ := hmade.firstFault h
  exact ⟨hk, ha, hlink⟩

/-- The calls of ODACCESS, a fault among them: it stopped them and the closing call follows, or it is the closing call's
after an ordinary failure (R183; log 10). -/
theorem LinkOp.Made.firstFault_closeSpeed {C : LinkCall → Prop} {n : Nat} {s : State}
    {o : Except LinkFault Status × Link} (hm : LinkOp.Made s.params C n s.start.link o es)
    (h : FirstFault (closeSpeed s.params o).2.trace before c k after) :
    (closeSpeed s.params o).2 = s.link.command (closeSpeed s.params o).2.trace ∧
      ((o.1 = .error k ∧ ∃ q, after = [⟨.setSpeed .normal, q⟩]) ∨
        ((∃ st, o.1 = .ok st ∧ st ≠ .ok) ∧ after = [] ∧ c = .setSpeed .normal)) := by
  rcases closeSpeed_made hm with ⟨hok, e⟩ | ⟨hne, _, hl⟩
  · rw [e, (Link.eq_command hm.link).1] at h
    exact absurd h (not_firstFault_of_quiet (hm.value _ hok))
  · obtain ⟨htrace, hlink⟩ := Link.eq_command hl
    rw [htrace] at h
    refine ⟨hlink, ?_⟩
    rcases h.concat_cases with ⟨rest, hrest, ha⟩ | ⟨rfl, hc, ha⟩
    · obtain ⟨hk, rfl⟩ := hm.firstFault hrest
      exact .inl ⟨hk, _, ha⟩
    · refine .inr ⟨?_, ha, (congrArg LinkEvent.call hc).symm⟩
      cases ho : o.1 with
      | ok st => exact ⟨st, rfl, fun e => hne (e ▸ ho)⟩
      | error k' =>
        obtain ⟨fs, c', hes, _⟩ := hm.fault k' ho
        cases h.quiet ⟨c', .fault k'⟩ (by simp [hes])

end

/-! ## The ends of commands that a fault stopped -/

theorem State.conclude_of_error {o : Except LinkFault Status × Link} {k : LinkFault} (h : o.1 = .error k) (s : State) :
    s.conclude o = (s.setLink o.2).fail (Status.ofFault k) := by
  obtain ⟨_, l⟩ := o
  cases h
  rfl

theorem State.concludeVerify_of_error {o : Except LinkFault (Option Nat) × Link} {k : LinkFault} (h : o.1 = .error k)
    (s : State) : s.concludeVerify o = (s.setLink o.2).fail (Status.ofFault k) := by
  obtain ⟨_, l⟩ := o
  cases h
  rfl

theorem State.concludeSearch_of_error {o : Except LinkFault SearchEnd × Link} {k : LinkFault} (h : o.1 = .error k)
    (s : State) : s.concludeSearch o = (s.setLink o.2).ssEmpty.fail (Status.ofFault k) := by
  obtain ⟨_, l⟩ := o
  cases h
  rfl

theorem State.concludeVerify_link (o : Except LinkFault (Option Nat) × Link) (s : State) :
    (s.concludeVerify o).link = o.2 := by
  obtain ⟨_, _, e, _⟩ := State.concludeVerify_frame o s
  rw [e]

theorem State.conclude_link (o : Except LinkFault Status × Link) (s : State) : (s.conclude o).link = o.2 := by
  rw [State.conclude_eq]

/-- The state as it was, but for the status, `RES` and the link (R183). -/
theorem State.fail_setLink_eq {l : Link} {s : State} (hl : l = s.link.command l.trace) (st : Status) :
    (s.start.setLink l).fail st = { s with status := st, res := false, link := s.link.command l.trace } := by
  rw [← hl]
  rfl

/-- The empty search, and the rest as it was (R183). -/
theorem State.fail_ssEmpty_setLink_eq {l : Link} {s : State} (hl : l = s.link.command l.trace) (st : Status) :
    (s.start.setLink l).ssEmpty.fail st =
      { s with addr := 0, ld := .resetSentinel, lfd := 0, ldf := false, status := st, res := false,
               link := s.link.command l.trace } := by
  rw [← hl]
  rfl

section
variable {s t : State} {before after : List LinkEvent} {c : LinkCall} {k : LinkFault}
  (hf : FirstFault t.link.trace before c k after)
include hf

theorem fault_of_exec_next {r a : Bool} (h : exec (.next r a) s = .next t) :
    after = [] ∧ t = { s with addr := 0, ld := .resetSentinel, lfd := 0, ldf := false, status := Status.ofFault k,
                              res := false, link := s.link.command t.link.trace } := by
  cases hl : s.ldf with
  | true =>
    cases (exec_next_of_last hl r a).symm.trans h
    exact absurd hf not_firstFault_nil
  | false =>
    cases (exec_next_of_not_last hl r a).symm.trans h
    have hm := makes_search s.params (C := fun _ => True) r a (fun _ => trivial) trivial (fun _ => trivial)
      (fun _ => trivial) s.addr s.ld s.lfd
    rw [State.concludeSearch_link] at hf ⊢
    obtain ⟨hk, ha, hlink⟩ := hm.firstFault hf
    exact ⟨ha, (State.concludeSearch_of_error hk s.start).trans (State.fail_ssEmpty_setLink_eq hlink _)⟩

theorem fault_of_exec_access (h : exec .access s = .next t) :
    after = [] ∧ t = { s with status := Status.ofFault k, res := false, link := s.link.command t.link.trace } := by
  cases h
  have hm := makes_accessOps s.params (C := fun _ => True) trivial (fun _ => trivial) s.addr
  rw [State.conclude_link] at hf ⊢
  obtain ⟨hk, ha, hlink⟩ := hm.firstFault hf
  exact ⟨ha, (State.conclude_of_error hk s.start).trans (State.fail_setLink_eq hlink _)⟩

theorem fault_of_exec_verify {a : Bool} (h : exec (.verify a) s = .next t) :
    after = [] ∧ t = { s with status := Status.ofFault k, res := false, link := s.link.command t.link.trace } := by
  cases h
  have hm := makes_verifyOps s.params (C := fun _ => True) a (fun _ => trivial) trivial (fun _ => trivial)
    (fun _ => trivial) s.addr
  rw [State.concludeVerify_link] at hf ⊢
  obtain ⟨hk, ha, hlink⟩ := hm.firstFault hf
  exact ⟨ha, (State.concludeVerify_of_error hk s.start).trans (State.fail_setLink_eq hlink _)⟩

/-- ODACCESS closes after a fault too, and on its ordinary failures ignores the fault of the closing call (log 10). -/
theorem fault_of_exec_odAccess (h : exec .odAccess s = .next t) :
    (∃ q, after = [⟨.setSpeed .normal, q⟩] ∧
      t = { s with status := Status.ofFault k, res := false, link := s.link.command t.link.trace }) ∨
    (after = [] ∧ c = .setSpeed .normal ∧ (t.status = .noPresence ∨ t.status = .echoMismatch) ∧
      t = { s with status := t.status, res := false, link := s.link.command t.link.trace }) := by
  cases h
  obtain ⟨es, hmade⟩ := makes_odAccessOps s.params (C := fun _ => True) trivial (fun _ => trivial) (fun _ => trivial)
    s.addr s.start.link
  rw [State.conclude_link] at hf ⊢
  obtain ⟨hlink, ⟨hk, q, ha⟩ | ⟨⟨st, hok, hst⟩, ha, hc⟩⟩ := hmade.firstFault_closeSpeed hf
  · have herr := (closeSpeed_fst s.params _).trans hk
    exact .inl ⟨q, ha, (State.conclude_of_error herr s.start).trans (State.fail_setLink_eq hlink _)⟩
  · refine .inr ⟨ha, hc, ?_⟩
    rw [State.conclude_eq, (closeSpeed_fst s.params _).trans hok]
    refine ⟨by simpa [endStatus, hst] using odAccessOps_ok_mem hok, ?_⟩
    have hres : resOf (endStatus (.ok st)) = false := beq_eq_false_iff_ne.2 hst
    rw [hres, ← hlink]
    rfl

/-- The loop of EXCHANGE after the events `es0`: the bytes exchanged before the fault are in `BUF` (R183). -/
theorem fault_of_exchangeBody {len : Nat} {es0 : List LinkEvent} (h0 : ∀ e ∈ es0, e.isFault = false)
    (ht : t = (s.start.setLink (s.start.link.advance es0)).exchangeBody len) :
    after = [] ∧
      (∀ j, t.bufByte j = if j < before.length - es0.length then (s.answerAt (es0.length + j)).byte else s.bufByte j) ∧
      t = { s with buf := t.buf, status := Status.ofFault k, res := false, link := s.link.command t.link.trace } := by
  obtain ⟨es, hmade⟩ := exchangeFrom_made s.params s.resets len 0 s.buf (s.start.link.advance es0)
  have hcases := State.concludeExchange_cases (exchangeFrom s.params s.resets len 0 s.buf (s.start.link.advance es0))
    (s.start.setLink (s.start.link.advance es0))
  rw [hmade.link, Link.advance_append] at hcases
  rcases hcases with ⟨hok, e⟩ | ⟨k', hk', e⟩
  · obtain ⟨_, hquiet, _⟩ := hmade.value hok
    have htrace : t.link.trace = es0 ++ es := by
      rw [ht.trans e]
      rfl
    rw [htrace] at hf
    refine absurd hf (not_firstFault_of_quiet fun e he => ?_)
    exact (List.mem_append.1 he).elim (h0 e) (hquiet e)
  · obtain ⟨fs, c', rfl, hfs, hread⟩ := hmade.fault k' hk'
    have hquiet : ∀ e ∈ es0 ++ fs, e.isFault = false := fun e he => (List.mem_append.1 he).elim (h0 e) (hfs e)
    have htrace : t.link.trace = (es0 ++ fs) ++ [⟨c', .fault k'⟩] := by
      rw [ht.trans e, List.append_assoc]
      rfl
    rw [htrace] at hf
    obtain ⟨rfl, rfl, rfl⟩ := hf.of_last hquiet
    refine ⟨rfl, fun j => ?_, ?_⟩
    · have hbyte : t.bufByte j = (exchangeFrom s.params s.resets len 0 s.buf (s.start.link.advance es0)).1.read
          s.resets j := by
        rw [ht.trans e]
        rfl
      rw [hbyte, hread j, Link.answerAt_advance, List.length_append, Nat.add_sub_cancel_left, Nat.sub_zero,
        Nat.zero_add]
      simp only [Nat.zero_le, true_and]
      rfl
    · rw [htrace, List.append_assoc, ht.trans e]
      rfl

theorem fault_of_exec_exchange {r : Bool} {len : Nat} (h : exec (.exchange r len) s = .next t) :
    after = [] ∧
      (∀ j, t.bufByte j = if j < before.length - (if r then 1 else 0)
        then (s.answerAt ((if r then 1 else 0) + j)).byte else s.bufByte j) ∧
      t = { s with buf := t.buf, status := Status.ofFault k, res := false, link := s.link.command t.link.trace } := by
  rcases execExchange_cases r len s with
    ⟨_, e⟩ | ⟨_, rfl, k', l, hl, e⟩ | ⟨_, rfl, l, hl, e⟩ | ⟨_, rfl, l, hl, e⟩ | ⟨_, rfl, e⟩
  case inr.inr.inr.inr =>
    exact fault_of_exchangeBody hf (es0 := []) nofun (Host.Outcome.next.inj (h.symm.trans e))
  all_goals cases e.symm.trans h
  · exact absurd hf not_firstFault_nil
  all_goals
    rcases ask_cases s.params .reset (·.presence) .presence s.start.link with ⟨v, hv⟩ | ⟨k'', hv⟩ <;>
      cases hl.symm.trans hv
  · obtain ⟨rfl, rfl, rfl⟩ := hf.of_last (fs := []) nofun
    exact ⟨rfl, fun j => (if_neg (Nat.not_lt_zero j)).symm, rfl⟩
  · exact absurd hf (not_firstFault_of_quiet (by simp [LinkEvent.isFault]))
  · exact fault_of_exchangeBody hf (es0 := [⟨.reset, .presence true⟩]) (by simp [LinkEvent.isFault]) rfl

end

/-- Settles O56: the commands that make link calls, one lemma each; FIRST is NEXT after clearing the registers that the
fault empties (`firstIsNextAfterClearing`), and the others have an empty trace. -/
theorem faultedCommandStops : Obligations.FaultedCommandStops := by
  intro i s
  obtain ⟨t, es, h, hran⟩ := exec_ran i s
  refine ⟨t, h, fun before after c k htrace hquiet => ?_⟩
  have hf : FirstFault t.link.trace before c k after := ⟨htrace, hquiet⟩
  cases i with
  | first r a =>
    rw [firstIsNextAfterClearing] at h
    exact fault_of_exec_next (s := { s with ld := .num 0, lfd := 0, ldf := false }) hf h
  | next r a => exact fault_of_exec_next hf h
  | access => exact fault_of_exec_access hf h
  | verify a => exact fault_of_exec_verify hf h
  | odAccess => exact fault_of_exec_odAccess hf h
  | exchange r len => exact fault_of_exec_exchange hf h
  | _ => cases h; exact not_firstFault_nil hf

end Sys2Proof.Machine
